-- ==== Sys2Proof/Word.lean ====
section
/-! DEFINITION. The number type of the machine's registers, the operations of a number system, and the fixed bundle of four. -/

namespace Sys2Proof

/-- The spec's `Num`: the carrier of every value D00 calls "real", in the machine's own state (00_scope.md R6, R7): exact rationals, so
that a state is plain data. DESIGN CHOICE (log 1). The datapath is written once over any number system, and
`Sys2Proof.Numerics.real` (Machine/Reference.lean) is the reference instance `NUM_REAL` of it. -/
abbrev Scalar := ℚ

/-- The operations of the record `NUMERICS` (00_scope.md R6) for which the carrier `N` has no sign of its own. Zero, one, `+ - * /`, the
embedding of literals and the order are those of the carrier; no law but those of R8 is asked of them (`Numerics`, Config.lean). -/
structure NumericOps (N : Type) where
  /-- `PI`. -/
  pi : N
  sin : N → N
  tanh : N → N
  /-- Two to the power. -/
  exp2 : N → N
  floor : N → Int
  /-- The value of `div(x, 0)`, "some value the rules never rely on" (R6). -/
  divZero : N → N

/-- Four like things, one per operator (`N_OP` = 4, 00_scope.md R4). -/
@[ext] structure Quad (α : Type) where
  x0 : α
  x1 : α
  x2 : α
  x3 : α
  deriving DecidableEq, Repr, Inhabited

namespace Quad

variable {α β : Type}

/-- The entry of index `i`. -/
def get (q : Quad α) (i : Fin 4) : α :=
  match i with
  | 0 => q.x0
  | 1 => q.x1
  | 2 => q.x2
  | 3 => q.x3

/-- The four values of a function on the indices. -/
def ofFn (f : Fin 4 → α) : Quad α := ⟨f 0, f 1, f 2, f 3⟩

/-- The same value four times. -/
def const (a : α) : Quad α := ⟨a, a, a, a⟩

/-- `f` applied to each entry. -/
def map (f : α → β) (q : Quad α) : Quad β := ⟨f q.x0, f q.x1, f q.x2, f q.x3⟩

/-- `f` applied to the entry of index `i`, the other three kept. -/
def update (q : Quad α) (i : Fin 4) (f : α → α) : Quad α :=
  ofFn fun j => if j = i then f (q.get j) else q.get j

end Quad

end Sys2Proof
end

