-- ==== Sys2Proof/Machine/Numeric.lean ====
section
/-! DEFINITION. The helper functions of 00_scope.md R12 and the total division of R6, over any number system. -/

namespace Sys2Proof

variable {N : Type} [Zero N] [One N] [Add N] [Sub N] [Mul N] [Div N] [Neg N] [NatCast N] [IntCast N] [RatCast N]
  [LE N] [LT N] [DecidableLE N] [DecidableLT N] [DecidableEq N]

/-- `clamp(x, a, b)` (00_scope.md R12). -/
def clamp (x a b : N) : N := if x < a then a else if b < x then b else x

/-- `clamp01(x)` (00_scope.md R12). -/
def clamp01 (x : N) : N := clamp x 0 1

/-- `max(x, a)` (45_parameters.md R192, R198). -/
def atLeast (a x : N) : N := if x < a then a else x

/-- `wrap(x)`, the floor-modulo by 2π (00_scope.md R12). -/
def NumericOps.wrap (K : NumericOps N) (x : N) : N := x - 2 * K.pi * (K.floor (x / (2 * K.pi)) : ℤ)

/-- `rhu(x)`, round half up (00_scope.md R12). -/
def NumericOps.rhu (K : NumericOps N) (x : N) : Int := K.floor (x + 1 / 2)

/-- The total division `div` (00_scope.md R6). Where the divisor is zero its value is free: no rule relies on it. -/
def NumericOps.div (K : NumericOps N) (x y : N) : N := if y = 0 then K.divZero x else x / y

end Sys2Proof
end

