-- ==== Sys2Proof/Syntax.lean ====
section
/-! DEFINITION. The commands of the command port: one constructor of `Instr` per row of spec/opcode_table.json
(30_encoding.md R92), the same commands over any number system, the Preset record that `LOADP` carries, and the items of the command
stream. -/

namespace Sys2Proof

/-- The ten parameter fields a Preset holds for one operator (10_state.md R46). `wave` is the 3-bit code as it stands in
the payload word (30_encoding.md R91): a Preset may hold a code that is no waveform, and is then not valid (R47). -/
structure OpPreset (N : Type) where
  ratio : N
  level : N
  wave : BitVec 3
  lfoRate : N
  lfoAmount : N
  velSens : N
  attack : N
  decay : N
  sustain : N
  release : N
  deriving DecidableEq, Repr, Inhabited

/-- A Preset: `algId`, ten fields for each of the four operators, `feedback` and `fmDepth`, 43 fields in all
(10_state.md R46). -/
structure Preset (N : Type) where
  algId : Int
  op : Quad (OpPreset N)
  feedback : N
  fmDepth : N
  deriving DecidableEq, Repr, Inhabited

/-- A decoded command. Integer operands are mathematical integers once decoded (00_scope.md R9). -/
inductive Instr where
  /-- 43_note.md R145. Also what an unknown `LOCK` key and an unassigned `SETOP` selector decode to (R96, R203). -/
  | nop
  /-- 43_note.md R146. -/
  | noteon (note : Nat) (vel : Scalar)
  /-- 43_note.md R147. -/
  | noteoff
  /-- 44_render.md R155. -/
  | render (n : Nat)
  /-- 42_algorithm.md R137. -/
  | setalg (id : Int)
  /-- 42_algorithm.md R139. -/
  | morph (id : Int) (amount : Scalar)
  /-- 45_parameters.md R186. -/
  | lockAlg (v : Scalar)
  /-- 45_parameters.md R187. -/
  | lockDepth (v : Scalar)
  /-- 45_parameters.md R188. -/
  | lockFb (v : Scalar)
  /-- 45_parameters.md R189. -/
  | lockRatio (i : Nat) (v : Scalar)
  /-- 45_parameters.md R190. -/
  | lockLvl (i : Nat) (v : Scalar)
  /-- 45_parameters.md R192. -/
  | setopRatio (i : Nat) (v : Scalar)
  /-- 45_parameters.md R193. -/
  | setopLvl (i : Nat) (v : Scalar)
  /-- 45_parameters.md R194: the code stands in the header and the payload item is ignored. -/
  | setopWave (i : Nat) (wc : Nat)
  /-- 45_parameters.md R195. -/
  | setopLforate (i : Nat) (v : Scalar)
  /-- 45_parameters.md R196. -/
  | setopLfoamt (i : Nat) (v : Scalar)
  /-- 45_parameters.md R197. -/
  | setopVsens (i : Nat) (v : Scalar)
  /-- 45_parameters.md R199. -/
  | setopAtk (i : Nat) (v : Scalar)
  /-- 45_parameters.md R200. -/
  | setopDec (i : Nat) (v : Scalar)
  /-- 45_parameters.md R201. -/
  | setopSus (i : Nat) (v : Scalar)
  /-- 45_parameters.md R202. -/
  | setopRel (i : Nat) (v : Scalar)
  /-- 46_preset.md R210. -/
  | loadp (p : Preset Scalar)
  /-- 46_preset.md R213. -/
  | capp
  deriving DecidableEq, Repr

/-- The same commands with their numeric operands in any number system `N`: the decoded command of 30_encoding.md R82, the closed
identifier of 45_parameters.md R203. `Instr` is `Command Scalar` under the names of the opcode table. -/
inductive Command (N : Type) where
  | nop
  | noteon (note : Nat) (vel : N)
  | noteoff
  | render (n : Nat)
  | setalg (id : Int)
  | morph (id : Int) (amount : N)
  | lockAlg (v : N)
  | lockDepth (v : N)
  | lockFb (v : N)
  | lockRatio (i : Nat) (v : N)
  | lockLvl (i : Nat) (v : N)
  | setopRatio (i : Nat) (v : N)
  | setopLvl (i : Nat) (v : N)
  | setopWave (i : Nat) (wc : Nat)
  | setopLforate (i : Nat) (v : N)
  | setopLfoamt (i : Nat) (v : N)
  | setopVsens (i : Nat) (v : N)
  | setopAtk (i : Nat) (v : N)
  | setopDec (i : Nat) (v : N)
  | setopSus (i : Nat) (v : N)
  | setopRel (i : Nat) (v : N)
  | loadp (p : Preset N)
  | capp
  deriving DecidableEq, Repr

/-- One item of the command stream: a 32-bit integer word (a header, or the integer payload word of `LOADP`) or a
numeric word, which carries a number of the number system `N` and no bit pattern (30_encoding.md R82). -/
inductive ItemOf (N : Type) where
  | word (w : BitVec 32)
  | num (v : N)
  deriving DecidableEq, Repr

/-- An item over the machine's own numbers. -/
abbrev Item := ItemOf Scalar

end Sys2Proof
end

