-- ==== Sys2Proof/Config.lean ====
section
/-! DEFINITION. What an implementation fixes and the rules leave open: the number system (00_scope.md R6 to R8) and the
configuration record (00_scope.md R5), with exactly the constraints the spec puts on them. The machine's own configuration,
`Config.chip`, is that of one opaque constant: no value of it can be read or proved. -/

namespace Sys2Proof

section Numbers

variable {N : Type} [Zero N] [One N] [Add N] [Sub N] [Mul N] [Div N] [Neg N] [NatCast N] [IntCast N] [RatCast N]
  [LE N] [LT N] [DecidableLE N] [DecidableLT N] [DecidableEq N]

variable (N) in
/-- The number system (00_scope.md R6): its operations, and of laws exactly those of R8. No more is asked of the carrier: a finite
format is one (R7), and so is an ordered field (`Numerics.plain`). -/
structure Numerics extends NumericOps N where
  /-- R8(a). -/
  neg_one_le_sin : ∀ x, -1 ≤ sin x
  sin_le_one : ∀ x, sin x ≤ 1
  /-- R8(b), in its weaker form. -/
  neg_one_le_tanh : ∀ x, -1 ≤ tanh x
  tanh_le_one : ∀ x, tanh x ≤ 1
  tanh_zero : tanh 0 = 0
  tanh_neg : ∀ x, tanh (-x) = -tanh x
  tanh_mono : ∀ x y, x ≤ y → tanh x ≤ tanh y
  /-- R8(c). -/
  wrap_mem : ∀ x, 0 ≤ toNumericOps.wrap x ∧ toNumericOps.wrap x < 2 * pi
  /-- R8(d), for the `a <= b` of R12. -/
  clamp_mem : ∀ x a b : N, a ≤ b → a ≤ clamp x a b ∧ clamp x a b ≤ b
  /-- R8(e). -/
  exp2_zero : exp2 0 = 1

end Numbers

/-- `dec` and `enc` of a number system whose command port is bit-level, `w` the width of a numeric word (00_scope.md R6). -/
structure Wire (N : Type) (w : Nat) where
  dec : BitVec w → N
  enc : N → BitVec w
  dec_enc : ∀ x, dec (enc x) = x

/-- The law that 46_preset.md R214 adds for the bit level on a numeric word that `LOADP` accepts: the number it holds is sent as the
same word. R6 asks it of no word: two words may hold one number. -/
def Wire.Returns {N : Type} {w : Nat} (W : Wire N w) (v : BitVec w) : Prop := W.enc (W.dec v) = v

/-- One entry of the algorithm table: row index the modulating operator, column index the target (20_memory.md R61, R63). -/
structure AlgEntry (N : Type) where
  matrix : Quad (Quad N)
  mask : Quad Bool
  deriving DecidableEq, Repr, Inhabited

/-- The constraint on every table entry and on the default (20_memory.md R61): non-negative weights, at least one carrier. -/
abbrev AlgEntry.Ok {N : Type} [Zero N] [LE N] (a : AlgEntry N) : Prop :=
  (∀ m t : Fin 4, 0 ≤ (a.matrix.get m).get t) ∧ ∃ i : Fin 4, a.mask.get i = true

/-- D00's "parallel carriers": the all-zero matrix with the all-true mask (20_memory.md R61). -/
def AlgEntry.parallel {N : Type} [Zero N] : AlgEntry N := ⟨Quad.const (Quad.const 0), Quad.const true⟩

/-- Operator 3 modulates 2, 2 modulates 1, 1 modulates the carrier 0, all with weight 1: one reading of the default entry (the
fixture `ALG_DEFAULT_T` of 95_test_vectors.md). It shows that the constraints on `algDefault` can be met. -/
def AlgEntry.chain {N : Type} [Zero N] [One N] : AlgEntry N :=
  ⟨⟨⟨0, 0, 0, 0⟩, ⟨1, 0, 0, 0⟩, ⟨0, 1, 0, 0⟩, ⟨0, 0, 1, 0⟩⟩, ⟨true, false, false, false⟩⟩

/-- Operator `m` reaches operator `c` through at most `k` positive weights. -/
def AlgEntry.Feeds {N : Type} [Zero N] [LT N] (a : AlgEntry N) : Nat → Fin 4 → Fin 4 → Prop
  | 0, m, c => m = c
  | k + 1, m, c => m = c ∨ ∃ t : Fin 4, 0 < (a.matrix.get m).get t ∧ a.Feeds k t c

/-- "Three modulators feeding one carrier" (20_memory.md R62): one operator is the only carrier and each of the other three
reaches it, directly or through others. DEDUCED (log 18). -/
def AlgEntry.ThreeFeedOne {N : Type} [Zero N] [LT N] (a : AlgEntry N) : Prop :=
  ∃ c : Fin 4, (∀ i : Fin 4, a.mask.get i = true ↔ i = c) ∧ ∀ m : Fin 4, a.Feeds 3 m c

/-- The bounds of one operator's fields in a valid Preset (10_state.md R47). -/
abbrev OpPreset.Valid {N : Type} [Zero N] [One N] [LE N] (o : OpPreset N) (tMin : N) : Prop :=
  0 ≤ o.ratio ∧ (0 ≤ o.level ∧ o.level ≤ 1) ∧ o.wave ≤ 4#3 ∧ (0 ≤ o.lfoAmount ∧ o.lfoAmount ≤ 1) ∧
    tMin ≤ o.attack ∧ tMin ≤ o.decay ∧ tMin ≤ o.release ∧ (0 ≤ o.sustain ∧ o.sustain ≤ 1)

/-- When a Preset is valid (10_state.md R47). -/
abbrev Preset.Valid {N : Type} [Zero N] [One N] [LE N] (p : Preset N) (tMin : N) : Prop :=
  p.op.x0.Valid tMin ∧ p.op.x1.Valid tMin ∧ p.op.x2.Valid tMin ∧ p.op.x3.Valid tMin

/-- A silent operator with envelope times `t`. It shows that the constraint on `resetPreset` can be met. -/
def OpPreset.silent {N : Type} [Zero N] [One N] (t : N) : OpPreset N :=
  { ratio := 1, level := 0, wave := 0, lfoRate := 0, lfoAmount := 0, velSens := 1, attack := t, decay := t, sustain := 1,
    release := t }

section Witnesses

variable {N : Type} [Field N] [LinearOrder N] [IsStrictOrderedRing N]

omit [IsStrictOrderedRing N] in
theorem AlgEntry.parallel_ok : (AlgEntry.parallel : AlgEntry N).Ok :=
  ⟨fun m t => by fin_cases m <;> fin_cases t <;> exact le_refl _, 0, rfl⟩

theorem AlgEntry.chain_ok : (AlgEntry.chain : AlgEntry N).Ok :=
  ⟨fun m t => by fin_cases m <;> fin_cases t <;> first | exact le_refl _ | exact zero_le_one, 0, rfl⟩

theorem AlgEntry.chain_shape : (AlgEntry.chain : AlgEntry N).ThreeFeedOne := by
  have h : ∀ k : Fin 3, (0 : N) < ((AlgEntry.chain (N := N)).matrix.get k.succ).get k.castSucc := by
    intro k
    fin_cases k <;> exact zero_lt_one
  refine ⟨0, fun i => by fin_cases i <;> simp [AlgEntry.chain, Quad.get], fun m => ?_⟩
  fin_cases m
  · exact .inl rfl
  · exact .inr ⟨0, h 0, .inl rfl⟩
  · exact .inr ⟨1, h 1, .inr ⟨0, h 0, .inl rfl⟩⟩
  · exact .inr ⟨2, h 2, .inr ⟨1, h 1, .inr ⟨0, h 0, rfl⟩⟩⟩

theorem OpPreset.silent_valid (t : N) : (OpPreset.silent t).Valid t := by
  simp [OpPreset.silent, OpPreset.Valid]

end Witnesses

/-- The configuration of the block, fixed before reset (00_scope.md R4, R5; 70_reset_and_hazards.md R243). `NUMERICS` is the carrier
`N` with its operations and the record that this one extends. -/
structure Config (N : Type) [Zero N] [One N] [Add N] [Sub N] [Mul N] [Div N] [Neg N] [NatCast N] [IntCast N] [RatCast N]
  [LE N] [LT N] [DecidableLE N] [DecidableLT N] [DecidableEq N]
    extends Numerics N where
  /-- `FS`, the sample rate in Hz. -/
  fs : N
  fs_pos : 0 < fs
  /-- `T_MIN`, the least envelope time in seconds. -/
  tMin : N
  tMin_pos : 0 < tMin
  /-- `FM_DEPTH_MAX`. -/
  fmDepthMax : N
  fmDepthMax_nonneg : 0 ≤ fmDepthMax
  /-- `FM_FB_MAX`. -/
  fmFbMax : N
  fmFbMax_nonneg : 0 ≤ fmFbMax
  /-- `ALG_ROM`, ids 0 to 31. -/
  algRom : Fin 32 → AlgEntry N
  algRom_ok : ∀ id, (algRom id).Ok
  algRom_parallel : ∃ id, algRom id = .parallel
  /-- `ALG_DEFAULT`. -/
  algDefault : AlgEntry N
  algDefault_ok : algDefault.Ok
  algDefault_shape : algDefault.ThreeFeedOne
  /-- `RESET_PRESET`. -/
  resetPreset : Preset N
  resetPreset_valid : resetPreset.Valid tMin
  /-- `W_NUM`, the width in bits of one numeric operand word on a bit-level command port. -/
  wNum : Nat
  /-- `dec` and `enc`, "where the command port is bit-level" (R6); none where a numeric word has no bit pattern, as under `NUM_REAL`
  (30_encoding.md R82). -/
  wire : Option (Wire N wNum)
  /-- `LOCK_N_BASE`: which `n` in the string key `OPn_...` names operator index 0. Only the assembler's aliases read it. -/
  lockNBase : Nat
  lockNBase_le : lockNBase ≤ 1
  /-- `N_TRACKS`, the number of instances in the container. -/
  nTracks : Nat
  nTracks_pos : 1 ≤ nTracks
  /-- The draws of each noise input, in the order they are taken (40_waveform.md R115): a free value, bounded by [-1,1] and
  under no other law. `noise port k` is draw `k` of input `port`. -/
  noise : Nat → Nat → N
  noise_bounds : ∀ port k, -1 ≤ noise port k ∧ noise port k ≤ 1

/-! ### Ordered fields, and the machine's own configuration -/

section Ordered

variable {N : Type} [Field N] [LinearOrder N] [IsStrictOrderedRing N] [FloorRing N]

omit [IsStrictOrderedRing N] in
/-- The number system's `floor` is the greatest integer below or equal, as in `NUM_REAL` (00_scope.md R7). Its other operations with a
sign are those of the field by their type. -/
def Numerics.Exact (K : Numerics N) : Prop := ∀ x, K.floor x = ⌊x⌋

/-- R8(c) holds of every ordered field with its floor and a positive `PI`. -/
theorem NumericOps.wrap_mem_of_floor {K : NumericOps N} (hp : 0 < K.pi) (hf : ∀ x, K.floor x = ⌊x⌋) (x : N) :
    0 ≤ K.wrap x ∧ K.wrap x < 2 * K.pi := by
  have h : 0 < 2 * K.pi := mul_pos two_pos hp
  have h1 := Int.floor_le (x / (2 * K.pi))
  have h2 := Int.lt_floor_add_one (x / (2 * K.pi))
  rw [le_div_iff₀ h] at h1
  rw [div_lt_iff₀ h] at h2
  unfold NumericOps.wrap
  rw [hf]
  constructor <;> nlinarith

omit [Field N] [IsStrictOrderedRing N] [FloorRing N] in
/-- `clamp` answers a value of its interval in every linear order (00_scope.md R8 (d)). -/
theorem clamp_mem {a b : N} (h : a ≤ b) (x : N) : a ≤ clamp x a b ∧ clamp x a b ≤ b := by
  unfold clamp
  split_ifs with h1 h2
  · exact ⟨le_refl _, h⟩
  · exact ⟨h, le_refl _⟩
  · exact ⟨not_lt.mp h1, not_lt.mp h2⟩

/-- A number system over any ordered field with a floor. It shows that the laws can be met together. -/
def Numerics.plain : Numerics N where
  pi := 3
  sin := fun _ => 0
  tanh := fun _ => 0
  exp2 := fun _ => 1
  floor := Int.floor
  divZero := id
  neg_one_le_sin := by norm_num
  sin_le_one := by norm_num
  neg_one_le_tanh := by norm_num
  tanh_le_one := by norm_num
  tanh_zero := rfl
  tanh_neg := by norm_num
  tanh_mono := by norm_num
  wrap_mem := NumericOps.wrap_mem_of_floor (by norm_num) fun _ => rfl
  clamp_mem := fun x _ _ h => Sys2Proof.clamp_mem h x
  exp2_zero := rfl

/-- A configuration over any ordered field with a floor. It shows that the constraints can be met together. -/
def Config.plain : Config N where
  toNumerics := .plain
  fs := 44100
  fs_pos := by norm_num
  tMin := 1
  tMin_pos := one_pos
  fmDepthMax := 1
  fmDepthMax_nonneg := zero_le_one
  fmFbMax := 1
  fmFbMax_nonneg := zero_le_one
  algRom := fun _ => .parallel
  algRom_ok := fun _ => AlgEntry.parallel_ok
  algRom_parallel := ⟨0, rfl⟩
  algDefault := .chain
  algDefault_ok := AlgEntry.chain_ok
  algDefault_shape := AlgEntry.chain_shape
  resetPreset := { algId := 0, op := Quad.const (.silent 1), feedback := 0, fmDepth := 0 }
  resetPreset_valid :=
    ⟨OpPreset.silent_valid _, OpPreset.silent_valid _, OpPreset.silent_valid _, OpPreset.silent_valid _⟩
  wNum := 64
  wire := none
  lockNBase := 0
  lockNBase_le := by norm_num
  nTracks := 1
  nTracks_pos := le_refl _
  noise := fun _ _ => 0
  noise_bounds := by norm_num

end Ordered

/-- A configuration over the machine's own numbers, whose floor is theirs. The default value only shows that there is one. -/
structure Chip where
  config : Config Scalar := .plain
  exact : config.Exact := by exact fun _ => rfl
  deriving Inhabited

/-- The machine's own configuration: no value of it can be read or proved. -/
opaque Chip.chosen : Chip

/-- The machine's own configuration as the datapath reads it. -/
def Config.chip : Config Scalar := Chip.chosen.config

/-- What is known of it beside its constraints: the floor is that of its numbers. -/
theorem Config.chip_exact : Config.chip.Exact := Chip.chosen.exact

end Sys2Proof
end

