-- ==== Sys2Proof/Machine/Operands.lean ====
section
/-! DEFINITION. Every operand form: how each command clamps or maps its numeric operand (30_encoding.md R93), and the note
frequency. -/

namespace Sys2Proof.Machine

open Sys2Proof

variable {N : Type} [Zero N] [One N] [Add N] [Sub N] [Mul N] [Div N] [Neg N] [NatCast N] [IntCast N] [RatCast N]
  [LE N] [LT N] [DecidableLE N] [DecidableLT N] [DecidableEq N]

/-- `LOCK.ALG`: [0,1] onto the integers 0 to 31, rounded half up (45_parameters.md R182, R186). -/
def lockAlgId (K : Numerics N) (v : N) : Int := K.rhu (clamp01 v * 31)

/-- `LOCK.DEPTH` (45_parameters.md R187). -/
def lockDepthValue (C : Config N) (v : N) : N := clamp01 v * C.fmDepthMax

/-- `LOCK.FB` (45_parameters.md R188). -/
def lockFbValue (C : Config N) (v : N) : N := clamp01 v * C.fmFbMax

/-- `LOCK.RATIO`: [0,1] onto 0 to `RATIO_LOCK_MAX` = 8 (45_parameters.md R189). -/
def lockRatioValue (v : N) : N := clamp01 v * 8

/-- `LOCK.LVL` (45_parameters.md R190). -/
def lockLvlValue (v : N) : N := clamp01 v

/-- `SETOP.RATIO`: `max(v, 0)` (45_parameters.md R192). -/
def setRatioValue (v : N) : N := atLeast 0 v

/-- `SETOP.LVL`, `SETOP.LFOAMT`, `SETOP.SUS`: `clamp01(v)` (45_parameters.md R193, R196, R201). -/
def setUnitValue (v : N) : N := clamp01 v

/-- `SETOP.ATK`, `SETOP.DEC`, `SETOP.REL`: `max(v, T_MIN)` (45_parameters.md R198). -/
def setTimeValue (C : Config N) (v : N) : N := atLeast C.tMin v

/-- `freq(note) = 440 * 2^((note - 69) / 12)` (43_note.md R146, R148). -/
def noteFreq (K : Numerics N) (note : Nat) : N := 440 * K.exp2 ((((note : ℤ) - 69 : ℤ) : N) / 12)

end Sys2Proof.Machine
end

