-- ==== Sys2Proof/WellFormed.lean ====
section
/-! DEFINITION. Which commands an encoding can carry: each integer operand fits its field (30_encoding.md R86 to R91). -/

namespace Sys2Proof

/-- A value that a sign-extended 16-bit field can hold (30_encoding.md R88, R91). -/
def fitsSigned16 (id : Int) : Bool := decide (-32768 ≤ id) && decide (id ≤ 32767)

/-- A value that an unsigned 8-bit field can hold (30_encoding.md R89, R90). -/
def fitsByte (i : Nat) : Bool := decide (i ≤ 255)

/-- Every integer operand is in the range of its header field. Numeric operands are unconstrained: each command clamps or
maps its own (30_encoding.md R93). A Preset's validity (10_state.md R47) is not a matter of encoding; `execLoadp` checks it. -/
def WellFormed : Instr → Bool
  | .nop => true
  | .noteon note _ => decide (note ≤ 127)
  | .noteoff => true
  | .render n => decide (n ≤ 16777215)
  | .setalg id => fitsSigned16 id
  | .morph id _ => fitsSigned16 id
  | .lockAlg _ => true
  | .lockDepth _ => true
  | .lockFb _ => true
  | .lockRatio i _ => fitsByte i
  | .lockLvl i _ => fitsByte i
  | .setopRatio i _ => fitsByte i
  | .setopLvl i _ => fitsByte i
  | .setopWave i wc => fitsByte i && fitsByte wc
  | .setopLforate i _ => fitsByte i
  | .setopLfoamt i _ => fitsByte i
  | .setopVsens i _ => fitsByte i
  | .setopAtk i _ => fitsByte i
  | .setopDec i _ => fitsByte i
  | .setopSus i _ => fitsByte i
  | .setopRel i _ => fitsByte i
  | .loadp p => fitsSigned16 p.algId
  | .capp => true

end Sys2Proof
end

