-- ==== Sys2Proof/Decode.lean ====
section
/-! DEFINITION. The decoder of the command stream, total on every list of items and rejecting by name, and the encoder, both
written from 30_encoding.md; the decoder once for every number system. -/

namespace Sys2Proof

/-- Why no command can be read from the items at hand. -/
inductive DecodeError where
  /-- The items are a proper prefix of a command, or there are none: the port waits for more (10_state.md R40, log 4). -/
  | incomplete
  /-- The header's opcode is not in the length table (30_encoding.md R84, R94; 93_implementation_defined.md U1). -/
  | reserved (opc : BitVec 8)
  /-- A numeric word stands where an integer word belongs, or the other way round (30_encoding.md R82, log 6). -/
  | itemKind
  deriving DecidableEq, Repr

/-! ### Fields of a header word -/

/-- `H[hi:lo]` as an unsigned integer (00_scope.md R9). -/
def bits (h : BitVec 32) (hi lo : Nat) : Nat := h.toNat / 2 ^ lo % 2 ^ (hi + 1 - lo)

/-- A 16-bit field read as a two's-complement integer (00_scope.md R9, 30_encoding.md R88). -/
def sext16 (v : Nat) : Int := if v < 32768 then (v : Int) else (v : Int) - 65536

/-- The 16 bits that a signed 16-bit field holds for `id`. -/
def unsext16 (id : Int) : Nat := (id % 65536).toNat

/-- `opc = H[31:24]` (30_encoding.md R83). -/
def opcode (h : BitVec 32) : Nat := bits h 31 24

/-- Command length in items, a function of the opcode alone (30_encoding.md R84). -/
def commandLength (opc : Nat) : Nat :=
  match opc with
  | 0x01 | 0x11 | 0x20 | 0x30 => 2
  | 0x40 => 40
  | _ => 1

variable {N : Type}

/-! ### The lock key space and the operator register space -/

/-- The lock target a key code names (20_memory.md R65). An unknown key is the no-op of 30_encoding.md R96. -/
def lockCommand (key i : Nat) (v : N) : Command N :=
  match key with
  | 0x00 => .lockAlg v
  | 0x01 => .lockDepth v
  | 0x02 => .lockFb v
  | 0x10 => .lockRatio i v
  | 0x11 => .lockLvl i v
  | _ => .nop

/-- The operator register a selector names (20_memory.md R64). An unassigned selector is the no-op of 30_encoding.md R96. -/
def setopCommand (sel i wc : Nat) (v : N) : Command N :=
  match sel with
  | 0x00 => .setopRatio i v
  | 0x01 => .setopLvl i v
  | 0x02 => .setopWave i wc
  | 0x03 => .setopLforate i v
  | 0x04 => .setopLfoamt i v
  | 0x05 => .setopVsens i v
  | 0x08 => .setopAtk i v
  | 0x09 => .setopDec i v
  | 0x0A => .setopSus i v
  | 0x0B => .setopRel i v
  | _ => .nop

/-! ### Payload items -/

/-- Reads one numeric payload item and hands it on (30_encoding.md R82, R93). -/
def takeNum {α : Type} (xs : List (ItemOf N)) (k : N → List (ItemOf N) → Except DecodeError α) : Except DecodeError α :=
  match xs with
  | [] => .error .incomplete
  | .word _ :: _ => .error .itemKind
  | .num v :: r => k v r

/-- Reads one integer payload item and hands it on (30_encoding.md R82, R91). -/
def takeWord {α : Type} (xs : List (ItemOf N)) (k : BitVec 32 → List (ItemOf N) → Except DecodeError α) : Except DecodeError α :=
  match xs with
  | [] => .error .incomplete
  | .num _ :: _ => .error .itemKind
  | .word w :: r => k w r

/-- Reads the nine numeric items of one operator, in the order of 30_encoding.md R91; its waveform code comes from `PW`. -/
def takeOp {α : Type} (wave : Nat) (xs : List (ItemOf N))
    (k : OpPreset N → List (ItemOf N) → Except DecodeError α) :
    Except DecodeError α :=
  takeNum xs fun ratio r => takeNum r fun level r => takeNum r fun lfoRate r => takeNum r fun lfoAmount r =>
  takeNum r fun velSens r => takeNum r fun attack r => takeNum r fun decay r => takeNum r fun sustain r =>
  takeNum r fun release r =>
    k { ratio, level, wave := BitVec.ofNat 3 wave, lfoRate, lfoAmount, velSens, attack, decay, sustain, release } r

/-- Reads the 39 payload items of format P (30_encoding.md R91). The reserved bits of `PW` are ignored (R95). -/
def takePreset (xs : List (ItemOf N)) : Except DecodeError (Command N × List (ItemOf N)) :=
  takeWord xs fun pw r =>
  takeOp (bits pw 18 16) r fun o0 r => takeOp (bits pw 22 20) r fun o1 r =>
  takeOp (bits pw 26 24) r fun o2 r => takeOp (bits pw 30 28) r fun o3 r =>
  takeNum r fun feedback r => takeNum r fun fmDepth r =>
    .ok (.loadp { algId := sext16 (bits pw 15 0), op := ⟨o0, o1, o2, o3⟩, feedback, fmDepth }, r)

/-! ### The decoder -/

/-- Reads one command whose header is `h` and whose payload begins `r` (30_encoding.md R83 to R96). -/
def decodeHeader (h : BitVec 32) (r : List (ItemOf N)) : Except DecodeError (Command N × List (ItemOf N)) :=
  match opcode h with
  | 0x00 => .ok (.nop, r)
  | 0x01 => takeNum r fun vel r => .ok (.noteon (bits h 22 16) vel, r)
  | 0x02 => .ok (.noteoff, r)
  | 0x03 => .ok (.render (bits h 23 0), r)
  | 0x10 => .ok (.setalg (sext16 (bits h 15 0)), r)
  | 0x11 => takeNum r fun amount r => .ok (.morph (sext16 (bits h 15 0)) amount, r)
  | 0x20 => takeNum r fun v r => .ok (lockCommand (bits h 15 8) (bits h 23 16) v, r)
  | 0x30 => takeNum r fun v r => .ok (setopCommand (bits h 15 8) (bits h 23 16) (bits h 7 0) v, r)
  | 0x40 => takePreset r
  | 0x41 => .ok (.capp, r)
  | opc => .error (.reserved (BitVec.ofNat 8 opc))

/-- The command of the opcode table that a decoded command over the machine's own numbers is. -/
def Command.instr : Command Scalar → Instr
  | .nop => .nop
  | .noteon note vel => .noteon note vel
  | .noteoff => .noteoff
  | .render n => .render n
  | .setalg id => .setalg id
  | .morph id amount => .morph id amount
  | .lockAlg v => .lockAlg v
  | .lockDepth v => .lockDepth v
  | .lockFb v => .lockFb v
  | .lockRatio i v => .lockRatio i v
  | .lockLvl i v => .lockLvl i v
  | .setopRatio i v => .setopRatio i v
  | .setopLvl i v => .setopLvl i v
  | .setopWave i wc => .setopWave i wc
  | .setopLforate i v => .setopLforate i v
  | .setopLfoamt i v => .setopLfoamt i v
  | .setopVsens i v => .setopVsens i v
  | .setopAtk i v => .setopAtk i v
  | .setopDec i v => .setopDec i v
  | .setopSus i v => .setopSus i v
  | .setopRel i v => .setopRel i v
  | .loadp p => .loadp p
  | .capp => .capp

/-- Reads the first command of a stream and the items after it, over any number system. -/
def decodeCommand (xs : List (ItemOf N)) : Except DecodeError (Command N × List (ItemOf N)) :=
  takeWord xs decodeHeader

/-- Reads the first instruction of a stream of the machine's own and the items after it. -/
def decode (xs : List Item) : Except DecodeError (Instr × List Item) :=
  match decodeCommand xs with
  | .ok (c, r) => .ok (c.instr, r)
  | .error e => .error e

/-- Command `k` of a stream of items, counted from 0, the `prog[k]` of 10_state.md R40, which 30_encoding.md R82 relates to the items;
or why none can be read there, the reason of the first place at which none can. -/
def commandAt : Nat → List (ItemOf N) → Except DecodeError (Command N)
  | 0, xs =>
    match decodeCommand xs with
    | .ok (c, _) => .ok c
    | .error r => .error r
  | k + 1, xs =>
    match decodeCommand xs with
    | .ok (_, rest) => commandAt k rest
    | .error r => .error r

/-! ### The encoder -/

/-- A header word: the opcode byte and the 24 bits of the format (30_encoding.md R83). Reserved bits are 0. -/
def header (opc fields : Nat) : Item := .word (BitVec.ofNat 32 (opc * 2 ^ 24 + fields))

/-- The header and payload item of formats L and S (30_encoding.md R89, R90). -/
def selected (opc i code low : Nat) (v : Scalar) : List Item :=
  [header opc (i * 2 ^ 16 + code * 2 ^ 8 + low), .num v]

/-- The integer payload word `PW` of a Preset (30_encoding.md R91). -/
def presetWord (p : Preset N) : BitVec 32 :=
  BitVec.ofNat 32 (unsext16 p.algId + p.op.x0.wave.toNat * 2 ^ 16 + p.op.x1.wave.toNat * 2 ^ 20
    + p.op.x2.wave.toNat * 2 ^ 24 + p.op.x3.wave.toNat * 2 ^ 28)

/-- The nine numeric items of one operator (30_encoding.md R91). -/
def opItems (o : OpPreset N) : List (ItemOf N) :=
  [.num o.ratio, .num o.level, .num o.lfoRate, .num o.lfoAmount, .num o.velSens, .num o.attack, .num o.decay,
    .num o.sustain, .num o.release]

/-- The 39 items of a Preset, the payload of `LOADP` and the body of a `PresetOut` event (30_encoding.md R81, R91). -/
def presetItems (p : Preset N) : List (ItemOf N) :=
  .word (presetWord p) ::
    (opItems p.op.x0 ++ opItems p.op.x1 ++ opItems p.op.x2 ++ opItems p.op.x3 ++ [.num p.feedback, .num p.fmDepth])

/-- The items of a command, reserved bits 0 (30_encoding.md R84 to R92). The payload item that `SETOP.WAVE` ignores is 0. -/
def encode : Instr → List Item
  | .nop => [header 0x00 0]
  | .noteon note vel => [header 0x01 (note * 2 ^ 16), .num vel]
  | .noteoff => [header 0x02 0]
  | .render n => [header 0x03 n]
  | .setalg id => [header 0x10 (unsext16 id)]
  | .morph id amount => [header 0x11 (unsext16 id), .num amount]
  | .lockAlg v => selected 0x20 0 0x00 0 v
  | .lockDepth v => selected 0x20 0 0x01 0 v
  | .lockFb v => selected 0x20 0 0x02 0 v
  | .lockRatio i v => selected 0x20 i 0x10 0 v
  | .lockLvl i v => selected 0x20 i 0x11 0 v
  | .setopRatio i v => selected 0x30 i 0x00 0 v
  | .setopLvl i v => selected 0x30 i 0x01 0 v
  | .setopWave i wc => selected 0x30 i 0x02 wc 0
  | .setopLforate i v => selected 0x30 i 0x03 0 v
  | .setopLfoamt i v => selected 0x30 i 0x04 0 v
  | .setopVsens i v => selected 0x30 i 0x05 0 v
  | .setopAtk i v => selected 0x30 i 0x08 0 v
  | .setopDec i v => selected 0x30 i 0x09 0 v
  | .setopSus i v => selected 0x30 i 0x0A 0 v
  | .setopRel i v => selected 0x30 i 0x0B 0 v
  | .loadp p => header 0x40 0 :: presetItems p
  | .capp => [header 0x41 0]

/-! ### The opcode map -/

/-- The mnemonic of 30_encoding.md R92, as spec/opcode_table.json spells it. -/
def mnemonic : Instr → String
  | .nop => "NOP"
  | .noteon _ _ => "NOTEON"
  | .noteoff => "NOTEOFF"
  | .render _ => "RENDER"
  | .setalg _ => "SETALG"
  | .morph _ _ => "MORPH"
  | .lockAlg _ => "LOCK.ALG"
  | .lockDepth _ => "LOCK.DEPTH"
  | .lockFb _ => "LOCK.FB"
  | .lockRatio _ _ => "LOCK.RATIO"
  | .lockLvl _ _ => "LOCK.LVL"
  | .setopRatio _ _ => "SETOP.RATIO"
  | .setopLvl _ _ => "SETOP.LVL"
  | .setopWave _ _ => "SETOP.WAVE"
  | .setopLforate _ _ => "SETOP.LFORATE"
  | .setopLfoamt _ _ => "SETOP.LFOAMT"
  | .setopVsens _ _ => "SETOP.VSENS"
  | .setopAtk _ _ => "SETOP.ATK"
  | .setopDec _ _ => "SETOP.DEC"
  | .setopSus _ _ => "SETOP.SUS"
  | .setopRel _ _ => "SETOP.REL"
  | .loadp _ => "LOADP"
  | .capp => "CAPP"

/-- One row of the opcode map: a header `H` selects it when `H & mask = pattern` (30_encoding.md R92). -/
structure OpcodeRow where
  mnemonic : String
  pattern : BitVec 32
  mask : BitVec 32
  deriving DecidableEq, Repr

/-- The opcode map of 30_encoding.md R92. -/
def opcodeRows : List OpcodeRow :=
  [ ⟨"NOP", 0x00000000, 0xFF000000⟩, ⟨"NOTEON", 0x01000000, 0xFF000000⟩, ⟨"NOTEOFF", 0x02000000, 0xFF000000⟩,
    ⟨"RENDER", 0x03000000, 0xFF000000⟩, ⟨"SETALG", 0x10000000, 0xFF000000⟩, ⟨"MORPH", 0x11000000, 0xFF000000⟩ ] ++
  [ ⟨"LOCK.ALG", 0x20000000, 0xFF00FF00⟩, ⟨"LOCK.DEPTH", 0x20000100, 0xFF00FF00⟩, ⟨"LOCK.FB", 0x20000200, 0xFF00FF00⟩,
    ⟨"LOCK.RATIO", 0x20001000, 0xFF00FF00⟩, ⟨"LOCK.LVL", 0x20001100, 0xFF00FF00⟩ ] ++
  [ ⟨"SETOP.RATIO", 0x30000000, 0xFF00FF00⟩, ⟨"SETOP.LVL", 0x30000100, 0xFF00FF00⟩,
    ⟨"SETOP.WAVE", 0x30000200, 0xFF00FF00⟩, ⟨"SETOP.LFORATE", 0x30000300, 0xFF00FF00⟩,
    ⟨"SETOP.LFOAMT", 0x30000400, 0xFF00FF00⟩, ⟨"SETOP.VSENS", 0x30000500, 0xFF00FF00⟩ ] ++
  [ ⟨"SETOP.ATK", 0x30000800, 0xFF00FF00⟩, ⟨"SETOP.DEC", 0x30000900, 0xFF00FF00⟩, ⟨"SETOP.SUS", 0x30000A00, 0xFF00FF00⟩,
    ⟨"SETOP.REL", 0x30000B00, 0xFF00FF00⟩, ⟨"LOADP", 0x40000000, 0xFF000000⟩, ⟨"CAPP", 0x41000000, 0xFF000000⟩ ]

/-! ### The table's bit numbering -/

/-- The items of the instruction whose bits are `w`, of which the table gives `nbits`: bits 31..0 are the header, bits 63..32
the integer payload word of `LOADP`, every higher bit is 0, and a numeric word of zero bits carries the number 0 (log 11). -/
def tableItems (nbits w : Nat) : List Item :=
  let v := w % 2 ^ nbits
  .word (BitVec.ofNat 32 v) ::
    match v / 2 ^ 24 % 256 with
    | 0x01 | 0x11 | 0x20 | 0x30 => [.num 0]
    | 0x40 => .word (BitVec.ofNat 32 (v / 2 ^ 32)) :: List.replicate 38 (.num 0)
    | _ => []

/-- The instruction the decoder reads from an instruction whose bits are `w`, numbered as spec/opcode_table.json numbers
them; none where the decoder refuses. -/
def decodeTableWord (nbits w : Nat) : Option Instr :=
  match decode (tableItems nbits w) with
  | .ok (i, _) => some i
  | .error _ => none

end Sys2Proof
end

