-- ==== Sys2Proof/Machine/Engine.lean ====
section
/-! DEFINITION. The registers of one engine instance (10_state.md R20 to R42), over any number type, and the codes of its two
closed sets. -/

namespace Sys2Proof.Machine

open Sys2Proof

/-- The waveform selector (10_state.md R23). -/
inductive Wave where
  | sine
  | saw
  | square
  | triangle
  | noise
  deriving DecidableEq, Repr, Inhabited

/-- The envelope state (10_state.md R31). -/
inductive EnvState where
  | idle
  | attack
  | decay
  | sustain
  | release
  deriving DecidableEq, Repr, Inhabited

/-- One operator's envelope registers (10_state.md R29 to R32). -/
structure Env (N : Type) where
  attack : N
  decay : N
  sustain : N
  release : N
  state : EnvState
  level : N
  deriving DecidableEq, Repr, Inhabited

/-- One operator register bank (10_state.md R21 to R32). -/
structure OpBank (N : Type) where
  ratio : N
  level : N
  wave : Wave
  phase : N
  lfoPhase : N
  lfoRate : N
  lfoAmount : N
  velSens : N
  env : Env N
  deriving DecidableEq, Repr, Inhabited

/-- An output event (30_encoding.md R81). -/
inductive Event (N : Type) where
  | sample (y : N)
  | presetOut (p : Preset N)
  deriving DecidableEq, Repr

/-- All the state of one engine instance (10_state.md R20). -/
structure Engine (N : Type) where
  /-- The four operator banks (R21 to R32). -/
  op : Quad (OpBank N)
  /-- R33. -/
  algId : Int
  /-- R34: `(matrix.get m).get t`, row `m` the modulating operator, column `t` the target. -/
  matrix : Quad (Quad N)
  /-- R35. -/
  mask : Quad Bool
  /-- R36. -/
  f0 : N
  /-- R37. -/
  fbReg : N
  /-- R38. -/
  feedback : N
  /-- R38. -/
  fmDepth : N
  /-- R39. -/
  isNoteOn : Bool
  /-- R39. -/
  curNote : Nat
  /-- R39. -/
  curVel : N
  /-- R41. -/
  prevOut : Quad N
  /-- R40: the index of the command being executed or next to execute. -/
  pc : Nat
  /-- R40: the frames still to render of the current `RENDER`. -/
  fr : Nat
  /-- R42: the events emitted so far, oldest first. -/
  outs : List (Event N)
  deriving DecidableEq, Repr

/-- The code of a waveform (10_state.md R23). -/
def Wave.code : Wave → Nat
  | .sine => 0
  | .saw => 1
  | .square => 2
  | .triangle => 3
  | .noise => 4

/-- The waveform of a code; codes above 4 are no waveforms (10_state.md R23). -/
def Wave.ofCode (c : Nat) : Option Wave :=
  match c with
  | 0 => some .sine
  | 1 => some .saw
  | 2 => some .square
  | 3 => some .triangle
  | 4 => some .noise
  | _ => none

/-- The code of an envelope state (10_state.md R31). -/
def EnvState.code : EnvState → Nat
  | .idle => 0
  | .attack => 1
  | .decay => 2
  | .sustain => 3
  | .release => 4

end Sys2Proof.Machine
end

