-- ==== Sys2Proof/Machine/Rom.lean ====
section
/-! DEFINITION. The algorithm ROM, its selection, and the copying of Presets into and out of the registers. -/

namespace Sys2Proof.Machine

open Sys2Proof

variable {N : Type} [Zero N] [One N] [Add N] [Sub N] [Mul N] [Div N] [Neg N] [NatCast N] [IntCast N] [RatCast N]
  [LE N] [LT N] [DecidableLE N] [DecidableLT N] [DecidableEq N]

/-- `MemRead(ALG, id)` (20_memory.md R62). -/
def memReadAlg (C : Config N) (id : Int) : AlgEntry N :=
  if h : 0 ≤ id ∧ id ≤ 31 then C.algRom ⟨id.toNat, by omega⟩ else C.algDefault

/-- Selects algorithm `id`: `matrix` and `mask` are copied from the ROM and `algId` holds the id as given (42_algorithm.md
R137, 10_state.md R33). Shared by `SETALG`, `LOCK.ALG`, `LOADP` and reset. -/
def Engine.selectAlg (C : Config N) (id : Int) (e : Engine N) : Engine N :=
  { e with matrix := (memReadAlg C id).matrix, mask := (memReadAlg C id).mask, algId := id }

/-- One operator's part of `LOADP`: the ten parameter registers, nothing dynamic (46_preset.md R210, R211). Every code of a
valid Preset is a waveform; for any other code the register would keep its value, but no command loads such a Preset. -/
def OpBank.load (o : OpPreset N) (b : OpBank N) : OpBank N :=
  { b with
    ratio := o.ratio
    level := o.level
    wave := (Wave.ofCode o.wave.toNat).getD b.wave
    lfoRate := o.lfoRate
    lfoAmount := o.lfoAmount
    velSens := o.velSens
    env := { b.env with attack := o.attack, decay := o.decay, sustain := o.sustain, release := o.release } }

/-- Loads a Preset: `algId`, `matrix`, `mask`, the forty operator parameters and the two globals, all at once
(46_preset.md R210). Shared by `LOADP` and reset. -/
def Engine.loadPreset (C : Config N) (p : Preset N) (e : Engine N) : Engine N :=
  { e.selectAlg C p.algId with
    op := Quad.ofFn fun i => (e.op.get i).load (p.op.get i)
    feedback := p.feedback
    fmDepth := p.fmDepth }

/-- One operator's part of `CAPP` (46_preset.md R213). -/
def OpBank.capture (b : OpBank N) : OpPreset N :=
  { ratio := b.ratio
    level := b.level
    wave := BitVec.ofNat 3 b.wave.code
    lfoRate := b.lfoRate
    lfoAmount := b.lfoAmount
    velSens := b.velSens
    attack := b.env.attack
    decay := b.env.decay
    sustain := b.env.sustain
    release := b.env.release }

/-- The Preset that `CAPP` reads out of the registers (46_preset.md R213). -/
def Engine.capture (e : Engine N) : Preset N :=
  { algId := e.algId, op := e.op.map OpBank.capture, feedback := e.feedback, fmDepth := e.fmDepth }

end Sys2Proof.Machine
end

