-- ==== Sys2Proof/Machine/State.lean ====
section
/-! DEFINITION. The machine's state, its reset value, and the reasons a step can stop. -/

namespace Sys2Proof.Machine

open Sys2Proof

/-- The state of the machine: one engine instance, all plain data. -/
structure State where
  /-- The registers of the instance, everything 10_state.md R20 lists. -/
  eng : Engine Scalar
  /-- The items on the command port that no command has taken yet (30_encoding.md R80, R82). The spec makes the command stream a
  parameter of the machine (10_state.md R40); a machine whose step reads the state alone holds it here (log 3). -/
  cmdIn : List Item
  /-- The model's own: the noise input this instance is wired to (30_encoding.md R80, 60_exceptions.md R232; log 8). -/
  noisePort : Nat
  /-- The model's own: how many draws have been taken from that input, the counter of a free value (40_waveform.md R115; log 8). -/
  noiseIdx : Nat
  deriving DecidableEq, Repr

/-- The block raises no exception, trap or fault of any kind (60_exceptions.md R220): there is no reason to fault, and no step
answers one. -/
inductive Fault where
  deriving DecidableEq, Repr

/-- Why the model gives a step no meaning. -/
inductive Refusal where
  /-- Raised by an arm of `exec` whose instruction has no meaning yet. Safe. No arm raises it now. -/
  | notModelled (mnemonic : String)
  /-- Raised by `step`, `Engine.itemStep` and `Engine.wireStep` on a header whose opcode is not in the length table: "a model should
  refuse such a stream" (30_encoding.md R94, 93_implementation_defined.md U1; log 5). Safe: the hardware goes on. -/
  | reservedOpcode (opc : BitVec 8)
  /-- Raised by `step`, `Engine.itemStep` and `Engine.wireStep` where a numeric word stands in the place of an integer word or the
  other way round: such a list of items is no command stream (30_encoding.md R82; DESIGN CHOICE, log 6). Safe. -/
  | itemKind
  /-- Raised by `execLoadp` and `Engine.perform` on a Preset that is not valid: "a model should refuse a LOADP whose operand is invalid" (46_preset.md
  R212, 93_implementation_defined.md U3; log 7). Safe: the hardware goes on. -/
  | invalidPreset
  deriving DecidableEq, Repr

section Reset

variable {N : Type} [Zero N] [One N] [Add N] [Sub N] [Mul N] [Div N] [Neg N] [NatCast N] [IntCast N] [RatCast N]
  [LE N] [LT N] [DecidableLE N] [DecidableLT N] [DecidableEq N]

/-- An operator bank before its parameters are loaded: the dynamic rows of 10_state.md R49. The parameter fields stand for
nothing; reset overwrites each of them. -/
def OpBank.blank : OpBank N :=
  { ratio := 0, level := 0, wave := .sine, phase := 0, lfoPhase := 0, lfoRate := 0, lfoAmount := 0, velSens := 0
    env := { attack := 0, decay := 0, sustain := 0, release := 0, state := .idle, level := 0 } }

/-- The registers right after reset (10_state.md R49, 70_reset_and_hazards.md R240): dynamic registers zero and idle, parameter
registers the fields of `RESET_PRESET`, `matrix` and `mask` those of its algorithm. -/
def Engine.reset (C : Config N) : Engine N :=
  Engine.loadPreset C C.resetPreset
    { op := Quad.const OpBank.blank
      algId := 0
      matrix := Quad.const (Quad.const 0)
      mask := Quad.const false
      f0 := 0
      fbReg := 0
      feedback := 0
      fmDepth := 0
      isNoteOn := false
      curNote := 0
      curVel := 0
      prevOut := Quad.const 0
      pc := 0
      fr := 0
      outs := [] }

end Reset

/-- The machine right after reset (10_state.md R49), with nothing on the command port. -/
def State.reset : State :=
  { eng := Engine.reset Config.chip, cmdIn := [], noisePort := 0, noiseIdx := 0 }

end Sys2Proof.Machine
end

