-- ==== Sys2Proof/Machine/Ops.lean ====
section
/-! DEFINITION. The operations the commands share: completing a command, writing an operator register, emitting an event,
fetching a command from the port, and what the outside world can do. There is no exception to take and none to return from
(60_exceptions.md R220, R225), and no byte-addressed memory (20_memory.md R60, R66). -/

namespace Sys2Proof.Machine

open Sys2Proof

variable {N : Type}

/-- The program counter advances by one command (10_state.md R40). -/
def Engine.retire (e : Engine N) : Engine N := { e with pc := e.pc + 1 }

/-- Completes a command: the registers become `e` and the program counter advances by one command (10_state.md R40). -/
def State.retire (s : State) (e : Engine Scalar) : Host.Outcome State Fault Refusal := .next { s with eng := e.retire }

/-- What a command does to the registers, as an outcome of the machine. -/
def State.withEngine (s : State) : Host.Outcome (Engine Scalar) Fault Refusal → Host.Outcome State Fault Refusal
  | .next e => .next { s with eng := e }
  | .fault r => .fault r
  | .refused r => .refused r

/-- `MemWrite(OPREG, i, sel, v)` with the register and the value it gets as a function of the bank: an index above 3 writes
nothing (20_memory.md R64, R67; 30_encoding.md R96). -/
def Engine.writeOp (i : Nat) (f : OpBank N → OpBank N) (e : Engine N) : Engine N :=
  if h : i < 4 then { e with op := e.op.update ⟨i, h⟩ f } else e

/-- Applies `f` to the envelope of all four operators (43_note.md R146, R147). -/
def Engine.mapEnv (f : Env N → Env N) (e : Engine N) : Engine N :=
  { e with op := e.op.map fun b => { b with env := f b.env } }

/-- Appends an event to the output stream (00_scope.md R11, 10_state.md R42). -/
def Engine.emit (ev : Event N) (e : Engine N) : Engine N := { e with outs := e.outs ++ [ev] }

/-- Takes the next command off the port (10_state.md R40, 30_encoding.md R82). -/
def State.fetch (s : State) : Except DecodeError (Instr × State) :=
  match decode s.cmdIn with
  | .ok (i, rest) => .ok (i, { s with cmdIn := rest })
  | .error r => .error r

/-- What a step does where no command can be read, in any number system. With no command, or a part of one, on the port the state is
held as it is (10_state.md R40, 60_exceptions.md R234; DEDUCED, log 4). A stream that is none of this block's is refused: one with a
reserved opcode, as 30_encoding.md R94 and U1 advise (DESIGN CHOICE, log 5), and one with an item of the wrong kind, on which the
spec is silent (DESIGN CHOICE, log 6). -/
def Engine.noCommand (e : Engine N) : DecodeError → Host.Outcome (Engine N) Fault Refusal
  | .incomplete => .next e
  | .reserved opc => .refused (.reservedOpcode opc)
  | .itemKind => .refused .itemKind

/-- What a step of the machine does where no command can be read. -/
def State.noCommand (s : State) (r : DecodeError) : Host.Outcome State Fault Refusal := s.withEngine (s.eng.noCommand r)

/-! ### What the outside world can do -/

/-- The host puts items on the command port, behind those that wait (30_encoding.md R80). -/
def State.send (items : List Item) (s : State) : State := { s with cmdIn := s.cmdIn ++ items }

/-- The host asserts `rst` (70_reset_and_hazards.md R240): every register takes its reset value. What waits on the port and the
position in the noise input belong to the outside and stay (DEDUCED, log 12). -/
def State.assertRst (s : State) : State := { s with eng := Engine.reset Config.chip }

end Sys2Proof.Machine
end

