-- ==== Sys2Proof/Machine/Algorithm.lean ====
section
/-! DEFINITION. `SETALG` and `MORPH` (42_algorithm.md). -/

namespace Sys2Proof.Machine

open Sys2Proof

variable {N : Type} [Zero N] [One N] [Add N] [Sub N] [Mul N] [Div N] [Neg N] [NatCast N] [IntCast N] [RatCast N]
  [LE N] [LT N] [DecidableLE N] [DecidableLT N] [DecidableEq N]

/-- One cell of a morph: `current + (target - current) * a`, in the order written (42_algorithm.md R139). -/
def morphCell (cur target a : N) : N := cur + (target - cur) * a

/-- What `MORPH` does to the registers but for `pc`: every cell moves towards algorithm `id`'s; `mask` and `algId` stay
(42_algorithm.md R139). -/
def Engine.morph (C : Config N) (id : Int) (amount : N) (e : Engine N) : Engine N :=
  { e with
    matrix := Quad.ofFn fun m => Quad.ofFn fun t =>
      morphCell ((e.matrix.get m).get t) (((memReadAlg C id).matrix.get m).get t) (clamp01 amount) }

/-- `SETALG id` (42_algorithm.md R137). -/
def execSetalg (id : Int) (s : State) : Host.Outcome State Fault Refusal := s.retire (s.eng.selectAlg Config.chip id)

/-- `MORPH id, amount` (42_algorithm.md R139). -/
def execMorph (id : Int) (amount : Scalar) (s : State) : Host.Outcome State Fault Refusal :=
  s.retire (s.eng.morph Config.chip id amount)

end Sys2Proof.Machine
end

