-- ==== Sys2Proof/Machine/Envelope.lean ====
section
/-! DEFINITION. The operator envelope state machine (41_envelope.md). -/

namespace Sys2Proof.Machine

open Sys2Proof

/-- `ENV.noteOn`: the state goes to attack and the level is kept (41_envelope.md R120). -/
def Env.noteOn {N : Type} (e : Env N) : Env N := { e with state := .attack }

/-- `ENV.noteOff`: the state goes to release whatever it was, and the level is kept (41_envelope.md R121). -/
def Env.noteOff {N : Type} (e : Env N) : Env N := { e with state := .release }

variable {N : Type} [Zero N] [One N] [Add N] [Sub N] [Mul N] [Div N] [Neg N] [NatCast N] [IntCast N] [RatCast N]
  [LE N] [LT N] [DecidableLE N] [DecidableLT N] [DecidableEq N]

/-- The attack rule (41_envelope.md R123). -/
def Env.attackRule (C : Config N) (e : Env N) : Env N :=
  let level := e.level + C.div 1 (e.attack * C.fs)
  if 1 ≤ level then { e with level := 1, state := .decay } else { e with level := level }

/-- The decay rule (41_envelope.md R124). -/
def Env.decayRule (C : Config N) (e : Env N) : Env N :=
  let level := e.level - C.div (1 - e.sustain) (e.decay * C.fs)
  if level ≤ e.sustain then { e with level := e.sustain, state := .sustain } else { e with level := level }

/-- The release rule: the decrement is the sustain parameter over the release time (41_envelope.md R126). -/
def Env.releaseRule (C : Config N) (e : Env N) : Env N :=
  let level := e.level - C.div e.sustain (e.release * C.fs)
  if level ≤ 0 then { e with level := 0, state := .idle } else { e with level := level }

/-- The rule of the present state (41_envelope.md R123 to R127). -/
def Env.rule (C : Config N) (e : Env N) : Env N :=
  match e.state with
  | .attack => e.attackRule C
  | .decay => e.decayRule C
  | .sustain => { e with level := e.sustain }
  | .release => e.releaseRule C
  | .idle => { e with level := 0 }

/-- `ENV.advance`: one sample of the present state, then the final clamp (41_envelope.md R122, R128). The value the rule returns
is the level of the result. -/
def Env.advance (C : Config N) (e : Env N) : Env N :=
  { e.rule C with level := clamp01 (e.rule C).level }

end Sys2Proof.Machine
end

