-- ==== Sys2Proof/Machine/Flags.lean ====
section
/-! DEFINITION. The block has no condition codes and no arithmetic flags (10_state.md R43). Its one flag is `isNoteOn`, which
only the note commands write (R39). -/

namespace Sys2Proof.Machine

open Sys2Proof

variable {N : Type}

/-- Writes `isNoteOn` (10_state.md R39): true by `NOTEON`, false by `NOTEOFF`. -/
def Engine.setNoteFlag (on : Bool) (e : Engine N) : Engine N := { e with isNoteOn := on }

end Sys2Proof.Machine
end

