-- ==== Sys2Proof/Machine/Note.lean ====
section
/-! DEFINITION. `NOP`, `NOTEON` and `NOTEOFF` (43_note.md). -/

namespace Sys2Proof.Machine

open Sys2Proof

variable {N : Type} [Zero N] [One N] [Add N] [Sub N] [Mul N] [Div N] [Neg N] [NatCast N] [IntCast N] [RatCast N]
  [LE N] [LT N] [DecidableLE N] [DecidableLT N] [DecidableEq N]

/-- What `NOTEON` does to the registers but for `pc` (43_note.md R146). -/
def Engine.noteOn (K : Numerics N) (note : Nat) (vel : N) (e : Engine N) : Engine N :=
  { (e.mapEnv Env.noteOn).setNoteFlag true with f0 := noteFreq K note, curNote := note, curVel := clamp01 vel }

/-- What `NOTEOFF` does to the registers but for `pc` (43_note.md R147). -/
def Engine.noteOff (e : Engine N) : Engine N := (e.mapEnv Env.noteOff).setNoteFlag false

/-- `NOP` (43_note.md R145). -/
def execNop (s : State) : Host.Outcome State Fault Refusal := s.retire s.eng

/-- `NOTEON note, vel` (43_note.md R146). -/
def execNoteon (note : Nat) (vel : Scalar) (s : State) : Host.Outcome State Fault Refusal :=
  s.retire (s.eng.noteOn Config.chip.toNumerics note vel)

/-- `NOTEOFF` (43_note.md R147). -/
def execNoteoff (s : State) : Host.Outcome State Fault Refusal := s.retire s.eng.noteOff

end Sys2Proof.Machine
end

