-- ==== Sys2Proof/Machine/Parameters.lean ====
section
/-! DEFINITION. The five parameter locks and the ten operator setters (45_parameters.md): what each does to the registers, in any
number system, and the instruction that does it. -/

namespace Sys2Proof.Machine

open Sys2Proof

section Registers

variable {N : Type} [Zero N] [One N] [Add N] [Sub N] [Mul N] [Div N] [Neg N] [NatCast N] [IntCast N] [RatCast N]
  [LE N] [LT N] [DecidableLE N] [DecidableLT N] [DecidableEq N] (C : Config N)

/-- `LOCK.ALG v`: exactly `SETALG` of the mapped id (45_parameters.md R186). -/
def Engine.lockAlg (v : N) (e : Engine N) : Engine N := e.selectAlg C (lockAlgId C.toNumerics v)

/-- `LOCK.DEPTH v` (45_parameters.md R187). -/
def Engine.lockDepth (v : N) (e : Engine N) : Engine N := { e with fmDepth := lockDepthValue C v }

/-- `LOCK.FB v` (45_parameters.md R188). -/
def Engine.lockFb (v : N) (e : Engine N) : Engine N := { e with feedback := lockFbValue C v }

/-- `LOCK.RATIO i, v` (45_parameters.md R184, R189). -/
def Engine.lockRatio (i : Nat) (v : N) (e : Engine N) : Engine N := e.writeOp i fun b => { b with ratio := lockRatioValue v }

/-- `LOCK.LVL i, v` (45_parameters.md R184, R190). -/
def Engine.lockLvl (i : Nat) (v : N) (e : Engine N) : Engine N := e.writeOp i fun b => { b with level := lockLvlValue v }

/-- `SETOP.RATIO i, v` (45_parameters.md R192). -/
def Engine.setopRatio (i : Nat) (v : N) (e : Engine N) : Engine N := e.writeOp i fun b => { b with ratio := setRatioValue v }

/-- `SETOP.LVL i, v` (45_parameters.md R193). -/
def Engine.setopLvl (i : Nat) (v : N) (e : Engine N) : Engine N := e.writeOp i fun b => { b with level := setUnitValue v }

/-- `SETOP.WAVE i, wc`: a code above 4 writes nothing (45_parameters.md R194). -/
def Engine.setopWave (i wc : Nat) (e : Engine N) : Engine N :=
  e.writeOp i fun b => { b with wave := (Wave.ofCode wc).getD b.wave }

/-- `SETOP.LFORATE i, v` (45_parameters.md R195). -/
def Engine.setopLforate (i : Nat) (v : N) (e : Engine N) : Engine N := e.writeOp i fun b => { b with lfoRate := v }

/-- `SETOP.LFOAMT i, v` (45_parameters.md R196). -/
def Engine.setopLfoamt (i : Nat) (v : N) (e : Engine N) : Engine N := e.writeOp i fun b => { b with lfoAmount := setUnitValue v }

/-- `SETOP.VSENS i, v` (45_parameters.md R197). -/
def Engine.setopVsens (i : Nat) (v : N) (e : Engine N) : Engine N := e.writeOp i fun b => { b with velSens := v }

/-- `SETOP.ATK i, v` (45_parameters.md R199). -/
def Engine.setopAtk (i : Nat) (v : N) (e : Engine N) : Engine N :=
  e.writeOp i fun b => { b with env := { b.env with attack := setTimeValue C v } }

/-- `SETOP.DEC i, v` (45_parameters.md R200). -/
def Engine.setopDec (i : Nat) (v : N) (e : Engine N) : Engine N :=
  e.writeOp i fun b => { b with env := { b.env with decay := setTimeValue C v } }

/-- `SETOP.SUS i, v` (45_parameters.md R201). -/
def Engine.setopSus (i : Nat) (v : N) (e : Engine N) : Engine N :=
  e.writeOp i fun b => { b with env := { b.env with sustain := setUnitValue v } }

/-- `SETOP.REL i, v` (45_parameters.md R202). -/
def Engine.setopRel (i : Nat) (v : N) (e : Engine N) : Engine N :=
  e.writeOp i fun b => { b with env := { b.env with release := setTimeValue C v } }

end Registers

/-- `LOCK.ALG v` (45_parameters.md R186). -/
def execLockAlg (v : Scalar) (s : State) : Host.Outcome State Fault Refusal := s.retire (s.eng.lockAlg Config.chip v)

/-- `LOCK.DEPTH v` (45_parameters.md R187). -/
def execLockDepth (v : Scalar) (s : State) : Host.Outcome State Fault Refusal := s.retire (s.eng.lockDepth Config.chip v)

/-- `LOCK.FB v` (45_parameters.md R188). -/
def execLockFb (v : Scalar) (s : State) : Host.Outcome State Fault Refusal := s.retire (s.eng.lockFb Config.chip v)

/-- `LOCK.RATIO i, v` (45_parameters.md R184, R189). -/
def execLockRatio (i : Nat) (v : Scalar) (s : State) : Host.Outcome State Fault Refusal := s.retire (s.eng.lockRatio i v)

/-- `LOCK.LVL i, v` (45_parameters.md R184, R190). -/
def execLockLvl (i : Nat) (v : Scalar) (s : State) : Host.Outcome State Fault Refusal := s.retire (s.eng.lockLvl i v)

/-- `SETOP.RATIO i, v` (45_parameters.md R192). -/
def execSetopRatio (i : Nat) (v : Scalar) (s : State) : Host.Outcome State Fault Refusal := s.retire (s.eng.setopRatio i v)

/-- `SETOP.LVL i, v` (45_parameters.md R193). -/
def execSetopLvl (i : Nat) (v : Scalar) (s : State) : Host.Outcome State Fault Refusal := s.retire (s.eng.setopLvl i v)

/-- `SETOP.WAVE i, wc` (45_parameters.md R194). -/
def execSetopWave (i wc : Nat) (s : State) : Host.Outcome State Fault Refusal := s.retire (s.eng.setopWave i wc)

/-- `SETOP.LFORATE i, v` (45_parameters.md R195). -/
def execSetopLforate (i : Nat) (v : Scalar) (s : State) : Host.Outcome State Fault Refusal := s.retire (s.eng.setopLforate i v)

/-- `SETOP.LFOAMT i, v` (45_parameters.md R196). -/
def execSetopLfoamt (i : Nat) (v : Scalar) (s : State) : Host.Outcome State Fault Refusal := s.retire (s.eng.setopLfoamt i v)

/-- `SETOP.VSENS i, v` (45_parameters.md R197). -/
def execSetopVsens (i : Nat) (v : Scalar) (s : State) : Host.Outcome State Fault Refusal := s.retire (s.eng.setopVsens i v)

/-- `SETOP.ATK i, v` (45_parameters.md R199). -/
def execSetopAtk (i : Nat) (v : Scalar) (s : State) : Host.Outcome State Fault Refusal :=
  s.retire (s.eng.setopAtk Config.chip i v)

/-- `SETOP.DEC i, v` (45_parameters.md R200). -/
def execSetopDec (i : Nat) (v : Scalar) (s : State) : Host.Outcome State Fault Refusal :=
  s.retire (s.eng.setopDec Config.chip i v)

/-- `SETOP.SUS i, v` (45_parameters.md R201). -/
def execSetopSus (i : Nat) (v : Scalar) (s : State) : Host.Outcome State Fault Refusal := s.retire (s.eng.setopSus i v)

/-- `SETOP.REL i, v` (45_parameters.md R202). -/
def execSetopRel (i : Nat) (v : Scalar) (s : State) : Host.Outcome State Fault Refusal :=
  s.retire (s.eng.setopRel Config.chip i v)

end Sys2Proof.Machine
end

