-- ==== Sys2Proof/Machine/PresetCommands.lean ====
section
/-! DEFINITION. `LOADP` and `CAPP` (46_preset.md). -/

namespace Sys2Proof.Machine

open Sys2Proof

variable {N : Type} [Zero N] [One N] [Add N] [Sub N] [Mul N] [Div N] [Neg N] [NatCast N] [IntCast N] [RatCast N]
  [LE N] [LT N] [DecidableLE N] [DecidableLT N] [DecidableEq N]

/-- `LOADP p` in any number system (46_preset.md R210). A Preset that is not valid has no meaning: "a model should refuse a LOADP
whose operand is invalid" (R212; 93_implementation_defined.md U3; log 7). -/
def Engine.loadp (C : Config N) (p : Preset N) (e : Engine N) : Host.Outcome (Engine N) Fault Refusal :=
  if p.Valid C.tMin then .next (e.loadPreset C p).retire else .refused .invalidPreset

/-- `CAPP` in any number system: the capture is emitted (46_preset.md R213). -/
def Engine.capp (e : Engine N) : Engine N := e.emit (.presetOut e.capture)

/-- `LOADP p` (46_preset.md R210, R212). -/
def execLoadp (p : Preset Scalar) (s : State) : Host.Outcome State Fault Refusal := s.withEngine (s.eng.loadp Config.chip p)

/-- `CAPP` (46_preset.md R213). -/
def execCapp (s : State) : Host.Outcome State Fault Refusal := s.retire s.eng.capp

end Sys2Proof.Machine
end

