-- ==== Sys2Proof/Machine/Waveform.lean ====
section
/-! DEFINITION. The waveform generator (40_waveform.md). -/

namespace Sys2Proof.Machine

open Sys2Proof

variable {N : Type} [Zero N] [One N] [Add N] [Sub N] [Mul N] [Div N] [Neg N] [NatCast N] [IntCast N] [RatCast N]
  [LE N] [LT N] [DecidableLE N] [DecidableLT N] [DecidableEq N]

/-- The rising ramp of the sawtooth on the reduced phase `θ` (40_waveform.md R112). -/
def sawShape (K : Numerics N) (θ : N) : N := θ / K.pi - 1

/-- The square on the reduced phase `θ`: high half first (40_waveform.md R113). -/
def squareShape (K : Numerics N) (θ : N) : N := if θ < K.pi then 1 else -1

/-- The sine-aligned triangle on the reduced phase `θ` (40_waveform.md R114). -/
def triangleShape (K : Numerics N) (θ : N) : N :=
  if θ < K.pi / 2 then 2 * θ / K.pi
  else if θ < 3 * K.pi / 2 then 2 - 2 * θ / K.pi
  else 2 * θ / K.pi - 4

/-- `WAVE(w, mp, nz)` (40_waveform.md R110 to R116): `mp` the modulated phase, any number, `nz` the noise draw. -/
def waveGen (K : Numerics N) (w : Wave) (mp nz : N) : N :=
  match w with
  | .sine => K.sin mp
  | .saw => sawShape K (K.wrap mp)
  | .square => squareShape K (K.wrap mp)
  | .triangle => triangleShape K (K.wrap mp)
  | .noise => nz

end Sys2Proof.Machine
end

