-- ==== Sys2Proof/Machine/Render.lean ====
section
/-! DEFINITION. `RENDER` and the per-frame datapath (44_render.md). -/

namespace Sys2Proof.Machine

open Sys2Proof

section Datapath

variable {N : Type} [Zero N] [One N] [Add N] [Sub N] [Mul N] [Div N] [Neg N] [NatCast N] [IntCast N] [RatCast N]
  [LE N] [LT N] [DecidableLE N] [DecidableLT N] [DecidableEq N]

/-- Step 1, the modulation-matrix router: column `t` of the matrix against the previous frame's outputs (44_render.md R158). -/
def Engine.routed (e : Engine N) (t : Fin 4) : N :=
  (e.matrix.get 0).get t * e.prevOut.get 0 * e.fmDepth + (e.matrix.get 1).get t * e.prevOut.get 1 * e.fmDepth
    + (e.matrix.get 2).get t * e.prevOut.get 2 * e.fmDepth + (e.matrix.get 3).get t * e.prevOut.get 3 * e.fmDepth

/-- Steps 1 and 2: `modIn[t]`, with the feedback term for operator 0 only (44_render.md R158, R159). -/
def Engine.modIn (e : Engine N) (t : Fin 4) : N :=
  if t = 0 then e.routed t + e.fbReg * e.feedback else e.routed t

/-- The LFO phase after its advance (44_render.md R161). -/
def OpBank.nextLfoPhase (C : Config N) (b : OpBank N) : N := C.wrap (b.lfoPhase + 2 * C.pi * b.lfoRate / C.fs)

/-- The LFO value, read after the advance (44_render.md R161). -/
def OpBank.lfoVal (C : Config N) (b : OpBank N) : N := C.sin (b.nextLfoPhase C) * b.lfoAmount

/-- The modulated phase, from the accumulator before its advance (44_render.md R162). -/
def OpBank.modulatedPhase (C : Config N) (modIn : N) (b : OpBank N) : N := b.phase + modIn + b.lfoVal C * C.pi

/-- The operator's output (44_render.md R163 to R165): the waveform sample scaled by level, the envelope after its advance,
velocity and velocity sensitivity. -/
def OpBank.out (C : Config N) (curVel modIn nz : N) (b : OpBank N) : N :=
  waveGen C.toNumerics b.wave (b.modulatedPhase C modIn) nz * (b.level * (b.env.advance C).level * curVel * b.velSens)

/-- The bank after the frame: LFO phase, envelope and phase accumulator advanced (44_render.md R161, R164, R166). -/
def OpBank.next (C : Config N) (f0 : N) (b : OpBank N) : OpBank N :=
  { b with
    lfoPhase := b.nextLfoPhase C
    env := b.env.advance C
    phase := C.wrap (b.phase + 2 * C.pi * b.ratio * f0 / C.fs) }

/-- Step 3: `out[i]` (44_render.md R160), `nz` the draws of the four operators. -/
def Engine.opOut (C : Config N) (nz : Quad N) (e : Engine N) (i : Fin 4) : N :=
  (e.op.get i).out C e.curVel (e.modIn i) (nz.get i)

/-- Step 5: the sum of the carriers' outputs of this frame (44_render.md R169). -/
def Engine.mix (C : Config N) (nz : Quad N) (e : Engine N) : N :=
  (if e.mask.get 0 then e.opOut C nz 0 else 0) + (if e.mask.get 1 then e.opOut C nz 1 else 0)
    + (if e.mask.get 2 then e.opOut C nz 2 else 0) + (if e.mask.get 3 then e.opOut C nz 3 else 0)

/-- Step 5: the soft clipper and the clamp (44_render.md R170), `CLIP_IN` = 0.7 and `CLIP_OUT` = 0.8. -/
def softClip (K : Numerics N) (s : N) : N := clamp (K.tanh (s * (7 / 10 : ℚ)) * (8 / 10 : ℚ)) (-1) 1

/-- `FRAME` (44_render.md R156): the five steps of one frame. -/
def Engine.frame (C : Config N) (nz : Quad N) (e : Engine N) : Engine N :=
  Engine.emit (.sample (softClip C.toNumerics (e.mix C nz)))
    { e with
      op := e.op.map (OpBank.next C e.f0)
      fbReg := e.opOut C nz 0
      prevOut := Quad.ofFn (e.opOut C nz) }

/-- One frame of the `RENDER` in progress: `fr` counts down, and the command completes with its last frame (10_state.md
R40 (c)). -/
def Engine.frameStep (C : Config N) (nz : Quad N) (e : Engine N) : Engine N :=
  let e' := e.frame C nz
  { e' with fr := e.fr - 1, pc := if e.fr = 1 then e.pc + 1 else e.pc }

/-- Whether operator `i` takes a noise draw in a frame: 1 or 0 (40_waveform.md R115, 44_render.md R163). -/
def Engine.draws (e : Engine N) (i : Fin 4) : Nat := if (e.op.get i).wave = .noise then 1 else 0

/-- How many draws the operators before `i` take, in operator order (40_waveform.md R115). -/
def Engine.drawsBefore (e : Engine N) (i : Fin 4) : Nat :=
  match i with
  | 0 => 0
  | 1 => e.draws 0
  | 2 => e.draws 0 + e.draws 1
  | 3 => e.draws 0 + e.draws 1 + e.draws 2

/-- How many draws one frame takes. -/
def Engine.drawCount (e : Engine N) : Nat := e.draws 0 + e.draws 1 + e.draws 2 + e.draws 3

/-- The draws of one frame, taken from the noise input `port` at position `idx` on. An operator that takes none ignores its
entry. -/
def Engine.drawNoise (C : Config N) (port idx : Nat) (e : Engine N) : Quad N :=
  Quad.ofFn fun i => C.noise port (idx + e.drawsBefore i)

end Datapath

/-- `RENDER n` (44_render.md R155, 10_state.md R40 (b)): no frames, and the command is complete; else `fr` is loaded and the
frames follow, one a step. -/
def Engine.startRender {N : Type} (n : Nat) (e : Engine N) : Engine N := if n = 0 then e.retire else { e with fr := n }

/-- `RENDER n` (44_render.md R155). -/
def execRender (n : Nat) (s : State) : Host.Outcome State Fault Refusal := .next { s with eng := s.eng.startRender n }

/-- One frame as a step of the machine (10_state.md R40 (c)). -/
def execFrame (s : State) : Host.Outcome State Fault Refusal :=
  .next { s with
    eng := s.eng.frameStep Config.chip (s.eng.drawNoise Config.chip s.noisePort s.noiseIdx)
    noiseIdx := s.noiseIdx + s.eng.drawCount }

end Sys2Proof.Machine
end

