-- ==== Sys2Proof/Machine/Dispatch.lean ====
section
/-! DEFINITION. One arm per command, in the order of spec/opcode_table.json. -/

namespace Sys2Proof.Machine

open Sys2Proof

def exec (i : Instr) (s : State) : Host.Outcome State Fault Refusal :=
  match i with
  | .nop => Sys2Proof.Machine.execNop s
  | .noteon note vel => Sys2Proof.Machine.execNoteon note vel s
  | .noteoff => Sys2Proof.Machine.execNoteoff s
  | .render n => Sys2Proof.Machine.execRender n s
  | .setalg id => Sys2Proof.Machine.execSetalg id s
  | .morph id amount => Sys2Proof.Machine.execMorph id amount s
  | .lockAlg v => Sys2Proof.Machine.execLockAlg v s
  | .lockDepth v => Sys2Proof.Machine.execLockDepth v s
  | .lockFb v => Sys2Proof.Machine.execLockFb v s
  | .lockRatio k v => Sys2Proof.Machine.execLockRatio k v s
  | .lockLvl k v => Sys2Proof.Machine.execLockLvl k v s
  | .setopRatio k v => Sys2Proof.Machine.execSetopRatio k v s
  | .setopLvl k v => Sys2Proof.Machine.execSetopLvl k v s
  | .setopWave k wc => Sys2Proof.Machine.execSetopWave k wc s
  | .setopLforate k v => Sys2Proof.Machine.execSetopLforate k v s
  | .setopLfoamt k v => Sys2Proof.Machine.execSetopLfoamt k v s
  | .setopVsens k v => Sys2Proof.Machine.execSetopVsens k v s
  | .setopAtk k v => Sys2Proof.Machine.execSetopAtk k v s
  | .setopDec k v => Sys2Proof.Machine.execSetopDec k v s
  | .setopSus k v => Sys2Proof.Machine.execSetopSus k v s
  | .setopRel k v => Sys2Proof.Machine.execSetopRel k v s
  | .loadp p => Sys2Proof.Machine.execLoadp p s
  | .capp => Sys2Proof.Machine.execCapp s

end Sys2Proof.Machine
end

