-- ==== Sys2Proof/Machine/Step.lean ====
section
/-! DEFINITION. One step of the machine (10_state.md R40), and the host's placing of an instruction. -/

namespace Sys2Proof.Machine

open Sys2Proof

/-- One step (10_state.md R40): a frame of the `RENDER` in progress, else the next command of the port. -/
def step (s : State) : Host.Outcome State Fault Refusal :=
  if s.eng.fr = 0 then
    match s.fetch with
    | .ok (i, s') => exec i s'
    | .error r => s.noCommand r
  else execFrame s

/-- `s` with the instruction of bits `w` at the head of the command port and no `RENDER` in progress, so that the next step
fetches and runs it (log 11). -/
def State.withFetchWord (s : State) (nbits w : Nat) : State :=
  { s with eng := { s.eng with fr := 0 }, cmdIn := tableItems nbits w ++ s.cmdIn }

end Sys2Proof.Machine
end

