-- ==== Sys2Proof/Machine/Sequencer.lean ====
section
/-! DEFINITION. The machine of 10_state.md R40 in any number system (00_scope.md R5, R6): its state is the registers of one engine
instance, and the command stream and the noise draws are parameters of its step (10_state.md R44). `step` of Step.lean is this machine
over the machine's own numbers, with stream and draws held in State. Beside it the step count of 30_encoding.md R99. -/

namespace Sys2Proof

/-- The steps of one command in R99's count: the frames of a `RENDER` that has any, else 1. -/
def Command.steps {N : Type} (c : Command N) : Nat :=
  match c with
  | .render n => if n = 0 then 1 else n
  | .nop | .noteon _ _ | .noteoff | .setalg _ | .morph _ _ | .lockAlg _ | .lockDepth _ | .lockFb _ | .lockRatio _ _ | .lockLvl _ _
  | .setopRatio _ _ | .setopLvl _ _ | .setopWave _ _ | .setopLforate _ _ | .setopLfoamt _ _ | .setopVsens _ _ | .setopAtk _ _
  | .setopDec _ _ | .setopSus _ _ | .setopRel _ _ | .loadp _ | .capp => 1

/-- The number of machine steps of a finite command stream (30_encoding.md R99): the commands that are no `RENDER`, the `RENDER`
counts, and the `RENDER 0`. -/
def stepCount {N : Type} (cs : List (Command N)) : Nat := (cs.map Command.steps).sum

end Sys2Proof

namespace Sys2Proof.Machine

open Sys2Proof

section AnyNumbers

variable {N : Type} [Zero N] [One N] [Add N] [Sub N] [Mul N] [Div N] [Neg N] [NatCast N] [IntCast N] [RatCast N]
  [LE N] [LT N] [DecidableLE N] [DecidableLT N] [DecidableEq N] (C : Config N)

/-- One command (10_state.md R40 (a), (b)), in the order of spec/opcode_table.json. -/
def Engine.perform (c : Command N) (e : Engine N) : Host.Outcome (Engine N) Fault Refusal :=
  match c with
  | .nop => .next e.retire
  | .noteon note vel => .next (e.noteOn C.toNumerics note vel).retire
  | .noteoff => .next e.noteOff.retire
  | .render n => .next (e.startRender n)
  | .setalg id => .next (e.selectAlg C id).retire
  | .morph id amount => .next (e.morph C id amount).retire
  | .lockAlg v => .next (e.lockAlg C v).retire
  | .lockDepth v => .next (e.lockDepth C v).retire
  | .lockFb v => .next (e.lockFb C v).retire
  | .lockRatio i v => .next (e.lockRatio i v).retire
  | .lockLvl i v => .next (e.lockLvl i v).retire
  | .setopRatio i v => .next (e.setopRatio i v).retire
  | .setopLvl i v => .next (e.setopLvl i v).retire
  | .setopWave i wc => .next (e.setopWave i wc).retire
  | .setopLforate i v => .next (e.setopLforate i v).retire
  | .setopLfoamt i v => .next (e.setopLfoamt i v).retire
  | .setopVsens i v => .next (e.setopVsens i v).retire
  | .setopAtk i v => .next (e.setopAtk C i v).retire
  | .setopDec i v => .next (e.setopDec C i v).retire
  | .setopSus i v => .next (e.setopSus i v).retire
  | .setopRel i v => .next (e.setopRel C i v).retire
  | .loadp p => e.loadp C p
  | .capp => .next e.capp.retire

/-- One step (10_state.md R40) where `c` is what stands at `pc` in the command stream: a frame of the `RENDER` in progress with the
draws `nz`, else that command, or what is done where there is none. -/
def Engine.stepOn (c : Except DecodeError (Command N)) (nz : Quad N) (e : Engine N) : Host.Outcome (Engine N) Fault Refusal :=
  if e.fr = 0 then
    match c with
    | .ok c => e.perform C c
    | .error r => e.noCommand r
  else .next (e.frameStep C nz)

/-- One step on a stream of decoded commands, `prog` of R40. At the end of a finite stream nothing happens (R40, log 4). -/
def Engine.step (prog : Nat → Option (Command N)) (nz : Quad N) (e : Engine N) : Host.Outcome (Engine N) Fault Refusal :=
  e.stepOn C ((prog e.pc).elim (.error .incomplete) .ok) nz

/-- One step on the items `xs` that the command port has carried since reset (30_encoding.md R82). Where `pc` stands at
a reserved opcode or at an item of the wrong kind the stream is refused (R94; DESIGN CHOICE, logs 5 and 6). -/
def Engine.itemStep (xs : List (ItemOf N)) (nz : Quad N) (e : Engine N) : Host.Outcome (Engine N) Fault Refusal :=
  e.stepOn C (commandAt e.pc xs) nz

/-! ### The step count of 30_encoding.md R99 -/

/-- A step as R99 counts them: the loading of `fr` is one with the first frame, so that `RENDER n` with frames takes `n` steps. Every
state it answers is a state of `Engine.step` (log 25). -/
def Engine.countedStep (prog : Nat → Option (Command N)) (nz : Quad N) (e : Engine N) : Host.Outcome (Engine N) Fault Refusal :=
  match e.step C prog nz with
  | .next t => if e.fr = 0 ∧ t.fr ≠ 0 then t.step C prog nz else .next t
  | .fault r => .fault r
  | .refused r => .refused r

/-- `n` counted steps on end, `draws k` the draws of step `k`. -/
def Engine.countedRun (prog : Nat → Option (Command N)) (draws : Nat → Quad N) : Nat → Engine N →
    Host.Outcome (Engine N) Fault Refusal
  | 0, e => .next e
  | n + 1, e =>
    match e.countedStep C prog (draws 0) with
    | .next t => t.countedRun prog (fun k => draws (k + 1)) n
    | .fault r => .fault r
    | .refused r => .refused r

end AnyNumbers

/-- A step of the machine as R99 counts them: that of `step`, and with the loading of `fr` the first frame (log 25). -/
def State.countedStep (s : State) : Host.Outcome State Fault Refusal :=
  match Machine.step s with
  | .next t => if s.eng.fr = 0 ∧ t.eng.fr ≠ 0 then Machine.step t else .next t
  | .fault r => .fault r
  | .refused r => .refused r

end Sys2Proof.Machine
end

