-- ==== Sys2Proof/Machine/Reference.lean ====
section
/-! DEFINITION. The reference number system `NUM_REAL` (00_scope.md R7), the real numbers with the exact functions, and the machine
whose number system it is: the machine of Machine/Sequencer.lean, which is written over any `Numerics`. It is not evaluated: real
numbers cannot be compared by computation, so the State of `core` holds rationals (log 1). -/

namespace Sys2Proof

theorem tanh_le_tanh (x y : ℝ) (h : x ≤ y) : Real.tanh x ≤ Real.tanh y := by
  have hx : Real.tanh x ∈ Set.Ioo (-1 : ℝ) 1 := ⟨Real.neg_one_lt_tanh x, Real.tanh_lt_one x⟩
  have hy : Real.tanh y ∈ Set.Ioo (-1 : ℝ) 1 := ⟨Real.neg_one_lt_tanh y, Real.tanh_lt_one y⟩
  rw [← Real.artanh_le_artanh_iff hx hy, Real.artanh_tanh, Real.artanh_tanh]
  exact h

/-- `NUM_REAL` (00_scope.md R7). `divZero` is Lean's own convention for the one value no rule relies on (R6). -/
noncomputable def Numerics.real : Numerics ℝ where
  pi := Real.pi
  sin := Real.sin
  tanh := Real.tanh
  exp2 := fun x => (2 : ℝ) ^ x
  floor := Int.floor
  divZero := fun _ => 0
  neg_one_le_sin := Real.neg_one_le_sin
  sin_le_one := Real.sin_le_one
  neg_one_le_tanh := fun x => (Real.neg_one_lt_tanh x).le
  tanh_le_one := fun x => (Real.tanh_lt_one x).le
  tanh_zero := Real.tanh_zero
  tanh_neg := Real.tanh_neg
  tanh_mono := tanh_le_tanh
  wrap_mem := NumericOps.wrap_mem_of_floor Real.pi_pos fun _ => rfl
  clamp_mem := fun x _ _ h => Sys2Proof.clamp_mem h x
  exp2_zero := Real.rpow_zero 2

theorem Numerics.real_exact : Numerics.real.Exact := fun _ => rfl

/-- The configuration `C` with the field `NUMERICS` at its reference value (00_scope.md R5, R7). -/
noncomputable def Config.reference (C : Config ℝ) : Config ℝ := { C with toNumerics := Numerics.real }

namespace Machine

/-- The registers of the reference machine right after reset (10_state.md R49). -/
noncomputable def Engine.referenceReset (C : Config ℝ) : Engine ℝ := Engine.reset C.reference

/-- One step of the reference machine: 10_state.md R40 with `NUMERICS` = `NUM_REAL` (00_scope.md R7). -/
noncomputable def Engine.referenceStep (C : Config ℝ) (prog : Nat → Option (Command ℝ)) (nz : Quad ℝ) (e : Engine ℝ) :
    Host.Outcome (Engine ℝ) Fault Refusal :=
  e.step C.reference prog nz

end Machine

end Sys2Proof
end

