-- ==== Sys2Proof/Machine/Wire.lean ====
section
/-! DEFINITION. The bit-level command and output ports of a configuration whose number system has `dec` and `enc` (00_scope.md R5, R6;
30_encoding.md R80 to R82, R93). A number system with infinitely many numbers, `NUM_REAL` and the machine's own among them, has none
(`Wire.finite`): its numeric words are numbers without a bit pattern (R82). -/

namespace Sys2Proof

/-- A word on a bit-level port: 32 bits, or `W_NUM` bits that hold a number (30_encoding.md R82). -/
inductive WireWord (w : Nat) where
  | word (h : BitVec 32)
  | num (v : BitVec w)
  deriving DecidableEq, Repr

section Ports

variable {N : Type} {w : Nat} (W : Wire N w)

/-- The item a word carries: a numeric word is decoded by `dec`, with no scaling or shifting (30_encoding.md R82, R93). -/
def Wire.read : WireWord w → ItemOf N
  | .word h => .word h
  | .num v => .num (W.dec v)

/-- The word an item is sent as (30_encoding.md R81, R91). -/
def Wire.write : ItemOf N → WireWord w
  | .word h => .word h
  | .num v => .num (W.enc v)

/-- The first command on a bit-level port and the words after it (30_encoding.md R82 to R93). -/
def Wire.decode (xs : List (WireWord w)) : Except DecodeError (Command N × List (WireWord w)) :=
  match decodeCommand (xs.map W.read) with
  | .ok (c, rest) => .ok (c, xs.drop (xs.length - rest.length))
  | .error e => .error e

/-- The command stream that the words on the port are, the parameter `prog` of 10_state.md R40 (30_encoding.md R82), or why none can be
read. -/
def Wire.commands (xs : List (WireWord w)) (k : Nat) : Except DecodeError (Command N) := commandAt k (xs.map W.read)

/-- The words of a `PresetOut` event (30_encoding.md R81, R91). -/
def Wire.presetOut (p : Preset N) : List (WireWord w) := (presetItems p).map W.write

/-- The words an event is sent as on the output port (30_encoding.md R81). -/
def Wire.event : Machine.Event N → List (WireWord w)
  | .sample y => [.num (W.enc y)]
  | .presetOut p => W.presetOut p

/-- `dec(enc(x)) = x` (00_scope.md R6), item by item. -/
theorem Wire.read_write (x : ItemOf N) : W.read (W.write x) = x := by
  cases x with
  | word h => rfl
  | num v => exact congrArg _ (W.dec_enc v)

include W in
/-- A number system with a bit-level port has finitely many numbers. -/
theorem Wire.finite : Finite N :=
  Finite.of_injective (fun x => (W.enc x).toFin) fun x y h => by
    rw [← W.dec_enc x, ← W.dec_enc y, BitVec.toFin_inj.mp h]

end Ports

namespace Machine

variable {N : Type} [Zero N] [One N] [Add N] [Sub N] [Mul N] [Div N] [Neg N] [NatCast N] [IntCast N] [RatCast N]
  [LE N] [LT N] [DecidableLE N] [DecidableLT N] [DecidableEq N] (C : Config N)

/-- One step of the machine whose command port is bit-level, with the words `xs` since reset (10_state.md R40, 00_scope.md R6); none for a
configuration whose port is not. A word with a reserved opcode is refused, as 30_encoding.md R94 advises (DESIGN CHOICE, log 5). A
word of the wrong kind for its place is refused too: the spec is silent on it (DESIGN CHOICE, log 6). -/
def Engine.wireStep (xs : List (WireWord C.wNum)) (nz : Quad N) (e : Engine N) :
    Option (Host.Outcome (Engine N) Fault Refusal) :=
  C.wire.map fun W => e.itemStep C (xs.map W.read) nz

/-- What the machine has put on its bit-level output port (10_state.md R42, 30_encoding.md R81). -/
def Engine.wireOut (e : Engine N) : Option (List (WireWord C.wNum)) := C.wire.map fun W => e.outs.flatMap W.event

end Machine

end Sys2Proof
end

