-- ==== Sys2Proof/Machine/Container.lean ====
section
/-! DEFINITION. The container of `N_TRACKS` independent engine instances (60_exceptions.md R232). -/

namespace Sys2Proof.Machine

open Sys2Proof

/-- The instances, in track order. -/
abbrev Container := List State

/-- All instances right after reset. Each has a noise input of its own (60_exceptions.md R232, log 15). -/
def Container.reset : Container :=
  (List.range Config.chip.nTracks).map fun k => { State.reset with noisePort := k }

/-- One step of the instance of track `k`; which instance moves next is the outside's choice (60_exceptions.md R232). A track
that does not exist is none of the container's, and nothing happens. -/
def Container.stepTrack (k : Nat) (tracks : Container) : Host.Outcome Container Fault Refusal :=
  match tracks[k]? with
  | none => .next tracks
  | some s =>
    match step s with
    | .next s' => .next (tracks.set k s')
    | .fault r => .fault r
    | .refused r => .refused r

end Sys2Proof.Machine
end

