-- ==== Sys2Proof/Safety.lean ====
section
/-! DEFINITION. What counts as a legal state (10_state.md R48) and what a run is. -/

namespace Sys2Proof.Machine

open Sys2Proof

section AnyNumbers

variable {N : Type} [Zero N] [One N] [Add N] [Sub N] [Mul N] [Div N] [Neg N] [NatCast N] [IntCast N] [RatCast N]
  [LE N] [LT N] [DecidableLE N] [DecidableLT N] [DecidableEq N]

/-- A phase accumulator inside [0, 2π) (10_state.md R24, R25). -/
abbrev PhaseOk (K : Numerics N) (x : N) : Prop := 0 ≤ x ∧ x < 2 * K.pi

/-- The bounds of one operator's dynamic registers (10_state.md R48 (a), (b)). -/
structure OpBank.DynOk (K : Numerics N) (b : OpBank N) : Prop where
  phase : PhaseOk K b.phase
  lfoPhase : PhaseOk K b.lfoPhase
  level : 0 ≤ b.env.level ∧ b.env.level ≤ 1

/-- An output event within its bounds: a sample in [-1,1] (10_state.md R48 (e)), a captured Preset valid (R47). -/
def Event.Ok (C : Config N) : Event N → Prop
  | .sample y => -1 ≤ y ∧ y ≤ 1
  | .presetOut p => p.Valid C.tMin

/-- The legal register contents of an instance: the invariants of 10_state.md R48 (a) to (f), the parameter bounds of R47, the
ranges of R39, and the mask that of the selected algorithm (R33, R35: whatever writes one of them writes both). -/
structure Engine.Legal (C : Config N) (e : Engine N) : Prop where
  dyn : ∀ i, (e.op.get i).DynOk C.toNumerics
  params : e.capture.Valid C.tMin
  weights : ∀ m t, 0 ≤ (e.matrix.get m).get t
  carrier : ∃ i, e.mask.get i = true
  selected : e.mask = (memReadAlg C e.algId).mask
  delay : e.fbReg = e.prevOut.get 0
  velocity : 0 ≤ e.curVel ∧ e.curVel ≤ 1
  note : e.curNote ≤ 127
  events : ∀ ev ∈ e.outs, ev.Ok C

/-- `n` calls of `ENV.advance` on end (41_envelope.md R122). -/
def Env.advances (C : Config N) : Nat → Env N → Env N
  | 0, e => e
  | n + 1, e => (e.advance C).advances C n

end AnyNumbers

/-- The legal states of the machine. -/
abbrev State.Legal (s : State) : Prop := s.eng.Legal Config.chip

/-- `n` steps lead from `s` to `t`, none of them refused. -/
abbrev StepsTo (n : Nat) (s t : State) : Prop := core.run n s = .next t

/-- `s` with nothing changed but that the program counter has moved past one command (10_state.md R40). -/
def State.onlyPc (s : State) : State := { s with eng := { s.eng with pc := s.eng.pc + 1 } }

/-- `s` with operator `i`'s bank replaced by `b`, the other three banks kept, and the program counter past one command. -/
def State.bankWritten (s : State) (i : Fin 4) (b : OpBank Scalar) : State :=
  { s with eng := { s.eng with op := Quad.ofFn fun j => if j = i then b else s.eng.op.get j, pc := s.eng.pc + 1 } }

/-- `s'` differs from `s` at most in `isNoteOn` and `curNote`, the registers that are "read by nothing in this block"
(10_state.md R39). -/
def SameButNote (s s' : State) : Prop :=
  s' = { s with eng := { s.eng with isNoteOn := s'.eng.isNoteOn, curNote := s'.eng.curNote } }

/-- The registers and the noise position after one frame, the sequencer registers `pc` and `fr` left alone (44_render.md R156). -/
def State.afterFrame (s : State) : State :=
  { s with
    eng := s.eng.frame Config.chip (s.eng.drawNoise Config.chip s.noisePort s.noiseIdx)
    noiseIdx := s.noiseIdx + s.eng.drawCount }

/-- `n` frames on end (44_render.md R155). -/
def State.afterFrames : Nat → State → State
  | 0, s => s
  | n + 1, s => (s.afterFrame).afterFrames n

/-- The number of frames an instance has emitted a sample for. -/
def sampleCount {N : Type} (evs : List (Event N)) : Nat :=
  (evs.filter fun ev => match ev with | .sample _ => true | .presetOut _ => false).length

end Sys2Proof.Machine
end

