-- ==== Sys2Proof/Certificates/Slice0/Obligations.lean ====
section
/-! DEFINITION. The statements for the provers. "For every number system" means: for every carrier with its operations and every
configuration over it, under no law but those of 00_scope.md R8. "Over every ordered field" means: for every number system whose
carrier is an ordered field, the reference system `NUM_REAL` among them, for which the spec states its rules (R7). -/

open Sys2Proof Sys2Proof.Machine

/-! ### Helpers and number system -/

/-- 00_scope.md R12, over every ordered field: the three cases of `clamp`; `wrap` lands in [0, 2π) and differs from its argument by a
whole number of turns; `rhu` is the integer nearest to its argument, the upper one of two equally near. -/
def Obligations.HelperFunctionsMeetTheirDefinitions : Prop :=
  ∀ (N : Type) [Field N] [LinearOrder N] [IsStrictOrderedRing N] [FloorRing N] (K : Numerics N) (x a b : N), a ≤ b →
    (x < a → clamp x a b = a) ∧ (b < x → clamp x a b = b) ∧ (a ≤ x → x ≤ b → clamp x a b = x) ∧
    clamp01 x = clamp x 0 1 ∧
    (0 ≤ K.wrap x ∧ K.wrap x < 2 * K.pi ∧ ∃ k : ℤ, x = K.wrap x + 2 * K.pi * k) ∧
    (K.Exact → (K.rhu x : N) ≤ x + 1 / 2 ∧ x + 1 / 2 < (K.rhu x : N) + 1)

/-! ### Reset -/

/-- 10_state.md R49: every row of the reset table, the parameter rows through the Preset that `CAPP` would read out; and asserting
`rst` puts every register at the same values, whatever it held before (70_reset_and_hazards.md R240). -/
def Obligations.ResetRegistersHoldTheirTableValues : Prop :=
  (∀ i : Fin 4, (State.reset.eng.op.get i).phase = 0 ∧ (State.reset.eng.op.get i).lfoPhase = 0 ∧
      (State.reset.eng.op.get i).env.state = .idle ∧ (State.reset.eng.op.get i).env.level = 0) ∧
    State.reset.eng.fbReg = 0 ∧ (∀ m : Fin 4, State.reset.eng.prevOut.get m = 0) ∧
    State.reset.eng.isNoteOn = false ∧ State.reset.eng.curNote = 0 ∧ State.reset.eng.curVel = 0 ∧ State.reset.eng.f0 = 0 ∧
    State.reset.eng.capture = Config.chip.resetPreset ∧
    State.reset.eng.matrix = (memReadAlg Config.chip Config.chip.resetPreset.algId).matrix ∧
    State.reset.eng.mask = (memReadAlg Config.chip Config.chip.resetPreset.algId).mask ∧
    State.reset.eng.pc = 0 ∧ State.reset.eng.fr = 0 ∧ State.reset.eng.outs = [] ∧
    ∀ s : State, s.assertRst.eng = State.reset.eng

/-- The invariant of `EveryStepKeepsTheStateLegal` holds right after reset (10_state.md R48, R49). -/
def Obligations.ResetStateIsLegal : Prop := State.reset.Legal

/-- 70_reset_and_hazards.md R241: right after reset `RENDER n` emits `n` samples equal to 0 and the operator phases stay at 0. That it
takes `n + 1` steps follows 10_state.md R40 (log 25, DEDUCED). -/
def Obligations.RenderRightAfterResetIsSilent : Prop :=
  ∀ (n : Nat) (rest : List Item), n ≤ 16777215 →
    ∃ t, StepsTo (n + 1) { State.reset with cmdIn := encode (.render n) ++ rest } t ∧
      t.eng.outs = List.replicate n (.sample 0) ∧ t.eng.fr = 0 ∧ t.eng.pc = 1 ∧ t.cmdIn = rest ∧
      ∀ i : Fin 4, (t.eng.op.get i).phase = 0 ∧ (t.eng.op.get i).env.state = .idle

/-! ### The step -/

/-- With no frames left to render, a step runs the command at the head of the port, which it takes off; a decoded command is
well-formed. -/
def Obligations.StepRunsTheDecodedCommand : Prop :=
  ∀ (s : State) (i : Instr) (rest : List Item), s.eng.fr = 0 → decode s.cmdIn = .ok (i, rest) →
    WellFormed i = true ∧ step s = exec i { s with cmdIn := rest }

/-- With frames left to render, a step is one frame, whatever stands on the port and without taking it: `fr` counts down by one,
and `pc` moves past the `RENDER` with its last frame (10_state.md R40 (c), 20_memory.md R71 (b)). -/
def Obligations.StepRendersAFrameWhileFramesRemain : Prop :=
  ∀ s : State, s.eng.fr ≠ 0 → ∃ t, step s = .next t ∧
    t = { s.afterFrame with
          eng := { s.afterFrame.eng with
                   fr := s.eng.fr - 1
                   pc := if s.eng.fr = 1 then s.eng.pc + 1 else s.eng.pc } } ∧
    t.cmdIn = s.cmdIn ∧ sampleCount t.eng.outs = sampleCount s.eng.outs + 1

/-- With no whole command on the port the machine stays as it is: the model's reading of the end of a finite stream (log 4;
10_state.md R40, 60_exceptions.md R234). -/
def Obligations.StepHoldsTheStateWithoutACommand : Prop :=
  ∀ s : State, s.eng.fr = 0 → decode s.cmdIn = .error .incomplete → step s = .next s

/-- The block never faults (60_exceptions.md R220), and the model refuses a step in exactly three cases: a reserved opcode, an item
of the wrong kind, a `LOADP` of a Preset that is not valid (logs 5, 6, 7). The same for every number system on a stream of items, and
so on the words of a bit-level port. -/
def Obligations.StepNeverFaultsAndRefusesOnlyThreeThings : Prop :=
  (∀ s : State, (∀ r, step s ≠ .fault r) ∧
    ∀ r, step s = .refused r ↔ s.eng.fr = 0 ∧
      ((∃ opc, decode s.cmdIn = .error (.reserved opc) ∧ r = .reservedOpcode opc) ∨
        (decode s.cmdIn = .error .itemKind ∧ r = .itemKind) ∨
        (∃ p rest, decode s.cmdIn = .ok (.loadp p, rest) ∧ ¬ p.Valid Config.chip.tMin ∧ r = .invalidPreset))) ∧
  ∀ (N : Type) [Zero N] [One N] [Add N] [Sub N] [Mul N] [Div N] [Neg N] [NatCast N] [IntCast N] [RatCast N]
    [LE N] [LT N] [DecidableLE N] [DecidableLT N] [DecidableEq N] (C : Config N) (nz : Quad N) (e : Engine N),
    (∀ xs : List (ItemOf N), (∀ r, e.itemStep C xs nz ≠ .fault r) ∧
      ∀ r, e.itemStep C xs nz = .refused r ↔ e.fr = 0 ∧
        ((∃ opc, commandAt e.pc xs = .error (.reserved opc) ∧ r = .reservedOpcode opc) ∨
          (commandAt e.pc xs = .error .itemKind ∧ r = .itemKind) ∨
          (∃ p, commandAt e.pc xs = .ok (.loadp p) ∧ ¬ p.Valid C.tMin ∧ r = .invalidPreset))) ∧
    ∀ (W : Wire N C.wNum) (xs : List (WireWord C.wNum)), C.wire = some W →
      e.wireStep C xs nz = some (e.itemStep C (xs.map W.read) nz)

/-- 10_state.md R40 and R42: a step leaves `pc` or moves it by one command, and only appends to the output stream. -/
def Obligations.StepAdvancesPcByAtMostOneAndOnlyAppendsOutput : Prop :=
  ∀ s t : State, step s = .next t → (t.eng.pc = s.eng.pc ∨ t.eng.pc = s.eng.pc + 1) ∧ s.eng.outs <+: t.eng.outs

/-! ### Invariants of the whole machine -/

/-- Every step from a legal state leads to a legal state: phases and LFO phases in [0, 2π), envelope levels in [0,1], a carrier, the
mask of the selected algorithm, `fbReg = prevOut[0]`, samples in [-1,1], non-negative weights, parameters within the bounds of a
valid Preset (10_state.md R47, R48). -/
def Obligations.EveryStepKeepsTheStateLegal : Prop :=
  ∀ s t : State, s.Legal → step s = .next t → t.Legal

/-- 10_state.md R24, R25, R32, R37, R41: no command writes a phase, an LFO phase, an envelope level, the feedback register or the
previous outputs; only a frame does. -/
def Obligations.NoCommandWritesAFrameRegister : Prop :=
  ∀ (i : Instr) (s t : State), exec i s = .next t →
    (∀ k : Fin 4, (t.eng.op.get k).phase = (s.eng.op.get k).phase ∧
      (t.eng.op.get k).lfoPhase = (s.eng.op.get k).lfoPhase ∧
      (t.eng.op.get k).env.level = (s.eng.op.get k).env.level) ∧
    t.eng.fbReg = s.eng.fbReg ∧ t.eng.prevOut = s.eng.prevOut ∧ t.cmdIn = s.cmdIn ∧ t.noisePort = s.noisePort ∧
    t.noiseIdx = s.noiseIdx

/-- 10_state.md R36, R39: `f0`, `curNote` and `curVel` are written by `NOTEON` only and `isNoteOn` by `NOTEON` and `NOTEOFF` only,
whichever way the machine steps. -/
def Obligations.OnlyNoteCommandsWriteTheNoteRegisters : Prop :=
  ∀ s t : State, step s = .next t →
    (t.eng.f0 = s.eng.f0 ∧ t.eng.curNote = s.eng.curNote ∧ t.eng.curVel = s.eng.curVel ∧
        t.eng.isNoteOn = s.eng.isNoteOn) ∨
      (s.eng.fr = 0 ∧ ∃ rest, decode s.cmdIn = .ok (.noteoff, rest) ∧ t.eng.f0 = s.eng.f0 ∧
        t.eng.curNote = s.eng.curNote ∧ t.eng.curVel = s.eng.curVel ∧ t.eng.isNoteOn = false) ∨
      (s.eng.fr = 0 ∧ ∃ note vel rest, decode s.cmdIn = .ok (.noteon note vel, rest) ∧ t.eng.curNote = note ∧
        t.eng.isNoteOn = true)

/-- 41_envelope.md R129: idle and sustain are left only by `NOTEON` or `NOTEOFF`, whichever way the machine steps. -/
def Obligations.IdleAndSustainAreLeftOnlyByNoteCommands : Prop :=
  ∀ (s t : State) (k : Fin 4), step s = .next t →
    ((s.eng.op.get k).env.state = .idle ∨ (s.eng.op.get k).env.state = .sustain) →
    (t.eng.op.get k).env.state = (s.eng.op.get k).env.state ∨
      (s.eng.fr = 0 ∧ ∃ rest, decode s.cmdIn = .ok (.noteoff, rest) ∧ (t.eng.op.get k).env.state = .release) ∨
      (s.eng.fr = 0 ∧ ∃ note vel rest, decode s.cmdIn = .ok (.noteon note vel, rest) ∧
        (t.eng.op.get k).env.state = .attack)

/-- 10_state.md R39: `curNote` and `isNoteOn` are read by nothing. Two states that differ in them alone step to states that differ in
them alone, so every sample and every captured Preset is the same. -/
def Obligations.NoteNumberAndFlagInfluenceNothing : Prop :=
  ∀ s s' t : State, SameButNote s s' → step s = .next t → ∃ t', step s' = .next t' ∧ SameButNote t t'

/-- 20_memory.md R74: a step of one instance leaves the others as they are, and what it does to its own instance does not depend on
them. -/
def Obligations.InstancesDoNotInfluenceEachOther : Prop :=
  ∀ (k : Nat) (tracks tracks' : Container), Container.stepTrack k tracks = .next tracks' →
    tracks'.length = tracks.length ∧ (∀ j : Nat, j ≠ k → tracks'[j]? = tracks[j]?) ∧
    ∀ other : Container, other[k]? = tracks[k]? →
      ∃ other', Container.stepTrack k other = .next other' ∧ other'[k]? = tracks'[k]?

/-! ### Note commands -/

/-- 43_note.md R145: `NOP` moves `pc` and changes nothing else. -/
def Obligations.NopAdvancesThePcAlone : Prop := ∀ s : State, exec .nop s = .next s.onlyPc

/-- 43_note.md R146: `NOTEON` sets `f0 = 440 * 2^((note - 69) / 12)`, puts all four envelopes in attack with their levels kept,
stores note and clamped velocity, raises `isNoteOn`, and writes nothing else but `pc`. -/
def Obligations.NoteonStartsTheNote : Prop :=
  ∀ (note : Nat) (vel : Scalar) (s : State), ∃ t, exec (.noteon note vel) s = .next t ∧
    t = { s with
          eng := { s.eng with
                   op := t.eng.op
                   f0 := 440 * Config.chip.exp2 (((note : Scalar) - 69) / 12)
                   curNote := note
                   curVel := clamp01 vel
                   isNoteOn := true
                   pc := s.eng.pc + 1 } } ∧
    ∀ i : Fin 4, t.eng.op.get i = { s.eng.op.get i with env := { (s.eng.op.get i).env with state := .attack } }

/-- 43_note.md R147: `NOTEOFF` puts all four envelopes in release with their levels kept, clears `isNoteOn`, and writes nothing else
but `pc`. -/
def Obligations.NoteoffReleasesEveryEnvelope : Prop :=
  ∀ s : State, ∃ t, exec .noteoff s = .next t ∧
    t = { s with eng := { s.eng with op := t.eng.op, isNoteOn := false, pc := s.eng.pc + 1 } } ∧
    ∀ i : Fin 4, t.eng.op.get i = { s.eng.op.get i with env := { (s.eng.op.get i).env with state := .release } }

/-- D00's property on note 69, over every ordered field: its frequency is 440 exactly (43_note.md R146 (a), 00_scope.md R8 (e)). -/
def Obligations.NoteSixtyNineSoundsAtFourHundredFortyHertz : Prop :=
  ∀ (N : Type) [Field N] [LinearOrder N] [IsStrictOrderedRing N] (K : Numerics N), noteFreq K 69 = 440

/-- 43_note.md R148 under `NUM_REAL`: the note frequency is strictly increasing, doubles every 12 notes, is 440 at 69, 220 at 57 and
880 at 81. -/
def Obligations.ReferenceNoteFrequencyRisesAndDoublesPerOctave : Prop :=
  (∀ m n : Nat, m < n → noteFreq Numerics.real m < noteFreq Numerics.real n) ∧
    (∀ n : Nat, noteFreq Numerics.real (n + 12) = 2 * noteFreq Numerics.real n) ∧
    noteFreq Numerics.real 57 = 220 ∧ noteFreq Numerics.real 69 = 440 ∧ noteFreq Numerics.real 81 = 880

/-! ### Waveform generator -/

/-- 40_waveform.md R117 (a), over every ordered field: the generator's output lies in [-1,1] for every phase and every admitted
draw. -/
def Obligations.WaveformStaysBetweenMinusOneAndOne : Prop :=
  ∀ (N : Type) [Field N] [LinearOrder N] [IsStrictOrderedRing N] (K : Numerics N) (w : Wave) (mp nz : N),
    -1 ≤ nz → nz ≤ 1 → -1 ≤ waveGen K w mp nz ∧ waveGen K w mp nz ≤ 1

/-- 40_waveform.md R116: saw, square and triangle depend on the phase through `wrap` alone and have period 2π over every ordered
field; the sine has that period under `NUM_REAL`. -/
def Obligations.WaveformRepeatsEveryTurn : Prop :=
  (∀ (N : Type) [Field N] [LinearOrder N] [IsStrictOrderedRing N] (K : Numerics N) (w : Wave) (mp nz : N)
      (k : ℤ), w ≠ .sine →
      waveGen K w mp nz = waveGen K w (K.wrap mp) nz ∧ waveGen K w (mp + 2 * K.pi * k) nz = waveGen K w mp nz) ∧
    ∀ (mp nz : ℝ) (k : ℤ), waveGen Numerics.real .sine (mp + 2 * Real.pi * k) nz = waveGen Numerics.real .sine mp nz

/-- 40_waveform.md R112 to R114, over every ordered field: the shapes at any phase `θ + 2πk`, `θ` its part in [0, 2π). -/
def Obligations.SawSquareAndTriangleHaveTheirShapes : Prop :=
  ∀ (N : Type) [Field N] [LinearOrder N] [IsStrictOrderedRing N] (K : Numerics N) (θ nz : N) (k : ℤ),
    0 ≤ θ → θ < 2 * K.pi →
    (waveGen K .saw (θ + 2 * K.pi * k) nz = θ / K.pi - 1 ∧ θ / K.pi - 1 < 1) ∧
    (θ < K.pi → waveGen K .square (θ + 2 * K.pi * k) nz = 1) ∧
    (K.pi ≤ θ → waveGen K .square (θ + 2 * K.pi * k) nz = -1) ∧
    (θ < K.pi / 2 → waveGen K .triangle (θ + 2 * K.pi * k) nz = 2 * θ / K.pi) ∧
    (K.pi / 2 ≤ θ → θ < 3 * K.pi / 2 → waveGen K .triangle (θ + 2 * K.pi * k) nz = 2 - 2 * θ / K.pi) ∧
    (3 * K.pi / 2 ≤ θ → waveGen K .triangle (θ + 2 * K.pi * k) nz = 2 * θ / K.pi - 4)

/-- 40_waveform.md R118: the table of the deterministic shapes at eighths of a turn, under `NUM_REAL`. -/
def Obligations.ReferenceWaveformTableAtEighthsOfATurn : Prop :=
  ∀ nz : ℝ,
    (∀ row ∈ ([(0, 0), (1, √2 / 2), (2, 1), (3, √2 / 2), (4, 0), (5, -(√2 / 2)), (6, -1), (7, -(√2 / 2)), (-2, -1),
        (9, √2 / 2)] : List (ℤ × ℝ)), waveGen Numerics.real .sine (row.1 * Real.pi / 4) nz = row.2) ∧
    (∀ row ∈ ([(0, -1), (1, -3 / 4), (2, -1 / 2), (3, -1 / 4), (4, 0), (5, 1 / 4), (6, 1 / 2), (7, 3 / 4), (-2, 1 / 2),
        (9, -3 / 4)] : List (ℤ × ℝ)), waveGen Numerics.real .saw (row.1 * Real.pi / 4) nz = row.2) ∧
    (∀ row ∈ ([(0, 1), (1, 1), (2, 1), (3, 1), (4, -1), (5, -1), (6, -1), (7, -1), (-2, -1), (9, 1)] : List (ℤ × ℝ)),
      waveGen Numerics.real .square (row.1 * Real.pi / 4) nz = row.2) ∧
    (∀ row ∈ ([(0, 0), (1, 1 / 2), (2, 1), (3, 1 / 2), (4, 0), (5, -1 / 2), (6, -1), (7, -1 / 2), (-2, -1),
        (9, 1 / 2)] : List (ℤ × ℝ)), waveGen Numerics.real .triangle (row.1 * Real.pi / 4) nz = row.2)

/-! ### Envelope -/

/-- 41_envelope.md R120, R121, R123, R124, R126, R127, over every ordered field: the note events, and the rows of the transition table
for an advance in attack, decay, release and idle, of an envelope whose parameters and level are within their bounds. The row of
sustain (R125, the spec's decision D10) stands in `EnvelopeReachesSustainAndThenIdle`. -/
def Obligations.EnvelopeFollowsItsAttackDecayReleaseAndIdleRows : Prop :=
  ∀ (N : Type) [Field N] [LinearOrder N] [IsStrictOrderedRing N] (C : Config N) (e : Env N),
    0 < e.attack → 0 < e.decay → 0 < e.release → 0 ≤ e.sustain → e.sustain ≤ 1 → 0 ≤ e.level → e.level ≤ 1 →
    e.noteOn = { e with state := .attack } ∧ e.noteOff = { e with state := .release } ∧
    (e.state = .attack → e.advance C =
      if 1 ≤ e.level + 1 / (e.attack * C.fs) then { e with level := 1, state := .decay }
      else { e with level := e.level + 1 / (e.attack * C.fs) }) ∧
    (e.state = .decay → e.advance C =
      if e.level - (1 - e.sustain) / (e.decay * C.fs) ≤ e.sustain then { e with level := e.sustain, state := .sustain }
      else { e with level := e.level - (1 - e.sustain) / (e.decay * C.fs) }) ∧
    (e.state = .release → e.advance C =
      if e.level - e.sustain / (e.release * C.fs) ≤ 0 then { e with level := 0, state := .idle }
      else { e with level := e.level - e.sustain / (e.release * C.fs) }) ∧
    (e.state = .idle → e.advance C = { e with level := 0 })

/-- 41_envelope.md R123, over every ordered field: from level 0 the attack climbs by equal steps and takes `ceil(A * FS)` calls. -/
def Obligations.AttackFromZeroTakesCeilingOfItsTime : Prop :=
  ∀ (N : Type) [Field N] [LinearOrder N] [IsStrictOrderedRing N] [FloorRing N] (C : Config N) (e : Env N),
    0 < e.attack → e.state = .attack → e.level = 0 →
    (∀ k : Nat, k < ⌈e.attack * C.fs⌉₊ →
      e.advances C k = { e with level := (k : N) / (e.attack * C.fs) }) ∧
    e.advances C ⌈e.attack * C.fs⌉₊ = { e with level := 1, state := .decay }

/-- 41_envelope.md R130, D00's "Envelope bounds", over every ordered field: a whole note from idle reaches sustain and, released
from there, idle, in the stated numbers of calls; in the sustain state every call sets the level to the parameter (R125, the spec's
decision D10). -/
def Obligations.EnvelopeReachesSustainAndThenIdle : Prop :=
  ∀ (N : Type) [Field N] [LinearOrder N] [IsStrictOrderedRing N] [FloorRing N] (C : Config N) (e : Env N),
    0 < e.attack → 0 < e.decay → 0 < e.release → 0 ≤ e.sustain → e.sustain ≤ 1 → e.state = .idle → e.level = 0 →
    (e.sustain < 1 → e.noteOn.advances C (⌈e.attack * C.fs⌉₊ + ⌈e.decay * C.fs⌉₊) =
      { e with level := e.sustain, state := .sustain }) ∧
    (e.sustain = 1 → e.noteOn.advances C (⌈e.attack * C.fs⌉₊ + 1) = { e with level := e.sustain, state := .sustain }) ∧
    (∀ l : N, ({ e with level := l, state := .sustain } : Env N).advance C =
      { e with level := e.sustain, state := .sustain }) ∧
    (0 < e.sustain → ({ e with level := e.sustain, state := .sustain } : Env N).noteOff.advances C ⌈e.release * C.fs⌉₊ =
      { e with level := 0, state := .idle })

/-- 41_envelope.md R126 (a) to (c), 70_reset_and_hazards.md R258, over every ordered field: a release begun at level `L0 > 0` with
sustain `S > 0` falls by equal steps and reaches idle with call `ceil(L0 / S * R * FS)`, and not before. -/
def Obligations.ReleaseTimeIsProportionalToItsStartingLevel : Prop :=
  ∀ (N : Type) [Field N] [LinearOrder N] [IsStrictOrderedRing N] [FloorRing N] (C : Config N) (e : Env N),
    0 < e.release → 0 < e.sustain → e.state = .release → 0 < e.level → e.level ≤ 1 →
    (∀ k : Nat, k < ⌈e.level / e.sustain * (e.release * C.fs)⌉₊ →
      e.advances C k = { e with level := e.level - k * (e.sustain / (e.release * C.fs)) }) ∧
    e.advances C ⌈e.level / e.sustain * (e.release * C.fs)⌉₊ = { e with level := 0, state := .idle }

/-- 41_envelope.md R126 (d), 70_reset_and_hazards.md R252, over every ordered field: with sustain 0 and a level above 0 a release
never ends. -/
def Obligations.ReleaseWithZeroSustainNeverEnds : Prop :=
  ∀ (N : Type) [Field N] [LinearOrder N] [IsStrictOrderedRing N] (C : Config N) (e : Env N),
    0 < e.release → e.sustain = 0 → e.state = .release → 0 < e.level → e.level ≤ 1 → ∀ n : Nat, e.advances C n = e

/-! ### The frame -/

/-- 44_render.md R158, R159, R162 to R167, over every ordered field: what a frame computes for operator `i`, from the previous frame's
outputs alone. `modIn` is the matrix column against `prevOut`, with the feedback term for operator 0; the LFO value is the subject of
`FrameAdvancesTheLfoAndKeepsPhasesInsideOneTurn`. -/
def Obligations.FrameComputesEachOperatorFromThePreviousFrame : Prop :=
  ∀ (N : Type) [Field N] [LinearOrder N] [IsStrictOrderedRing N] (C : Config N) (nz : Quad N) (e : Engine N)
    (i : Fin 4) (modIn : N),
    modIn = (∑ m : Fin 4, (e.matrix.get m).get i * e.prevOut.get m * e.fmDepth) +
      (if i = 0 then e.fbReg * e.feedback else 0) →
    ((e.frame C nz).op.get i).phase = C.wrap ((e.op.get i).phase + 2 * C.pi * (e.op.get i).ratio * e.f0 / C.fs) ∧
    ((e.frame C nz).op.get i).env = (e.op.get i).env.advance C ∧
    (e.frame C nz).prevOut.get i =
      waveGen C.toNumerics (e.op.get i).wave
          ((e.op.get i).phase + modIn + (e.op.get i).lfoVal C * C.pi) (nz.get i) *
        ((e.op.get i).level * ((e.frame C nz).op.get i).env.level * e.curVel * (e.op.get i).velSens) ∧
    (e.frame C nz).fbReg = (e.frame C nz).prevOut.get 0

/-- 44_render.md R169 to R171, over every ordered field: a frame emits exactly one sample, the soft-clipped sum of this frame's
outputs of the carriers. -/
def Obligations.FrameEmitsTheSoftClippedSumOfItsCarriers : Prop :=
  ∀ (N : Type) [Field N] [LinearOrder N] [IsStrictOrderedRing N] (C : Config N) (nz : Quad N) (e : Engine N),
    (e.frame C nz).outs = e.outs ++
      [.sample (clamp (C.tanh ((∑ i : Fin 4, if e.mask.get i = true then (e.frame C nz).prevOut.get i else 0) * 0.7) * 0.8)
        (-1) 1)]

/-- 10_state.md R45, the column FRAME: a frame reads and does not write the parameters, the algorithm registers and the note
registers. -/
def Obligations.FrameLeavesEveryParameterAsItIs : Prop :=
  ∀ s t : State, s.eng.fr ≠ 0 → step s = .next t →
    t.eng.capture = s.eng.capture ∧ t.eng.matrix = s.eng.matrix ∧ t.eng.mask = s.eng.mask ∧ t.eng.f0 = s.eng.f0 ∧
    t.eng.isNoteOn = s.eng.isNoteOn ∧ t.eng.curNote = s.eng.curNote ∧ t.eng.curVel = s.eng.curVel ∧
    t.cmdIn = s.cmdIn ∧ t.noisePort = s.noisePort

/-- 44_render.md R161 (the spec's decision D7) and R168, for every number system and every register contents: a frame advances the
LFO phase by `2π * lfoRate / FS`, the LFO value is the sine of the phase just written times `lfoAmount`, and after the frame every
phase and LFO phase lies in [0, 2π). -/
def Obligations.FrameAdvancesTheLfoAndKeepsPhasesInsideOneTurn : Prop :=
  ∀ (N : Type) [Zero N] [One N] [Add N] [Sub N] [Mul N] [Div N] [Neg N] [NatCast N] [IntCast N] [RatCast N]
    [LE N] [LT N] [DecidableLE N] [DecidableLT N] [DecidableEq N] (C : Config N) (nz : Quad N) (e : Engine N) (i : Fin 4),
    ((e.frame C nz).op.get i).lfoPhase = C.wrap ((e.op.get i).lfoPhase + 2 * C.pi * (e.op.get i).lfoRate / C.fs) ∧
    (e.op.get i).lfoVal C = C.sin ((e.frame C nz).op.get i).lfoPhase * (e.op.get i).lfoAmount ∧
    (0 ≤ ((e.frame C nz).op.get i).phase ∧ ((e.frame C nz).op.get i).phase < 2 * C.pi) ∧
    (0 ≤ ((e.frame C nz).op.get i).lfoPhase ∧ ((e.frame C nz).op.get i).lfoPhase < 2 * C.pi)

/-- 44_render.md R170 under `NUM_REAL`: the soft clipper stays strictly inside (-0.8, 0.8), so the clamp never acts, is odd, strictly
increasing, and 0 at 0. -/
def Obligations.ReferenceSoftClipperIsOddIncreasingAndBelowFourFifths : Prop :=
  (∀ s : ℝ, |softClip Numerics.real s| < 4 / 5) ∧ (∀ s : ℝ, softClip Numerics.real (-s) = -softClip Numerics.real s) ∧
    StrictMono (softClip Numerics.real) ∧ softClip Numerics.real 0 = 0

/-- 40_waveform.md R115, 44_render.md R163: a frame advances the noise input by the number of noise operators; operator `i`'s draw is
the one behind those of the noise operators before it; an operator with another waveform ignores its entry. -/
def Obligations.FrameTakesOneDrawPerNoiseOperatorInOrder : Prop :=
  (∀ s : State, s.afterFrame.noiseIdx =
      s.noiseIdx + (Finset.univ.filter fun i : Fin 4 => (s.eng.op.get i).wave = .noise).card) ∧
    (∀ (C : Config Scalar) (port idx : Nat) (e : Engine Scalar) (i : Fin 4), (e.drawNoise C port idx).get i =
      C.noise port (idx + (Finset.univ.filter fun j : Fin 4 => j < i ∧ (e.op.get j).wave = .noise).card)) ∧
    ∀ (C : Config Scalar) (nz nz' : Quad Scalar) (e : Engine Scalar),
      (∀ i : Fin 4, (e.op.get i).wave = .noise → nz.get i = nz'.get i) → e.frame C nz = e.frame C nz'

/-- 44_render.md R173: with every envelope idle, or at velocity 0, a frame emits 0 and clears the delay registers; phases
(R166) and LFO phases still advance, envelopes run, and an idle envelope stays idle. The increment of the LFO phase is R161, an
inference the spec marks as its own (decision D7). -/
def Obligations.IdleEnvelopesOrZeroVelocityRenderSilence : Prop :=
  ∀ s : State, s.eng.fr ≠ 0 → ((∀ i : Fin 4, (s.eng.op.get i).env.state = .idle) ∨ s.eng.curVel = 0) →
    ∃ t, step s = .next t ∧ t.eng.outs = s.eng.outs ++ [.sample 0] ∧ t.eng.fbReg = 0 ∧
      (∀ m : Fin 4, t.eng.prevOut.get m = 0) ∧
      ∀ i : Fin 4, (t.eng.op.get i).env = (s.eng.op.get i).env.advance Config.chip ∧
        ((s.eng.op.get i).env.state = .idle → (t.eng.op.get i).env.state = .idle ∧ (t.eng.op.get i).env.level = 0) ∧
        (t.eng.op.get i).phase = Config.chip.wrap ((s.eng.op.get i).phase +
          2 * Config.chip.pi * (s.eng.op.get i).ratio * s.eng.f0 / Config.chip.fs) ∧
        (t.eng.op.get i).lfoPhase = Config.chip.wrap ((s.eng.op.get i).lfoPhase +
          2 * Config.chip.pi * (s.eng.op.get i).lfoRate / Config.chip.fs)

/-- 70_reset_and_hazards.md R260, over every ordered field: zero velocity sensitivity, velocity or level, or an idle envelope, makes the
operator's output 0. -/
def Obligations.AnyZeroFactorSilencesItsOperator : Prop :=
  ∀ (N : Type) [Field N] [LinearOrder N] [IsStrictOrderedRing N] (C : Config N) (nz : Quad N) (e : Engine N)
    (i : Fin 4),
    ((e.op.get i).velSens = 0 ∨ e.curVel = 0 ∨ (e.op.get i).level = 0 ∨ (e.op.get i).env.state = .idle) →
    (e.frame C nz).prevOut.get i = 0

/-- 44_render.md R175, D00's "Parallel-carrier scenario", over every ordered field: all-zero matrix, all-true mask, operators 1 to 3 at
level 0, no feedback and no LFO depth on operator 0 leave one unmodulated generator behind the soft clipper. -/
def Obligations.ParallelCarriersReproduceOneGenerator : Prop :=
  ∀ (N : Type) [Field N] [LinearOrder N] [IsStrictOrderedRing N] (C : Config N) (nz : Quad N) (e : Engine N),
    e.matrix = (AlgEntry.parallel : AlgEntry N).matrix → e.mask = (AlgEntry.parallel : AlgEntry N).mask → e.feedback = 0 →
    (e.op.get 0).lfoAmount = 0 → (∀ i : Fin 4, i ≠ 0 → (e.op.get i).level = 0) →
    (e.frame C nz).outs = e.outs ++
      [.sample (softClip C.toNumerics (waveGen C.toNumerics (e.op.get 0).wave (e.op.get 0).phase (nz.get 0) *
        ((e.op.get 0).level * ((e.op.get 0).env.advance C).level * e.curVel * (e.op.get 0).velSens)))]

/-! ### RENDER -/

/-- 44_render.md R155, 10_state.md R40 (b): `RENDER 0` moves `pc` alone; `RENDER n` with frames loads `fr` and nothing else. -/
def Obligations.RenderLoadsTheFrameCounter : Prop :=
  ∀ (n : Nat) (s : State), exec (.render n) s =
    .next (if n = 0 then s.onlyPc else { s with eng := { s.eng with fr := n } })

/-- 44_render.md R155: a `RENDER n` at the head of the port runs to its end: exactly `n` frames, `n` samples more, and `pc` past it,
whatever stands behind it on the port. That it takes `n + 1` steps follows 10_state.md R40 (log 25, DEDUCED). -/
def Obligations.RenderRunsItsFramesToTheEnd : Prop :=
  ∀ (n : Nat) (s : State) (rest : List Item), s.eng.fr = 0 → decode s.cmdIn = .ok (.render n, rest) →
    ∃ t, StepsTo (n + 1) s t ∧
      t = { State.afterFrames n { s with cmdIn := rest } with
            eng := { (State.afterFrames n { s with cmdIn := rest }).eng with fr := 0, pc := s.eng.pc + 1 } } ∧
      sampleCount t.eng.outs = sampleCount s.eng.outs + n

/-- 44_render.md R174: `RENDER a` and then `RENDER b` lead to the state of `RENDER (a + b)`, samples included, but for `pc`. That they
take `a + 1`, `b + 1` and `a + b + 1` steps follows 10_state.md R40 (log 25, DEDUCED). -/
def Obligations.BlocksMaySplitWithoutChangingTheSound : Prop :=
  ∀ (a b : Nat) (s : State) (rest : List Item), s.eng.fr = 0 → a + b ≤ 16777215 →
    ∃ t u, StepsTo (a + 1 + (b + 1)) { s with cmdIn := encode (.render a) ++ (encode (.render b) ++ rest) } t ∧
      StepsTo (a + b + 1) { s with cmdIn := encode (.render (a + b)) ++ rest } u ∧
      t = { u with eng := { u.eng with pc := u.eng.pc + 1 } }

/-! ### Algorithm selection and morph -/

/-- 20_memory.md R62, for every number system: the ROM entry for ids 0 to 31, the default entry for every other id. -/
def Obligations.AlgorithmReadFallsBackToTheDefault : Prop :=
  ∀ (N : Type) [Zero N] [One N] [Add N] [Sub N] [Mul N] [Div N] [Neg N] [NatCast N] [IntCast N] [RatCast N]
    [LE N] [LT N] [DecidableLE N] [DecidableLT N] [DecidableEq N] (C : Config N),
    (∀ k : Fin 32, memReadAlg C k.val = C.algRom k) ∧
    ∀ id : Int, id < 0 ∨ 31 < id → memReadAlg C id = C.algDefault

/-- 42_algorithm.md R137: `SETALG` copies matrix and mask, stores the id as given, and writes nothing else but `pc`. -/
def Obligations.SetalgReplacesMatrixMaskAndId : Prop :=
  ∀ (id : Int) (s : State), exec (.setalg id) s =
    .next { s with
            eng := { s.eng with
                     matrix := (memReadAlg Config.chip id).matrix
                     mask := (memReadAlg Config.chip id).mask
                     algId := id
                     pc := s.eng.pc + 1 } }

/-- 42_algorithm.md R139: `MORPH` interpolates every cell and leaves `mask`, `algId` and everything else but `pc`. -/
def Obligations.MorphInterpolatesTheMatrixAlone : Prop :=
  ∀ (id : Int) (amount : Scalar) (s : State), ∃ t, exec (.morph id amount) s = .next t ∧
    t = { s with eng := { s.eng with matrix := t.eng.matrix, pc := s.eng.pc + 1 } } ∧
    ∀ m k : Fin 4, (t.eng.matrix.get m).get k =
      (s.eng.matrix.get m).get k +
        (((memReadAlg Config.chip id).matrix.get m).get k - (s.eng.matrix.get m).get k) * clamp01 amount

/-- 42_algorithm.md R140 (a) to (c), (f), over every ordered field: a morph by 0 or less changes nothing, by 1 or more gives the
target's matrix, two halves make three quarters, and non-negative cells stay so. -/
def Obligations.MorphEndsCompoundsAndKeepsWeightsNonNegative : Prop :=
  ∀ (N : Type) [Field N] [LinearOrder N] [IsStrictOrderedRing N] (C : Config N) (id : Int) (amount : N) (e : Engine N),
    (amount ≤ 0 → e.morph C id amount = e) ∧
    (1 ≤ amount → e.morph C id amount = { e with matrix := (e.selectAlg C id).matrix }) ∧
    (e.morph C id (1 / 2)).morph C id (1 / 2) = e.morph C id (3 / 4) ∧
    ((∀ m t : Fin 4, 0 ≤ (e.matrix.get m).get t) → ∀ m t : Fin 4, 0 ≤ ((e.morph C id amount).matrix.get m).get t)

/-! ### Locks and setters -/

/-- 45_parameters.md R182, R186 to R188 (the spec's decisions D15, D21): `LOCK.DEPTH` and `LOCK.FB` write the clamped input times the
configured top of their range; `LOCK.ALG` selects exactly as `SETALG` of an id in 0..31, the input clamped, scaled by 31 and rounded
half up. -/
def Obligations.GlobalLocksMapTheirInputToTheNativeRange : Prop :=
  ∀ (v : Scalar) (s : State),
    exec (.lockDepth v) s =
      .next { s with eng := { s.eng with fmDepth := clamp01 v * Config.chip.fmDepthMax, pc := s.eng.pc + 1 } } ∧
    exec (.lockFb v) s =
      .next { s with eng := { s.eng with feedback := clamp01 v * Config.chip.fmFbMax, pc := s.eng.pc + 1 } } ∧
    ∃ id : Int, 0 ≤ id ∧ id ≤ 31 ∧
    ((id : Scalar) ≤ clamp01 v * 31 + 1 / 2 ∧ clamp01 v * 31 + 1 / 2 < (id : Scalar) + 1) ∧
    (v ≤ 0 → id = 0) ∧ (1 ≤ v → id = 31) ∧
    exec (.lockAlg v) s = exec (.setalg id) s ∧
    ∃ t, exec (.lockAlg v) s = .next t ∧ t.eng.algId = id ∧ t.eng.pc = s.eng.pc + 1

/-- 45_parameters.md R189, R190: `LOCK.RATIO` and `LOCK.LVL` write one register of one operator, the clamped input mapped to the
native range. An index above 3 is the subject of `OscillatorSettersWriteOneBank`. -/
def Obligations.OperatorLocksScaleTheirInputIntoOneRegister : Prop :=
  ∀ (i : Fin 4) (v : Scalar) (s : State),
    exec (.lockRatio i v) s = .next (s.bankWritten i { s.eng.op.get i with ratio := clamp01 v * 8 }) ∧
    exec (.lockLvl i v) s = .next (s.bankWritten i { s.eng.op.get i with level := clamp01 v })

/-- 45_parameters.md R191 to R193, R195 to R197 (the spec's decision D16): five setters write their one register with their clamp; with
an index above 3 they, and the two operator locks (R184, decision D20), move `pc` alone. -/
def Obligations.OscillatorSettersWriteOneBank : Prop :=
  (∀ (i : Fin 4) (v : Scalar) (s : State),
      exec (.setopRatio i v) s = .next (s.bankWritten i { s.eng.op.get i with ratio := max v 0 }) ∧
      exec (.setopLvl i v) s = .next (s.bankWritten i { s.eng.op.get i with level := clamp01 v }) ∧
      exec (.setopLforate i v) s = .next (s.bankWritten i { s.eng.op.get i with lfoRate := v }) ∧
      exec (.setopLfoamt i v) s = .next (s.bankWritten i { s.eng.op.get i with lfoAmount := clamp01 v }) ∧
      exec (.setopVsens i v) s = .next (s.bankWritten i { s.eng.op.get i with velSens := v })) ∧
    ∀ (k : Nat) (v : Scalar) (s : State), 3 < k →
      exec (.lockRatio k v) s = .next s.onlyPc ∧ exec (.lockLvl k v) s = .next s.onlyPc ∧
      exec (.setopRatio k v) s = .next s.onlyPc ∧ exec (.setopLvl k v) s = .next s.onlyPc ∧
      exec (.setopLforate k v) s = .next s.onlyPc ∧ exec (.setopLfoamt k v) s = .next s.onlyPc ∧
      exec (.setopVsens k v) s = .next s.onlyPc

/-- 45_parameters.md R194: `SETOP.WAVE` writes the waveform of a code up to 4; a higher code or an index above 3 moves `pc` alone. -/
def Obligations.SetopWaveWritesOnlyWaveforms : Prop :=
  (∀ (i : Fin 4) (w : Wave) (s : State),
      exec (.setopWave i w.code) s = .next (s.bankWritten i { s.eng.op.get i with wave := w })) ∧
    (∀ wc : Nat, wc ≤ 4 → ∃ w : Wave, w.code = wc) ∧
    ∀ (k wc : Nat) (s : State), 3 < k ∨ 4 < wc → exec (.setopWave k wc) s = .next s.onlyPc

/-- 45_parameters.md R198 to R202: the four envelope setters write their one register with their clamp; an index above 3 moves `pc`
alone. -/
def Obligations.EnvelopeSettersWriteOneBank : Prop :=
  (∀ (i : Fin 4) (v : Scalar) (s : State),
      exec (.setopAtk i v) s = .next (s.bankWritten i
        { s.eng.op.get i with env := { (s.eng.op.get i).env with attack := max v Config.chip.tMin } }) ∧
      exec (.setopDec i v) s = .next (s.bankWritten i
        { s.eng.op.get i with env := { (s.eng.op.get i).env with decay := max v Config.chip.tMin } }) ∧
      exec (.setopSus i v) s = .next (s.bankWritten i
        { s.eng.op.get i with env := { (s.eng.op.get i).env with sustain := clamp01 v } }) ∧
      exec (.setopRel i v) s = .next (s.bankWritten i
        { s.eng.op.get i with env := { (s.eng.op.get i).env with release := max v Config.chip.tMin } })) ∧
    ∀ (k : Nat) (v : Scalar) (s : State), 3 < k →
      exec (.setopAtk k v) s = .next s.onlyPc ∧ exec (.setopDec k v) s = .next s.onlyPc ∧
      exec (.setopSus k v) s = .next s.onlyPc ∧ exec (.setopRel k v) s = .next s.onlyPc

/-- 45_parameters.md R183, 30_encoding.md R84, R96: a `LOCK` with an unknown key and a `SETOP` with an unassigned selector take their
payload item off the port and move `pc` alone. -/
def Obligations.UnknownKeysAndSelectorsConsumeTheirPayload : Prop :=
  ∀ (h : BitVec 32) (v : Scalar) (rest : List Item) (s : State), s.eng.fr = 0 → s.cmdIn = .word h :: .num v :: rest →
    (bits h 31 24 = 0x20 ∧ bits h 15 8 ∉ [0x00, 0x01, 0x02, 0x10, 0x11] ∨
      bits h 31 24 = 0x30 ∧ bits h 15 8 ∉ [0x00, 0x01, 0x02, 0x03, 0x04, 0x05, 0x08, 0x09, 0x0A, 0x0B]) →
    step s = .next (State.onlyPc { s with cmdIn := rest })

/-! ### Presets -/

/-- 46_preset.md R210: `LOADP` of a valid Preset makes the parameter registers read back as exactly that Preset and recomputes matrix
and mask. R211, the spec's decision D17 (log 22): it leaves every dynamic register, the note registers and the output stream. -/
def Obligations.LoadpReplacesTheParametersAndNothingDynamic : Prop :=
  ∀ (p : Preset Scalar) (s : State), p.Valid Config.chip.tMin → ∃ t, exec (.loadp p) s = .next t ∧
    t.eng.capture = p ∧
    t = { s with
          eng := { s.eng with
                   op := t.eng.op
                   algId := p.algId
                   matrix := (memReadAlg Config.chip p.algId).matrix
                   mask := (memReadAlg Config.chip p.algId).mask
                   feedback := p.feedback
                   fmDepth := p.fmDepth
                   pc := s.eng.pc + 1 } } ∧
    ∀ i : Fin 4, (t.eng.op.get i).phase = (s.eng.op.get i).phase ∧
      (t.eng.op.get i).lfoPhase = (s.eng.op.get i).lfoPhase ∧
      (t.eng.op.get i).env.state = (s.eng.op.get i).env.state ∧
      (t.eng.op.get i).env.level = (s.eng.op.get i).env.level

/-- 46_preset.md R213: `CAPP` appends one `PresetOut` with the 43 parameter registers and writes no register but `pc`. -/
def Obligations.CappEmitsEveryParameterRegister : Prop :=
  ∀ s : State, ∃ p : Preset Scalar,
    exec .capp s = .next { s with eng := { s.eng with outs := s.eng.outs ++ [.presetOut p], pc := s.eng.pc + 1 } } ∧
    p.algId = s.eng.algId ∧ p.feedback = s.eng.feedback ∧ p.fmDepth = s.eng.fmDepth ∧
    ∀ i : Fin 4, p.op.get i =
      { ratio := (s.eng.op.get i).ratio
        level := (s.eng.op.get i).level
        wave := BitVec.ofNat 3 (s.eng.op.get i).wave.code
        lfoRate := (s.eng.op.get i).lfoRate
        lfoAmount := (s.eng.op.get i).lfoAmount
        velSens := (s.eng.op.get i).velSens
        attack := (s.eng.op.get i).env.attack
        decay := (s.eng.op.get i).env.decay
        sustain := (s.eng.op.get i).env.sustain
        release := (s.eng.op.get i).env.release }

/-- 46_preset.md R214, D00's "Preset round-trip", through the command stream: the encoded `LOADP p; CAPP` of a valid Preset emits
`PresetOut p`, with no tolerance. At the bit level, in every number system with `dec` and `enc`: where `enc(dec(x)) = x` on the
numeric words of the `LOADP` and the reserved bits of its `PW` are 0, as `CAPP` writes them (30_encoding.md R91), the words sent for
that event are the payload words that were read. -/
def Obligations.LoadThenCaptureReturnsThePreset : Prop :=
  (∀ (p : Preset Scalar) (s : State) (rest : List Item), s.eng.fr = 0 → WellFormed (.loadp p) = true →
    p.Valid Config.chip.tMin → s.cmdIn = encode (.loadp p) ++ (encode .capp ++ rest) →
    ∃ t, StepsTo 2 s t ∧ t.eng.outs = s.eng.outs ++ [.presetOut p] ∧ t.cmdIn = rest ∧ t.eng.pc = s.eng.pc + 2) ∧
  ∀ (N : Type) [Zero N] [One N] [Add N] [Sub N] [Mul N] [Div N] [Neg N] [NatCast N] [IntCast N] [RatCast N]
    [LE N] [LT N] [DecidableLE N] [DecidableLT N] [DecidableEq N] (C : Config N) (W : Wire N C.wNum) (h h' pw : BitVec 32)
    (vs : List (BitVec C.wNum)) (xs rest : List (WireWord C.wNum)) (p : Preset N) (nz : Quad N) (e : Engine N),
    C.wire = some W → bits h 31 24 = 0x40 → bits h' 31 24 = 0x41 → vs.length = 38 →
    xs = .word h :: .word pw :: (vs.map .num ++ .word h' :: rest) →
    W.commands xs 0 = .ok (.loadp p) → p.Valid C.tMin → e.pc = 0 → e.fr = 0 →
    ∃ t u, e.wireStep C xs nz = some (.next t) ∧ t.wireStep C xs nz = some (.next u) ∧
      u.outs = e.outs ++ [.presetOut p] ∧ u.pc = 2 ∧
      ((∀ v ∈ vs, W.Returns v) → pw &&& 0x88880000#32 = 0#32 → W.event (.presetOut p) = .word pw :: vs.map .num)

/-- 46_preset.md R210: from a legal state, loading the Preset that a capture would emit changes only `matrix` (back to the ROM's) and
`pc`. -/
def Obligations.ReloadingACaptureOnlyUndoesAMorph : Prop :=
  ∀ s : State, s.Legal → exec (.loadp s.eng.capture) s =
    .next { s with
            eng := { s.eng with matrix := (memReadAlg Config.chip s.eng.algId).matrix, pc := s.eng.pc + 1 } }

/-! ### Encoding -/

/-- Decoding the encoding of any well-formed command gives it back, whatever follows it on the port. -/
def Obligations.DecodeOfEncodeIsTheCommand : Prop :=
  ∀ (i : Instr) (rest : List Item), WellFormed i = true → decode (encode i ++ rest) = .ok (i, rest)

/-- 30_encoding.md R84: a decoded command has taken exactly as many items as the length table gives its opcode, from the front. -/
def Obligations.DecodeTakesTheLengthOfItsOpcode : Prop :=
  ∀ (h : BitVec 32) (r rest : List Item) (i : Instr), decode (.word h :: r) = .ok (i, rest) →
    ∃ taken : List Item, .word h :: r = taken ++ rest ∧ taken.length = commandLength (bits h 31 24)

/-- 30_encoding.md R92: no header selects two rows of the opcode map, and the command a header decodes to is that of the row it
selects. -/
def Obligations.DecodeFollowsTheOpcodeMap : Prop :=
  (opcodeRows.Pairwise fun a b => ∀ h : BitVec 32, ¬ (h &&& a.mask = a.pattern ∧ h &&& b.mask = b.pattern)) ∧
    (opcodeRows.map OpcodeRow.mnemonic).length = 23 ∧
    ∀ row ∈ opcodeRows, ∀ (h : BitVec 32) (r rest : List Item) (i : Instr), h &&& row.mask = row.pattern →
      decode (.word h :: r) = .ok (i, rest) → mnemonic i = row.mnemonic

/-- 30_encoding.md R94, 93_implementation_defined.md U1: a header whose opcode is not in the length table is refused by name, whatever
follows, by `step` and by the machine of every number system on its bit-level port (log 5, DESIGN CHOICE). -/
def Obligations.ReservedOpcodesAreRefused : Prop :=
  ∀ h : BitVec 32, bits h 31 24 ∉ [0x00, 0x01, 0x02, 0x03, 0x10, 0x11, 0x20, 0x30, 0x40, 0x41] →
    (∀ (r : List Item) (s : State), s.eng.fr = 0 → s.cmdIn = .word h :: r →
      step s = .refused (.reservedOpcode (BitVec.ofNat 8 (bits h 31 24)))) ∧
  ∀ (N : Type) [Zero N] [One N] [Add N] [Sub N] [Mul N] [Div N] [Neg N] [NatCast N] [IntCast N] [RatCast N]
    [LE N] [LT N] [DecidableLE N] [DecidableLT N] [DecidableEq N] (C : Config N) (W : Wire N C.wNum)
    (r : List (WireWord C.wNum)) (nz : Quad N) (e : Engine N), C.wire = some W → e.fr = 0 → e.pc = 0 →
    e.wireStep C (.word h :: r) nz = some (.refused (.reservedOpcode (BitVec.ofNat 8 (bits h 31 24))))

/-- Nine headers of 95_test_vectors.md section 2.8 decode to the commands named there, and the tenth, a reserved opcode, is rejected:
the hardware executes it as `NOP` (30_encoding.md R94), the model refuses it as that rule advises (log 5, DESIGN CHOICE). -/
def Obligations.SpecWordsDecodeToTheirCommands : Prop :=
  decode [.word 0x01C50000, .num 1] = .ok (.noteon 69 1, []) ∧
    decode [.word 0x03FFFFFF] = .ok (.render 16777215, []) ∧
    decode [.word 0x10008000] = .ok (.setalg (-32768), []) ∧
    decode [.word 0x11000002, .num 1] = .ok (.morph 2 1, []) ∧
    decode [.word 0x20031100, .num 1] = .ok (.lockLvl 3 1, []) ∧
    decode [.word 0x20007F00, .num 1] = .ok (.nop, []) ∧
    decode [.word 0x30020203, .num 1] = .ok (.setopWave 2 3, []) ∧
    decode [.word 0x30030B00, .num 1] = .ok (.setopRel 3 1, []) ∧
    decode [.word 0x41000000] = .ok (.capp, []) ∧
    decode [.word 0x7F000000] = .error (.reserved 0x7F)
end

