-- ==== Sys2Proof/Laws/Decode.lean ====
section
/-! SUPPORT. Reading payload items one at a time, the fields of a header word, what the decoder reads for each opcode, and the
signed 16-bit field. Each lemma about `decode` is over a word with a name, never over a laid-out number, which the kernel would
unfold. -/

namespace Sys2Proof

section Take

variable {α N : Type}

@[simp] theorem takeNum_num (v : N) (r : List (ItemOf N)) (k : N → List (ItemOf N) → Except DecodeError α) :
    takeNum (.num v :: r) k = k v r := rfl

@[simp] theorem takeNum_word (w : BitVec 32) (r : List (ItemOf N)) (k : N → List (ItemOf N) → Except DecodeError α) :
    takeNum (.word w :: r) k = .error .itemKind := rfl

@[simp] theorem takeNum_nil (k : N → List (ItemOf N) → Except DecodeError α) : takeNum [] k = .error .incomplete := rfl

@[simp] theorem takeWord_word (w : BitVec 32) (r : List (ItemOf N)) (k : BitVec 32 → List (ItemOf N) → Except DecodeError α) :
    takeWord (.word w :: r) k = k w r := rfl

@[simp] theorem takeWord_num (v : N) (r : List (ItemOf N)) (k : BitVec 32 → List (ItemOf N) → Except DecodeError α) :
    takeWord (.num v :: r) k = .error .itemKind := rfl

@[simp] theorem takeWord_nil (k : BitVec 32 → List (ItemOf N) → Except DecodeError α) : takeWord [] k = .error .incomplete := rfl

/-- Everything the reading of a numeric item can do, if it succeeds. -/
theorem takeNum_ok {xs : List (ItemOf N)} {k : N → List (ItemOf N) → Except DecodeError α} {a : α} (h : takeNum xs k = .ok a) :
    ∃ v r, xs = .num v :: r ∧ k v r = .ok a := by
  cases xs with
  | nil => simp at h
  | cons x r =>
    cases x with
    | word w => simp at h
    | num v => exact ⟨v, r, rfl, h⟩

/-- Everything the reading of an integer item can do, if it succeeds. -/
theorem takeWord_ok {xs : List (ItemOf N)} {k : BitVec 32 → List (ItemOf N) → Except DecodeError α} {a : α}
    (h : takeWord xs k = .ok a) : ∃ w r, xs = .word w :: r ∧ k w r = .ok a := by
  cases xs with
  | nil => simp at h
  | cons x r =>
    cases x with
    | num v => simp at h
    | word w => exact ⟨w, r, rfl, h⟩

/-- Everything the reading of an operator's nine items can do, if it succeeds. -/
theorem takeOp_ok {wave : Nat} {xs : List (ItemOf N)} {k : OpPreset N → List (ItemOf N) → Except DecodeError α} {a : α}
    (h : takeOp wave xs k = .ok a) :
    ∃ o r, o.wave = BitVec.ofNat 3 wave ∧ xs = opItems o ++ r ∧ k o r = .ok a := by
  obtain ⟨a1, r1, rfl, h1⟩ := takeNum_ok h
  obtain ⟨a2, r2, rfl, h2⟩ := takeNum_ok h1
  obtain ⟨a3, r3, rfl, h3⟩ := takeNum_ok h2
  obtain ⟨a4, r4, rfl, h4⟩ := takeNum_ok h3
  obtain ⟨a5, r5, rfl, h5⟩ := takeNum_ok h4
  obtain ⟨a6, r6, rfl, h6⟩ := takeNum_ok h5
  obtain ⟨a7, r7, rfl, h7⟩ := takeNum_ok h6
  obtain ⟨a8, r8, rfl, h8⟩ := takeNum_ok h7
  obtain ⟨a9, r9, rfl, h9⟩ := takeNum_ok h8
  exact ⟨_, r9, rfl, rfl, h9⟩

/-- What the payload word `pw` says of the Preset it stands before (30_encoding.md R91). -/
structure Preset.HasWord (p : Preset N) (pw : BitVec 32) : Prop where
  algId : p.algId = sext16 (bits pw 15 0)
  wave0 : p.op.x0.wave = BitVec.ofNat 3 (bits pw 18 16)
  wave1 : p.op.x1.wave = BitVec.ofNat 3 (bits pw 22 20)
  wave2 : p.op.x2.wave = BitVec.ofNat 3 (bits pw 26 24)
  wave3 : p.op.x3.wave = BitVec.ofNat 3 (bits pw 30 28)

/-- Everything the reading of a Preset can do, if it succeeds. -/
theorem takePreset_ok {xs rest : List (ItemOf N)} {c : Command N} (h : takePreset xs = .ok (c, rest)) :
    ∃ pw p, xs = .word pw :: (opItems p.op.x0 ++ (opItems p.op.x1 ++ (opItems p.op.x2 ++ (opItems p.op.x3 ++
        (.num p.feedback :: .num p.fmDepth :: rest))))) ∧ p.HasWord pw ∧ c = .loadp p := by
  obtain ⟨pw, r, rfl, h1⟩ := takeWord_ok h
  obtain ⟨o0, r0, w0, rfl, h2⟩ := takeOp_ok h1
  obtain ⟨o1, r1, w1, rfl, h3⟩ := takeOp_ok h2
  obtain ⟨o2, r2, w2, rfl, h4⟩ := takeOp_ok h3
  obtain ⟨o3, r3, w3, rfl, h5⟩ := takeOp_ok h4
  obtain ⟨f, r4, rfl, h6⟩ := takeNum_ok h5
  obtain ⟨d, r5, rfl, h7⟩ := takeNum_ok h6
  cases h7
  exact ⟨pw, _, rfl, ⟨rfl, w0, w1, w2, w3⟩, rfl⟩

/-- Reading back the nine items of an operator, its waveform code given beside them. -/
theorem takeOp_opItems (o : OpPreset N) (r : List (ItemOf N)) (k : OpPreset N → List (ItemOf N) → Except DecodeError α) :
    takeOp o.wave.toNat (opItems o ++ r) k = k o r := by
  simp [takeOp, opItems]

end Take

/-- A field is below its width. -/
theorem bits_lt (h : BitVec 32) (hi lo : Nat) : bits h hi lo < 2 ^ (hi + 1 - lo) := Nat.mod_lt _ (by positivity)

/-- The header word that `header` lays out, as a number. -/
theorem toNat_headerWord {opc f : Nat} (h1 : opc < 256) (h2 : f < 2 ^ 24) :
    (BitVec.ofNat 32 (opc * 2 ^ 24 + f)).toNat = opc * 2 ^ 24 + f := by
  rw [BitVec.toNat_ofNat]
  exact Nat.mod_eq_of_lt (by omega)

/-- The opcode of a header that `header` lays out. -/
theorem opcode_headerWord {opc f : Nat} (h1 : opc < 256) (h2 : f < 2 ^ 24) :
    opcode (BitVec.ofNat 32 (opc * 2 ^ 24 + f)) = opc := by
  rw [opcode, bits, toNat_headerWord h1 h2]
  omega

/-- A field below the opcode of a header that `header` lays out. -/
theorem bits_headerWord {opc f : Nat} (h1 : opc < 256) (h2 : f < 2 ^ 24) {hi lo : Nat} (h3 : hi < 24) :
    bits (BitVec.ofNat 32 (opc * 2 ^ 24 + f)) hi lo = f / 2 ^ lo % 2 ^ (hi + 1 - lo) := by
  rw [bits, toNat_headerWord h1 h2]
  by_cases hl : lo ≤ hi
  · obtain ⟨w, hw⟩ : ∃ w, hi + 1 = lo + w := ⟨hi + 1 - lo, by omega⟩
    obtain ⟨k, hk⟩ : ∃ k, 24 = lo + (w + k) := ⟨24 - (hi + 1), by omega⟩
    have e : opc * 2 ^ (lo + (w + k)) + f = f + opc * 2 ^ k * 2 ^ w * 2 ^ lo := by
      rw [pow_add, pow_add]
      ring
    rw [show hi + 1 - lo = w by omega, hk, e, Nat.add_mul_div_right _ _ (by positivity), Nat.add_mul_mod_self_right]
  · rw [show hi + 1 - lo = 0 by omega, pow_zero, Nat.mod_one, Nat.mod_one]

section Decoder

/-- Everything the decoder of the opcode table can answer: what the decoder of commands answers, the command under its row's name. -/
theorem decode_ok_iff (xs rest : List Item) (i : Instr) :
    decode xs = .ok (i, rest) ↔ ∃ c, decodeCommand xs = .ok (c, rest) ∧ c.instr = i := by
  unfold decode
  cases decodeCommand xs with
  | error r => simp
  | ok v =>
    obtain ⟨c, r⟩ := v
    simp only [Except.ok.injEq, Prod.mk.injEq]
    exact ⟨fun ⟨h1, h2⟩ => ⟨c, ⟨rfl, h2⟩, h1⟩, by rintro ⟨_, ⟨rfl, h2⟩, h1⟩; exact ⟨h1, h2⟩⟩

theorem decode_error_iff (xs : List Item) (r : DecodeError) : decode xs = .error r ↔ decodeCommand xs = .error r := by
  unfold decode
  cases decodeCommand xs <;> simp

theorem decode_of_command {xs rest : List Item} {c : Command Scalar} (h : decodeCommand xs = .ok (c, rest)) :
    decode xs = .ok (c.instr, rest) := (decode_ok_iff _ _ _).mpr ⟨c, h, rfl⟩

/-- The first command of a stream of items. -/
theorem commandAt_zero_iff {N : Type} {xs : List (ItemOf N)} {c : Command N} :
    commandAt 0 xs = .ok c ↔ ∃ r, decodeCommand xs = .ok (c, r) := by
  unfold commandAt
  cases decodeCommand xs <;> simp [Prod.ext_iff]

/-- Why no first command can be read. -/
theorem commandAt_zero_error_iff {N : Type} {xs : List (ItemOf N)} {r : DecodeError} :
    commandAt 0 xs = .error r ↔ decodeCommand xs = .error r := by
  unfold commandAt
  cases decodeCommand xs <;> simp

/-- The commands behind the first are those of the items behind it. -/
theorem commandAt_succ {N : Type} {xs r : List (ItemOf N)} {c : Command N} (h : decodeCommand xs = .ok (c, r)) (k : Nat) :
    commandAt (k + 1) xs = commandAt k r := by
  simp only [commandAt, h]

/-- Each instruction of the opcode table is one decoded command. -/
theorem Command.instr_bijective : Function.Bijective Command.instr := by
  constructor
  · intro c d h
    cases c <;> cases d <;> first | rfl | (cases h; rfl) | cases h
  · intro i
    cases i <;> first
      | exact ⟨.nop, rfl⟩ | exact ⟨.noteon _ _, rfl⟩ | exact ⟨.noteoff, rfl⟩ | exact ⟨.render _, rfl⟩ | exact ⟨.setalg _, rfl⟩
      | exact ⟨.morph _ _, rfl⟩ | exact ⟨.lockAlg _, rfl⟩ | exact ⟨.lockDepth _, rfl⟩ | exact ⟨.lockFb _, rfl⟩
      | exact ⟨.lockRatio _ _, rfl⟩ | exact ⟨.lockLvl _ _, rfl⟩ | exact ⟨.setopRatio _ _, rfl⟩ | exact ⟨.setopLvl _ _, rfl⟩
      | exact ⟨.setopWave _ _, rfl⟩ | exact ⟨.setopLforate _ _, rfl⟩ | exact ⟨.setopLfoamt _ _, rfl⟩
      | exact ⟨.setopVsens _ _, rfl⟩ | exact ⟨.setopAtk _ _, rfl⟩ | exact ⟨.setopDec _ _, rfl⟩ | exact ⟨.setopSus _ _, rfl⟩
      | exact ⟨.setopRel _ _, rfl⟩ | exact ⟨.loadp _, rfl⟩ | exact ⟨.capp, rfl⟩

variable {N : Type}

theorem decodeCommand_word (h : BitVec 32) (r : List (ItemOf N)) : decodeCommand (.word h :: r) = decodeHeader h r := rfl

variable {h : BitVec 32} {r : List (ItemOf N)}

theorem decodeCommand_header (opc f : Nat) (r : List Item) :
    decodeCommand (header opc f :: r) = decodeHeader (BitVec.ofNat 32 (opc * 2 ^ 24 + f)) r := by
  unfold header
  exact decodeCommand_word _ _

theorem decodeHeader_nop (ho : opcode h = 0x00) : decodeHeader h r = .ok (.nop, r) := by
  simp only [decodeHeader, ho]

theorem decodeHeader_noteon (ho : opcode h = 0x01) :
    decodeHeader h r = takeNum r fun vel r => .ok (.noteon (bits h 22 16) vel, r) := by
  simp only [decodeHeader, ho]

theorem decodeHeader_noteoff (ho : opcode h = 0x02) : decodeHeader h r = .ok (.noteoff, r) := by
  simp only [decodeHeader, ho]

theorem decodeHeader_render (ho : opcode h = 0x03) : decodeHeader h r = .ok (.render (bits h 23 0), r) := by
  simp only [decodeHeader, ho]

theorem decodeHeader_setalg (ho : opcode h = 0x10) : decodeHeader h r = .ok (.setalg (sext16 (bits h 15 0)), r) := by
  simp only [decodeHeader, ho]

theorem decodeHeader_morph (ho : opcode h = 0x11) :
    decodeHeader h r = takeNum r fun amount r => .ok (.morph (sext16 (bits h 15 0)) amount, r) := by
  simp only [decodeHeader, ho]

theorem decodeHeader_lock (ho : opcode h = 0x20) :
    decodeHeader h r = takeNum r fun v r => .ok (lockCommand (bits h 15 8) (bits h 23 16) v, r) := by
  simp only [decodeHeader, ho]

theorem decodeHeader_setop (ho : opcode h = 0x30) :
    decodeHeader h r = takeNum r fun v r => .ok (setopCommand (bits h 15 8) (bits h 23 16) (bits h 7 0) v, r) := by
  simp only [decodeHeader, ho]

theorem decodeHeader_loadp (ho : opcode h = 0x40) : decodeHeader h r = takePreset r := by
  simp only [decodeHeader, ho]

theorem decodeHeader_capp (ho : opcode h = 0x41) : decodeHeader h r = .ok (.capp, r) := by
  simp only [decodeHeader, ho]

/-- The fields of the payload word that `presetWord` lays out (30_encoding.md R91). -/
theorem bits_presetWord (p : Preset N) :
    bits (presetWord p) 15 0 = unsext16 p.algId ∧ bits (presetWord p) 18 16 = p.op.x0.wave.toNat ∧
      bits (presetWord p) 22 20 = p.op.x1.wave.toNat ∧ bits (presetWord p) 26 24 = p.op.x2.wave.toNat ∧
      bits (presetWord p) 30 28 = p.op.x3.wave.toNat := by
  have u : unsext16 p.algId < 65536 := by
    unfold unsext16
    omega
  have w0 := p.op.x0.wave.isLt
  have w1 := p.op.x1.wave.isLt
  have w2 := p.op.x2.wave.isLt
  have w3 := p.op.x3.wave.isLt
  have hp : (presetWord p).toNat = unsext16 p.algId + p.op.x0.wave.toNat * 2 ^ 16 + p.op.x1.wave.toNat * 2 ^ 20
      + p.op.x2.wave.toNat * 2 ^ 24 + p.op.x3.wave.toNat * 2 ^ 28 := by
    unfold presetWord
    rw [BitVec.toNat_ofNat]
    exact Nat.mod_eq_of_lt (by omega)
  unfold bits
  rw [hp]
  generalize unsext16 p.algId = a at *
  generalize p.op.x0.wave.toNat = a0 at *
  generalize p.op.x1.wave.toNat = a1 at *
  generalize p.op.x2.wave.toNat = a2 at *
  generalize p.op.x3.wave.toNat = a3 at *
  refine ⟨?_, ?_, ?_, ?_, ?_⟩ <;> omega

/-- The payload word that is sent for a Preset is the one it was read with, if that had its reserved bits 0 (30_encoding.md R91). -/
theorem Preset.HasWord.presetWord_eq {p : Preset N} {pw : BitVec 32} (h : p.HasWord pw) (h0 : pw &&& 0x88880000#32 = 0#32) :
    presetWord p = pw := by
  have hu : unsext16 p.algId = bits pw 15 0 := by
    have := bits_lt pw 15 0
    rw [h.algId]
    unfold unsext16 sext16
    split_ifs <;> omega
  have hm : ∀ i : Fin 4, (0x88880000#32).getLsbD (19 + 4 * i.val) = true := by decide
  have hb : ∀ i : Fin 4, pw.toNat / 2 ^ (19 + 4 * i.val) % 2 = 0 := by
    intro i
    have hi := congrArg (fun b : BitVec 32 => b.getLsbD (19 + 4 * i.val)) h0
    simp only [BitVec.getLsbD_and, hm i, Bool.and_true, BitVec.getLsbD_zero] at hi
    rw [BitVec.getLsbD, Nat.testBit_eq_decide_div_mod_eq, decide_eq_false_iff_not] at hi
    omega
  have b0 := hb 0
  have b1 := hb 1
  have b2 := hb 2
  have b3 := hb 3
  have hlt := pw.isLt
  apply BitVec.eq_of_toNat_eq
  unfold presetWord
  rw [BitVec.toNat_ofNat, hu, h.wave0, h.wave1, h.wave2, h.wave3]
  simp only [BitVec.toNat_ofNat]
  simp only [bits, Fin.val_zero, Fin.val_one, Fin.val_two, show ((3 : Fin 4) : ℕ) = 3 from rfl] at *
  omega

/-- The reading of a Preset whose payload word is `pw`. -/
theorem takePreset_word (pw : BitVec 32) (r : List (ItemOf N)) :
    takePreset (.word pw :: r) =
      takeOp (bits pw 18 16) r fun o0 r => takeOp (bits pw 22 20) r fun o1 r =>
      takeOp (bits pw 26 24) r fun o2 r => takeOp (bits pw 30 28) r fun o3 r =>
      takeNum r fun feedback r => takeNum r fun fmDepth r =>
        .ok (.loadp { algId := sext16 (bits pw 15 0), op := ⟨o0, o1, o2, o3⟩, feedback, fmDepth }, r) := rfl

end Decoder

theorem sext16_unsext16 {id : Int} (h : fitsSigned16 id = true) : sext16 (unsext16 id) = id := by
  simp only [fitsSigned16, Bool.and_eq_true, decide_eq_true_eq] at h
  unfold sext16 unsext16
  split_ifs with h1 <;> omega

theorem unsext16_lt (id : Int) : unsext16 id < 65536 := by
  unfold unsext16
  omega

theorem fitsSigned16_sext16 {v : Nat} (h : v < 65536) : fitsSigned16 (sext16 v) = true := by
  simp only [fitsSigned16, Bool.and_eq_true, decide_eq_true_eq]
  unfold sext16
  split_ifs with h1 <;> omega

end Sys2Proof
end

