-- ==== Sys2Proof/Laws/Numeric.lean ====
section
/-! SUPPORT. Ranges and fixed points of the helper functions, and what each operand form can answer. -/

namespace Sys2Proof

variable {N : Type} [Field N] [LinearOrder N] [IsStrictOrderedRing N]

omit [Field N] [IsStrictOrderedRing N] in
theorem clamp_of_mem {a b x : N} (h1 : a ≤ x) (h2 : x ≤ b) : clamp x a b = x := by
  simp [clamp, not_lt.mpr h1, not_lt.mpr h2]

theorem clamp01_mem (x : N) : 0 ≤ clamp01 x ∧ clamp01 x ≤ 1 := clamp_mem zero_le_one x

omit [IsStrictOrderedRing N] in
theorem clamp01_of_mem {x : N} (h1 : 0 ≤ x) (h2 : x ≤ 1) : clamp01 x = x := clamp_of_mem h1 h2

theorem clamp01_of_nonpos {x : N} (h : x ≤ 0) : clamp01 x = 0 := by
  unfold clamp01 clamp
  split_ifs with h1 h2
  · rfl
  · exact absurd (h2.trans_le h) (not_lt.mpr zero_le_one)
  · exact le_antisymm h (not_lt.mp h1)

theorem clamp01_of_one_le {x : N} (h : 1 ≤ x) : clamp01 x = 1 := by
  unfold clamp01 clamp
  split_ifs with h1 h2
  · exact absurd (zero_lt_one.trans_le h) (not_lt.mpr h1.le)
  · rfl
  · exact le_antisymm (not_lt.mp h2) h

omit [Field N] [IsStrictOrderedRing N] in
/-- `max(x, a)` in a linear order. -/
theorem atLeast_eq_max (a x : N) : atLeast a x = max x a := by
  unfold atLeast
  split_ifs with h
  · exact (max_eq_right h.le).symm
  · exact (max_eq_left (not_lt.mp h)).symm

namespace Numerics

variable (K : Numerics N)

omit [IsStrictOrderedRing N] in
theorem two_pi_pos : 0 < 2 * K.pi := (K.wrap_mem 0).1.trans_lt (K.wrap_mem 0).2

theorem pi_pos : 0 < K.pi := (mul_pos_iff_of_pos_left two_pos).mp K.two_pi_pos

omit [IsStrictOrderedRing N] in
/-- `wrap` takes off a whole number of turns. -/
theorem wrap_turns (x : N) : ∃ k : ℤ, K.wrap x = x - 2 * K.pi * k := ⟨_, rfl⟩

/-- The part of a number in [0, 2π) is the only one that differs from it by a whole number of turns. -/
theorem wrap_unique {x θ : N} {k : ℤ} (h : x = θ + 2 * K.pi * k) (h1 : 0 ≤ θ) (h2 : θ < 2 * K.pi) : K.wrap x = θ := by
  obtain ⟨n, hn⟩ := K.wrap_turns x
  have hp := K.two_pi_pos
  have hm := K.wrap_mem x
  have hd : K.wrap x - θ = 2 * K.pi * ((k - n : ℤ) : N) := by rw [hn, h]; push_cast; ring
  have hlt : ((k - n : ℤ) : N) < 1 := lt_of_mul_lt_mul_left (by linarith : 2 * K.pi * _ < 2 * K.pi * 1) hp.le
  have hgt : -1 < ((k - n : ℤ) : N) := lt_of_mul_lt_mul_left (by linarith : 2 * K.pi * (-1) < 2 * K.pi * _) hp.le
  have h0 : k - n = 0 := by
    have : k - n < 1 := by exact_mod_cast hlt
    have : -1 < k - n := by exact_mod_cast hgt
    omega
  rw [h0] at hd
  simpa [sub_eq_zero] using hd

/-- `wrap` is the identity on [0, 2π). -/
theorem wrap_of_mem {x : N} (h1 : 0 ≤ x) (h2 : x < 2 * K.pi) : K.wrap x = x :=
  K.wrap_unique (k := 0) (by simp) h1 h2

/-- `wrap` has period 2π (40_waveform.md R116). -/
theorem wrap_add_turns (x : N) (k : ℤ) : K.wrap (x + 2 * K.pi * k) = K.wrap x := by
  obtain ⟨n, hn⟩ := K.wrap_turns x
  refine K.wrap_unique (k := n + k) ?_ (K.wrap_mem x).1 (K.wrap_mem x).2
  rw [hn]
  push_cast
  ring

omit [IsStrictOrderedRing N] in
theorem div_of_ne {x y : N} (h : y ≠ 0) : K.div x y = x / y := by
  simp [NumericOps.div, h]

omit [IsStrictOrderedRing N] in
/-- `rhu` under the exact floor (00_scope.md R12). -/
theorem Exact.rhu_eq [FloorRing N] {K : Numerics N} (h : K.Exact) (x : N) : K.rhu x = ⌊x + 1 / 2⌋ := h _

end Numerics

namespace Machine

omit [IsStrictOrderedRing N] in
/-- `SETOP.RATIO` clamps with `max` (45_parameters.md R192). -/
theorem setRatioValue_eq (v : N) : setRatioValue v = max v 0 := atLeast_eq_max 0 v

omit [IsStrictOrderedRing N] in
/-- The envelope-time setters clamp with `max` (45_parameters.md R198). -/
theorem setTimeValue_eq (C : Config N) (v : N) : setTimeValue C v = max v C.tMin := atLeast_eq_max C.tMin v

omit [IsStrictOrderedRing N] in
theorem setRatioValue_nonneg (v : N) : 0 ≤ setRatioValue v := by
  simp [setRatioValue_eq]

theorem tMin_le_setTimeValue (C : Config N) (v : N) : C.tMin ≤ setTimeValue C v := by
  simp [setTimeValue_eq]

theorem lockRatioValue_mem (v : N) : 0 ≤ lockRatioValue v ∧ lockRatioValue v ≤ 8 := by
  have h := clamp01_mem v
  unfold lockRatioValue
  constructor <;> linarith

theorem softClip_mem (K : Numerics N) (s : N) : -1 ≤ softClip K s ∧ softClip K s ≤ 1 :=
  clamp_mem (by linarith [zero_lt_one (α := N)]) _

/-- Under the laws of `tanh` the clamp never acts (44_render.md R170, 90_conflicts.md C7). -/
theorem softClip_eq (K : Numerics N) (s : N) : softClip K s = K.tanh (s * (7 / 10)) * (8 / 10) := by
  unfold softClip
  push_cast
  have h1 := K.neg_one_le_tanh (s * (7 / 10))
  have h2 := K.tanh_le_one (s * (7 / 10))
  exact clamp_of_mem (by linarith) (by linarith)

/-- A morph of a non-negative cell towards a non-negative one stays non-negative (42_algorithm.md R140 (f)). -/
theorem morphCell_nonneg {cur target a : N} (h1 : 0 ≤ cur) (h2 : 0 ≤ target) (h3 : 0 ≤ a) (h4 : a ≤ 1) :
    0 ≤ morphCell cur target a := by
  have := mul_nonneg h2 h3
  have := mul_nonneg h1 (sub_nonneg.mpr h4)
  unfold morphCell
  linarith

end Machine

end Sys2Proof
end

