-- ==== Sys2Proof/Laws/Envelope.lean ====
section
/-! SUPPORT. What one advance of an envelope can do (41_envelope.md R122 to R129). -/

namespace Sys2Proof.Machine

open Sys2Proof

@[simp] theorem Env.noteOn_state {N : Type} (e : Env N) : e.noteOn.state = .attack := rfl

@[simp] theorem Env.noteOn_level {N : Type} (e : Env N) : e.noteOn.level = e.level := rfl

@[simp] theorem Env.noteOff_state {N : Type} (e : Env N) : e.noteOff.state = .release := rfl

@[simp] theorem Env.noteOff_level {N : Type} (e : Env N) : e.noteOff.level = e.level := rfl

section AnyNumbers

variable {N : Type} [Zero N] [One N] [Add N] [Sub N] [Mul N] [Div N] [Neg N] [NatCast N] [IntCast N] [RatCast N]
  [LE N] [LT N] [DecidableLE N] [DecidableLT N] [DecidableEq N]
  (C : Config N) (e : Env N)

theorem Env.rule_of_attack (h : e.state = .attack) : e.rule C = e.attackRule C := by simp [Env.rule, h]

theorem Env.rule_of_decay (h : e.state = .decay) : e.rule C = e.decayRule C := by simp [Env.rule, h]

theorem Env.rule_of_sustain (h : e.state = .sustain) : e.rule C = { e with level := e.sustain } := by simp [Env.rule, h]

theorem Env.rule_of_release (h : e.state = .release) : e.rule C = e.releaseRule C := by simp [Env.rule, h]

theorem Env.rule_of_idle (h : e.state = .idle) : e.rule C = { e with level := 0 } := by simp [Env.rule, h]

/-- The rule of a state changes the state and the level and nothing else, and goes nowhere but along the table. -/
theorem Env.rule_cases :
    ∃ st lv, e.rule C = { e with state := st, level := lv } ∧
      (st = e.state ∨ (e.state = .attack ∧ st = .decay) ∨ (e.state = .decay ∧ st = .sustain) ∨
        (e.state = .release ∧ st = .idle)) := by
  cases h : e.state with
  | attack =>
    rw [e.rule_of_attack C h]
    by_cases hl : 1 ≤ e.level + C.div 1 (e.attack * C.fs)
    · exact ⟨.decay, 1, by simp [Env.attackRule, hl], by simp⟩
    · exact ⟨.attack, _, by simp [Env.attackRule, hl, ← h]; rfl, by simp⟩
  | decay =>
    rw [e.rule_of_decay C h]
    by_cases hl : e.level - C.div (1 - e.sustain) (e.decay * C.fs) ≤ e.sustain
    · exact ⟨.sustain, e.sustain, by simp only [Env.decayRule, if_pos hl], by simp⟩
    · exact ⟨.decay, _, by simp only [Env.decayRule, if_neg hl, ← h]; rfl, by simp⟩
  | sustain => exact ⟨.sustain, e.sustain, by rw [e.rule_of_sustain C h, ← h], by simp⟩
  | release =>
    rw [e.rule_of_release C h]
    by_cases hl : e.level - C.div e.sustain (e.release * C.fs) ≤ 0
    · exact ⟨.idle, 0, by simp only [Env.releaseRule, if_pos hl], by simp⟩
    · exact ⟨.release, _, by simp only [Env.releaseRule, if_neg hl, ← h]; rfl, by simp⟩
  | idle => exact ⟨.idle, 0, by rw [e.rule_of_idle C h, ← h], by simp⟩

/-- An advance writes the state and the level and nothing else (41_envelope.md R122). -/
theorem Env.advance_cases :
    ∃ st lv, e.advance C = { e with state := st, level := clamp01 lv } ∧
      (st = e.state ∨ (e.state = .attack ∧ st = .decay) ∨ (e.state = .decay ∧ st = .sustain) ∨
        (e.state = .release ∧ st = .idle)) := by
  obtain ⟨st, lv, h1, h2⟩ := e.rule_cases C
  exact ⟨st, lv, by unfold Env.advance; rw [h1], h2⟩

@[simp] theorem Env.advance_attack : (e.advance C).attack = e.attack := by
  obtain ⟨_, _, h, -⟩ := e.advance_cases C
  rw [h]

@[simp] theorem Env.advance_decay : (e.advance C).decay = e.decay := by
  obtain ⟨_, _, h, -⟩ := e.advance_cases C
  rw [h]

@[simp] theorem Env.advance_sustain : (e.advance C).sustain = e.sustain := by
  obtain ⟨_, _, h, -⟩ := e.advance_cases C
  rw [h]

@[simp] theorem Env.advance_release : (e.advance C).release = e.release := by
  obtain ⟨_, _, h, -⟩ := e.advance_cases C
  rw [h]

@[simp] theorem Env.advance_state : (e.advance C).state = (e.rule C).state := rfl

theorem Env.advance_level : (e.advance C).level = clamp01 (e.rule C).level := rfl

end AnyNumbers

/-- The level an advance answers lies in [0,1], whatever the registers held (10_state.md R32). -/
theorem Env.advance_level_mem {N : Type} [Field N] [LinearOrder N] [IsStrictOrderedRing N] (C : Config N) (e : Env N) :
    0 ≤ (e.advance C).level ∧ (e.advance C).level ≤ 1 := clamp01_mem _

end Sys2Proof.Machine
end

