-- ==== Sys2Proof/Laws/State.lean ====
section
/-! SUPPORT. What each update of the registers leaves and writes: one lemma per field per update. -/

set_option linter.unusedSectionVars false

namespace Sys2Proof.Machine

open Sys2Proof

section Plain

variable {N : Type} (e : Engine N)

@[simp] theorem Engine.emit_op (ev : Event N) : (e.emit ev).op = e.op := rfl
@[simp] theorem Engine.emit_algId (ev : Event N) : (e.emit ev).algId = e.algId := rfl
@[simp] theorem Engine.emit_matrix (ev : Event N) : (e.emit ev).matrix = e.matrix := rfl
@[simp] theorem Engine.emit_mask (ev : Event N) : (e.emit ev).mask = e.mask := rfl
@[simp] theorem Engine.emit_f0 (ev : Event N) : (e.emit ev).f0 = e.f0 := rfl
@[simp] theorem Engine.emit_fbReg (ev : Event N) : (e.emit ev).fbReg = e.fbReg := rfl
@[simp] theorem Engine.emit_feedback (ev : Event N) : (e.emit ev).feedback = e.feedback := rfl
@[simp] theorem Engine.emit_fmDepth (ev : Event N) : (e.emit ev).fmDepth = e.fmDepth := rfl
@[simp] theorem Engine.emit_isNoteOn (ev : Event N) : (e.emit ev).isNoteOn = e.isNoteOn := rfl
@[simp] theorem Engine.emit_curNote (ev : Event N) : (e.emit ev).curNote = e.curNote := rfl
@[simp] theorem Engine.emit_curVel (ev : Event N) : (e.emit ev).curVel = e.curVel := rfl
@[simp] theorem Engine.emit_prevOut (ev : Event N) : (e.emit ev).prevOut = e.prevOut := rfl
@[simp] theorem Engine.emit_pc (ev : Event N) : (e.emit ev).pc = e.pc := rfl
@[simp] theorem Engine.emit_fr (ev : Event N) : (e.emit ev).fr = e.fr := rfl
@[simp] theorem Engine.emit_outs (ev : Event N) : (e.emit ev).outs = e.outs ++ [ev] := rfl

@[simp] theorem Engine.mapEnv_op (f : Env N → Env N) : (e.mapEnv f).op = e.op.map fun b => { b with env := f b.env } := rfl
@[simp] theorem Engine.mapEnv_algId (f : Env N → Env N) : (e.mapEnv f).algId = e.algId := rfl
@[simp] theorem Engine.mapEnv_matrix (f : Env N → Env N) : (e.mapEnv f).matrix = e.matrix := rfl
@[simp] theorem Engine.mapEnv_mask (f : Env N → Env N) : (e.mapEnv f).mask = e.mask := rfl
@[simp] theorem Engine.mapEnv_f0 (f : Env N → Env N) : (e.mapEnv f).f0 = e.f0 := rfl
@[simp] theorem Engine.mapEnv_fbReg (f : Env N → Env N) : (e.mapEnv f).fbReg = e.fbReg := rfl
@[simp] theorem Engine.mapEnv_feedback (f : Env N → Env N) : (e.mapEnv f).feedback = e.feedback := rfl
@[simp] theorem Engine.mapEnv_fmDepth (f : Env N → Env N) : (e.mapEnv f).fmDepth = e.fmDepth := rfl
@[simp] theorem Engine.mapEnv_isNoteOn (f : Env N → Env N) : (e.mapEnv f).isNoteOn = e.isNoteOn := rfl
@[simp] theorem Engine.mapEnv_curNote (f : Env N → Env N) : (e.mapEnv f).curNote = e.curNote := rfl
@[simp] theorem Engine.mapEnv_curVel (f : Env N → Env N) : (e.mapEnv f).curVel = e.curVel := rfl
@[simp] theorem Engine.mapEnv_prevOut (f : Env N → Env N) : (e.mapEnv f).prevOut = e.prevOut := rfl
@[simp] theorem Engine.mapEnv_pc (f : Env N → Env N) : (e.mapEnv f).pc = e.pc := rfl
@[simp] theorem Engine.mapEnv_fr (f : Env N → Env N) : (e.mapEnv f).fr = e.fr := rfl
@[simp] theorem Engine.mapEnv_outs (f : Env N → Env N) : (e.mapEnv f).outs = e.outs := rfl

@[simp] theorem Engine.setNoteFlag_op (on : Bool) : (e.setNoteFlag on).op = e.op := rfl
@[simp] theorem Engine.setNoteFlag_algId (on : Bool) : (e.setNoteFlag on).algId = e.algId := rfl
@[simp] theorem Engine.setNoteFlag_matrix (on : Bool) : (e.setNoteFlag on).matrix = e.matrix := rfl
@[simp] theorem Engine.setNoteFlag_mask (on : Bool) : (e.setNoteFlag on).mask = e.mask := rfl
@[simp] theorem Engine.setNoteFlag_f0 (on : Bool) : (e.setNoteFlag on).f0 = e.f0 := rfl
@[simp] theorem Engine.setNoteFlag_fbReg (on : Bool) : (e.setNoteFlag on).fbReg = e.fbReg := rfl
@[simp] theorem Engine.setNoteFlag_feedback (on : Bool) : (e.setNoteFlag on).feedback = e.feedback := rfl
@[simp] theorem Engine.setNoteFlag_fmDepth (on : Bool) : (e.setNoteFlag on).fmDepth = e.fmDepth := rfl
@[simp] theorem Engine.setNoteFlag_isNoteOn (on : Bool) : (e.setNoteFlag on).isNoteOn = on := rfl
@[simp] theorem Engine.setNoteFlag_curNote (on : Bool) : (e.setNoteFlag on).curNote = e.curNote := rfl
@[simp] theorem Engine.setNoteFlag_curVel (on : Bool) : (e.setNoteFlag on).curVel = e.curVel := rfl
@[simp] theorem Engine.setNoteFlag_prevOut (on : Bool) : (e.setNoteFlag on).prevOut = e.prevOut := rfl
@[simp] theorem Engine.setNoteFlag_pc (on : Bool) : (e.setNoteFlag on).pc = e.pc := rfl
@[simp] theorem Engine.setNoteFlag_fr (on : Bool) : (e.setNoteFlag on).fr = e.fr := rfl
@[simp] theorem Engine.setNoteFlag_outs (on : Bool) : (e.setNoteFlag on).outs = e.outs := rfl

@[simp] theorem Engine.noteOff_op  : (e.noteOff).op = e.op.map fun b => { b with env := b.env.noteOff } := rfl
@[simp] theorem Engine.noteOff_algId  : (e.noteOff).algId = e.algId := rfl
@[simp] theorem Engine.noteOff_matrix  : (e.noteOff).matrix = e.matrix := rfl
@[simp] theorem Engine.noteOff_mask  : (e.noteOff).mask = e.mask := rfl
@[simp] theorem Engine.noteOff_f0  : (e.noteOff).f0 = e.f0 := rfl
@[simp] theorem Engine.noteOff_fbReg  : (e.noteOff).fbReg = e.fbReg := rfl
@[simp] theorem Engine.noteOff_feedback  : (e.noteOff).feedback = e.feedback := rfl
@[simp] theorem Engine.noteOff_fmDepth  : (e.noteOff).fmDepth = e.fmDepth := rfl
@[simp] theorem Engine.noteOff_isNoteOn  : (e.noteOff).isNoteOn = false := rfl
@[simp] theorem Engine.noteOff_curNote  : (e.noteOff).curNote = e.curNote := rfl
@[simp] theorem Engine.noteOff_curVel  : (e.noteOff).curVel = e.curVel := rfl
@[simp] theorem Engine.noteOff_prevOut  : (e.noteOff).prevOut = e.prevOut := rfl
@[simp] theorem Engine.noteOff_pc  : (e.noteOff).pc = e.pc := rfl
@[simp] theorem Engine.noteOff_fr  : (e.noteOff).fr = e.fr := rfl
@[simp] theorem Engine.noteOff_outs  : (e.noteOff).outs = e.outs := rfl

@[simp] theorem Engine.writeOp_algId (i : Nat) (f : OpBank N → OpBank N) : (e.writeOp i f).algId = e.algId := by unfold Engine.writeOp; split <;> rfl
@[simp] theorem Engine.writeOp_matrix (i : Nat) (f : OpBank N → OpBank N) : (e.writeOp i f).matrix = e.matrix := by unfold Engine.writeOp; split <;> rfl
@[simp] theorem Engine.writeOp_mask (i : Nat) (f : OpBank N → OpBank N) : (e.writeOp i f).mask = e.mask := by unfold Engine.writeOp; split <;> rfl
@[simp] theorem Engine.writeOp_f0 (i : Nat) (f : OpBank N → OpBank N) : (e.writeOp i f).f0 = e.f0 := by unfold Engine.writeOp; split <;> rfl
@[simp] theorem Engine.writeOp_fbReg (i : Nat) (f : OpBank N → OpBank N) : (e.writeOp i f).fbReg = e.fbReg := by unfold Engine.writeOp; split <;> rfl
@[simp] theorem Engine.writeOp_feedback (i : Nat) (f : OpBank N → OpBank N) : (e.writeOp i f).feedback = e.feedback := by unfold Engine.writeOp; split <;> rfl
@[simp] theorem Engine.writeOp_fmDepth (i : Nat) (f : OpBank N → OpBank N) : (e.writeOp i f).fmDepth = e.fmDepth := by unfold Engine.writeOp; split <;> rfl
@[simp] theorem Engine.writeOp_isNoteOn (i : Nat) (f : OpBank N → OpBank N) : (e.writeOp i f).isNoteOn = e.isNoteOn := by unfold Engine.writeOp; split <;> rfl
@[simp] theorem Engine.writeOp_curNote (i : Nat) (f : OpBank N → OpBank N) : (e.writeOp i f).curNote = e.curNote := by unfold Engine.writeOp; split <;> rfl
@[simp] theorem Engine.writeOp_curVel (i : Nat) (f : OpBank N → OpBank N) : (e.writeOp i f).curVel = e.curVel := by unfold Engine.writeOp; split <;> rfl
@[simp] theorem Engine.writeOp_prevOut (i : Nat) (f : OpBank N → OpBank N) : (e.writeOp i f).prevOut = e.prevOut := by unfold Engine.writeOp; split <;> rfl
@[simp] theorem Engine.writeOp_pc (i : Nat) (f : OpBank N → OpBank N) : (e.writeOp i f).pc = e.pc := by unfold Engine.writeOp; split <;> rfl
@[simp] theorem Engine.writeOp_fr (i : Nat) (f : OpBank N → OpBank N) : (e.writeOp i f).fr = e.fr := by unfold Engine.writeOp; split <;> rfl
@[simp] theorem Engine.writeOp_outs (i : Nat) (f : OpBank N → OpBank N) : (e.writeOp i f).outs = e.outs := by unfold Engine.writeOp; split <;> rfl

@[simp] theorem Engine.retire_pc : e.retire.pc = e.pc + 1 := rfl
@[simp] theorem Engine.retire_op : e.retire.op = e.op := rfl
@[simp] theorem Engine.retire_algId : e.retire.algId = e.algId := rfl
@[simp] theorem Engine.retire_matrix : e.retire.matrix = e.matrix := rfl
@[simp] theorem Engine.retire_mask : e.retire.mask = e.mask := rfl
@[simp] theorem Engine.retire_f0 : e.retire.f0 = e.f0 := rfl
@[simp] theorem Engine.retire_fbReg : e.retire.fbReg = e.fbReg := rfl
@[simp] theorem Engine.retire_feedback : e.retire.feedback = e.feedback := rfl
@[simp] theorem Engine.retire_fmDepth : e.retire.fmDepth = e.fmDepth := rfl
@[simp] theorem Engine.retire_isNoteOn : e.retire.isNoteOn = e.isNoteOn := rfl
@[simp] theorem Engine.retire_curNote : e.retire.curNote = e.curNote := rfl
@[simp] theorem Engine.retire_curVel : e.retire.curVel = e.curVel := rfl
@[simp] theorem Engine.retire_prevOut : e.retire.prevOut = e.prevOut := rfl
@[simp] theorem Engine.retire_fr : e.retire.fr = e.fr := rfl
@[simp] theorem Engine.retire_outs : e.retire.outs = e.outs := rfl

@[simp] theorem Engine.capp_eq : e.capp = e.emit (.presetOut e.capture) := rfl

@[simp] theorem Engine.startRender_zero : e.startRender 0 = e.retire := rfl

@[simp] theorem Engine.startRender_of_ne {n : Nat} (h : n ≠ 0) : e.startRender n = { e with fr := n } := if_neg h

end Plain

section Ordered

variable {N : Type} [Zero N] [One N] [Add N] [Sub N] [Mul N] [Div N] [Neg N] [NatCast N] [IntCast N] [RatCast N]
  [LE N] [LT N] [DecidableLE N] [DecidableLT N] [DecidableEq N] (C : Config N) (e : Engine N)

@[simp] theorem Engine.noteOn_op (note : Nat) (vel : N) : (e.noteOn C.toNumerics note vel).op = e.op.map fun b => { b with env := b.env.noteOn } := rfl
@[simp] theorem Engine.noteOn_algId (note : Nat) (vel : N) : (e.noteOn C.toNumerics note vel).algId = e.algId := rfl
@[simp] theorem Engine.noteOn_matrix (note : Nat) (vel : N) : (e.noteOn C.toNumerics note vel).matrix = e.matrix := rfl
@[simp] theorem Engine.noteOn_mask (note : Nat) (vel : N) : (e.noteOn C.toNumerics note vel).mask = e.mask := rfl
@[simp] theorem Engine.noteOn_f0 (note : Nat) (vel : N) : (e.noteOn C.toNumerics note vel).f0 = noteFreq C.toNumerics note := rfl
@[simp] theorem Engine.noteOn_fbReg (note : Nat) (vel : N) : (e.noteOn C.toNumerics note vel).fbReg = e.fbReg := rfl
@[simp] theorem Engine.noteOn_feedback (note : Nat) (vel : N) : (e.noteOn C.toNumerics note vel).feedback = e.feedback := rfl
@[simp] theorem Engine.noteOn_fmDepth (note : Nat) (vel : N) : (e.noteOn C.toNumerics note vel).fmDepth = e.fmDepth := rfl
@[simp] theorem Engine.noteOn_isNoteOn (note : Nat) (vel : N) : (e.noteOn C.toNumerics note vel).isNoteOn = true := rfl
@[simp] theorem Engine.noteOn_curNote (note : Nat) (vel : N) : (e.noteOn C.toNumerics note vel).curNote = note := rfl
@[simp] theorem Engine.noteOn_curVel (note : Nat) (vel : N) : (e.noteOn C.toNumerics note vel).curVel = clamp01 vel := rfl
@[simp] theorem Engine.noteOn_prevOut (note : Nat) (vel : N) : (e.noteOn C.toNumerics note vel).prevOut = e.prevOut := rfl
@[simp] theorem Engine.noteOn_pc (note : Nat) (vel : N) : (e.noteOn C.toNumerics note vel).pc = e.pc := rfl
@[simp] theorem Engine.noteOn_fr (note : Nat) (vel : N) : (e.noteOn C.toNumerics note vel).fr = e.fr := rfl
@[simp] theorem Engine.noteOn_outs (note : Nat) (vel : N) : (e.noteOn C.toNumerics note vel).outs = e.outs := rfl

/-! Each lock and setter is one of the shared updates. -/

@[simp] theorem Engine.lockRatio_eq (i : Nat) (v : N) :
    e.lockRatio i v = e.writeOp i fun b => { b with ratio := lockRatioValue v } := rfl
@[simp] theorem Engine.lockLvl_eq (i : Nat) (v : N) :
    e.lockLvl i v = e.writeOp i fun b => { b with level := lockLvlValue v } := rfl
@[simp] theorem Engine.setopRatio_eq (i : Nat) (v : N) :
    e.setopRatio i v = e.writeOp i fun b => { b with ratio := setRatioValue v } := rfl
@[simp] theorem Engine.setopLvl_eq (i : Nat) (v : N) :
    e.setopLvl i v = e.writeOp i fun b => { b with level := setUnitValue v } := rfl
@[simp] theorem Engine.setopLforate_eq (i : Nat) (v : N) :
    e.setopLforate i v = e.writeOp i fun b => { b with lfoRate := v } := rfl
@[simp] theorem Engine.setopLfoamt_eq (i : Nat) (v : N) :
    e.setopLfoamt i v = e.writeOp i fun b => { b with lfoAmount := setUnitValue v } := rfl
@[simp] theorem Engine.setopVsens_eq (i : Nat) (v : N) :
    e.setopVsens i v = e.writeOp i fun b => { b with velSens := v } := rfl
@[simp] theorem Engine.setopSus_eq (i : Nat) (v : N) :
    e.setopSus i v = e.writeOp i fun b => { b with env := { b.env with sustain := setUnitValue v } } := rfl
@[simp] theorem Engine.setopWave_eq (i wc : Nat) :
    e.setopWave i wc = e.writeOp i fun b => { b with wave := (Wave.ofCode wc).getD b.wave } := rfl
@[simp] theorem Engine.setopAtk_eq (i : Nat) (v : N) :
    e.setopAtk C i v = e.writeOp i fun b => { b with env := { b.env with attack := setTimeValue C v } } := rfl
@[simp] theorem Engine.setopDec_eq (i : Nat) (v : N) :
    e.setopDec C i v = e.writeOp i fun b => { b with env := { b.env with decay := setTimeValue C v } } := rfl
@[simp] theorem Engine.setopRel_eq (i : Nat) (v : N) :
    e.setopRel C i v = e.writeOp i fun b => { b with env := { b.env with release := setTimeValue C v } } := rfl
@[simp] theorem Engine.lockAlg_eq (v : N) : e.lockAlg C v = e.selectAlg C (lockAlgId C.toNumerics v) := rfl
@[simp] theorem Engine.lockDepth_eq (v : N) : e.lockDepth C v = { e with fmDepth := lockDepthValue C v } := rfl
@[simp] theorem Engine.lockFb_eq (v : N) : e.lockFb C v = { e with feedback := lockFbValue C v } := rfl

@[simp] theorem Engine.selectAlg_op (id : Int) : (e.selectAlg C id).op = e.op := rfl
@[simp] theorem Engine.selectAlg_algId (id : Int) : (e.selectAlg C id).algId = id := rfl
@[simp] theorem Engine.selectAlg_matrix (id : Int) : (e.selectAlg C id).matrix = (memReadAlg C id).matrix := rfl
@[simp] theorem Engine.selectAlg_mask (id : Int) : (e.selectAlg C id).mask = (memReadAlg C id).mask := rfl
@[simp] theorem Engine.selectAlg_f0 (id : Int) : (e.selectAlg C id).f0 = e.f0 := rfl
@[simp] theorem Engine.selectAlg_fbReg (id : Int) : (e.selectAlg C id).fbReg = e.fbReg := rfl
@[simp] theorem Engine.selectAlg_feedback (id : Int) : (e.selectAlg C id).feedback = e.feedback := rfl
@[simp] theorem Engine.selectAlg_fmDepth (id : Int) : (e.selectAlg C id).fmDepth = e.fmDepth := rfl
@[simp] theorem Engine.selectAlg_isNoteOn (id : Int) : (e.selectAlg C id).isNoteOn = e.isNoteOn := rfl
@[simp] theorem Engine.selectAlg_curNote (id : Int) : (e.selectAlg C id).curNote = e.curNote := rfl
@[simp] theorem Engine.selectAlg_curVel (id : Int) : (e.selectAlg C id).curVel = e.curVel := rfl
@[simp] theorem Engine.selectAlg_prevOut (id : Int) : (e.selectAlg C id).prevOut = e.prevOut := rfl
@[simp] theorem Engine.selectAlg_pc (id : Int) : (e.selectAlg C id).pc = e.pc := rfl
@[simp] theorem Engine.selectAlg_fr (id : Int) : (e.selectAlg C id).fr = e.fr := rfl
@[simp] theorem Engine.selectAlg_outs (id : Int) : (e.selectAlg C id).outs = e.outs := rfl

@[simp] theorem Engine.loadPreset_op (p : Preset N) : (e.loadPreset C p).op = Quad.ofFn fun i => (e.op.get i).load (p.op.get i) := rfl
@[simp] theorem Engine.loadPreset_algId (p : Preset N) : (e.loadPreset C p).algId = p.algId := rfl
@[simp] theorem Engine.loadPreset_matrix (p : Preset N) : (e.loadPreset C p).matrix = (memReadAlg C p.algId).matrix := rfl
@[simp] theorem Engine.loadPreset_mask (p : Preset N) : (e.loadPreset C p).mask = (memReadAlg C p.algId).mask := rfl
@[simp] theorem Engine.loadPreset_f0 (p : Preset N) : (e.loadPreset C p).f0 = e.f0 := rfl
@[simp] theorem Engine.loadPreset_fbReg (p : Preset N) : (e.loadPreset C p).fbReg = e.fbReg := rfl
@[simp] theorem Engine.loadPreset_feedback (p : Preset N) : (e.loadPreset C p).feedback = p.feedback := rfl
@[simp] theorem Engine.loadPreset_fmDepth (p : Preset N) : (e.loadPreset C p).fmDepth = p.fmDepth := rfl
@[simp] theorem Engine.loadPreset_isNoteOn (p : Preset N) : (e.loadPreset C p).isNoteOn = e.isNoteOn := rfl
@[simp] theorem Engine.loadPreset_curNote (p : Preset N) : (e.loadPreset C p).curNote = e.curNote := rfl
@[simp] theorem Engine.loadPreset_curVel (p : Preset N) : (e.loadPreset C p).curVel = e.curVel := rfl
@[simp] theorem Engine.loadPreset_prevOut (p : Preset N) : (e.loadPreset C p).prevOut = e.prevOut := rfl
@[simp] theorem Engine.loadPreset_pc (p : Preset N) : (e.loadPreset C p).pc = e.pc := rfl
@[simp] theorem Engine.loadPreset_fr (p : Preset N) : (e.loadPreset C p).fr = e.fr := rfl
@[simp] theorem Engine.loadPreset_outs (p : Preset N) : (e.loadPreset C p).outs = e.outs := rfl

@[simp] theorem Engine.morph_op (id : Int) (amount : N) : (e.morph C id amount).op = e.op := rfl
@[simp] theorem Engine.morph_algId (id : Int) (amount : N) : (e.morph C id amount).algId = e.algId := rfl
@[simp] theorem Engine.morph_matrix (id : Int) (amount : N) : (e.morph C id amount).matrix =
    Quad.ofFn fun m => Quad.ofFn fun t => morphCell ((e.matrix.get m).get t) (((memReadAlg C id).matrix.get m).get t) (clamp01 amount) := rfl
@[simp] theorem Engine.morph_mask (id : Int) (amount : N) : (e.morph C id amount).mask = e.mask := rfl
@[simp] theorem Engine.morph_f0 (id : Int) (amount : N) : (e.morph C id amount).f0 = e.f0 := rfl
@[simp] theorem Engine.morph_fbReg (id : Int) (amount : N) : (e.morph C id amount).fbReg = e.fbReg := rfl
@[simp] theorem Engine.morph_feedback (id : Int) (amount : N) : (e.morph C id amount).feedback = e.feedback := rfl
@[simp] theorem Engine.morph_fmDepth (id : Int) (amount : N) : (e.morph C id amount).fmDepth = e.fmDepth := rfl
@[simp] theorem Engine.morph_isNoteOn (id : Int) (amount : N) : (e.morph C id amount).isNoteOn = e.isNoteOn := rfl
@[simp] theorem Engine.morph_curNote (id : Int) (amount : N) : (e.morph C id amount).curNote = e.curNote := rfl
@[simp] theorem Engine.morph_curVel (id : Int) (amount : N) : (e.morph C id amount).curVel = e.curVel := rfl
@[simp] theorem Engine.morph_prevOut (id : Int) (amount : N) : (e.morph C id amount).prevOut = e.prevOut := rfl
@[simp] theorem Engine.morph_pc (id : Int) (amount : N) : (e.morph C id amount).pc = e.pc := rfl
@[simp] theorem Engine.morph_fr (id : Int) (amount : N) : (e.morph C id amount).fr = e.fr := rfl
@[simp] theorem Engine.morph_outs (id : Int) (amount : N) : (e.morph C id amount).outs = e.outs := rfl

end Ordered

section Frame

variable {N : Type} [Zero N] [One N] [Add N] [Sub N] [Mul N] [Div N] [Neg N] [NatCast N] [IntCast N] [RatCast N]
  [LE N] [LT N] [DecidableLE N] [DecidableLT N] [DecidableEq N] (C : Config N) (nz : Quad N)
  (e : Engine N)

@[simp] theorem Engine.frame_op  : (e.frame C nz).op = e.op.map (OpBank.next C e.f0) := rfl
@[simp] theorem Engine.frame_algId  : (e.frame C nz).algId = e.algId := rfl
@[simp] theorem Engine.frame_matrix  : (e.frame C nz).matrix = e.matrix := rfl
@[simp] theorem Engine.frame_mask  : (e.frame C nz).mask = e.mask := rfl
@[simp] theorem Engine.frame_f0  : (e.frame C nz).f0 = e.f0 := rfl
@[simp] theorem Engine.frame_fbReg  : (e.frame C nz).fbReg = e.opOut C nz 0 := rfl
@[simp] theorem Engine.frame_feedback  : (e.frame C nz).feedback = e.feedback := rfl
@[simp] theorem Engine.frame_fmDepth  : (e.frame C nz).fmDepth = e.fmDepth := rfl
@[simp] theorem Engine.frame_isNoteOn  : (e.frame C nz).isNoteOn = e.isNoteOn := rfl
@[simp] theorem Engine.frame_curNote  : (e.frame C nz).curNote = e.curNote := rfl
@[simp] theorem Engine.frame_curVel  : (e.frame C nz).curVel = e.curVel := rfl
@[simp] theorem Engine.frame_prevOut  : (e.frame C nz).prevOut = Quad.ofFn (e.opOut C nz) := rfl
@[simp] theorem Engine.frame_pc  : (e.frame C nz).pc = e.pc := rfl
@[simp] theorem Engine.frame_fr  : (e.frame C nz).fr = e.fr := rfl
@[simp] theorem Engine.frame_outs  : (e.frame C nz).outs = e.outs ++ [.sample (softClip C.toNumerics (e.mix C nz))] := rfl

@[simp] theorem Engine.frameStep_op  : (e.frameStep C nz).op = e.op.map (OpBank.next C e.f0) := rfl
@[simp] theorem Engine.frameStep_algId  : (e.frameStep C nz).algId = e.algId := rfl
@[simp] theorem Engine.frameStep_matrix  : (e.frameStep C nz).matrix = e.matrix := rfl
@[simp] theorem Engine.frameStep_mask  : (e.frameStep C nz).mask = e.mask := rfl
@[simp] theorem Engine.frameStep_f0  : (e.frameStep C nz).f0 = e.f0 := rfl
@[simp] theorem Engine.frameStep_fbReg  : (e.frameStep C nz).fbReg = e.opOut C nz 0 := rfl
@[simp] theorem Engine.frameStep_feedback  : (e.frameStep C nz).feedback = e.feedback := rfl
@[simp] theorem Engine.frameStep_fmDepth  : (e.frameStep C nz).fmDepth = e.fmDepth := rfl
@[simp] theorem Engine.frameStep_isNoteOn  : (e.frameStep C nz).isNoteOn = e.isNoteOn := rfl
@[simp] theorem Engine.frameStep_curNote  : (e.frameStep C nz).curNote = e.curNote := rfl
@[simp] theorem Engine.frameStep_curVel  : (e.frameStep C nz).curVel = e.curVel := rfl
@[simp] theorem Engine.frameStep_prevOut  : (e.frameStep C nz).prevOut = Quad.ofFn (e.opOut C nz) := rfl
@[simp] theorem Engine.frameStep_pc  : (e.frameStep C nz).pc = if e.fr = 1 then e.pc + 1 else e.pc := rfl
@[simp] theorem Engine.frameStep_fr  : (e.frameStep C nz).fr = e.fr - 1 := rfl
@[simp] theorem Engine.frameStep_outs  : (e.frameStep C nz).outs = e.outs ++ [.sample (softClip C.toNumerics (e.mix C nz))] := rfl

end Frame

/-! ### The state around the registers -/

theorem State.retire_eq (s : State) (e : Engine Scalar) :
    s.retire e = .next { s with eng := { e with pc := e.pc + 1 } } := rfl

theorem State.retire_next_iff (s t : State) (e : Engine Scalar) :
    s.retire e = .next t ↔ t = { s with eng := { e with pc := e.pc + 1 } } := by
  simp [State.retire_eq, eq_comm]

@[simp] theorem State.send_eng (s : State) (items : List Item) : (s.send items).eng = s.eng := rfl

@[simp] theorem State.send_cmdIn (s : State) (items : List Item) : (s.send items).cmdIn = s.cmdIn ++ items := rfl

@[simp] theorem State.assertRst_eng (s : State) : s.assertRst.eng = State.reset.eng := rfl

@[simp] theorem State.assertRst_cmdIn (s : State) : s.assertRst.cmdIn = s.cmdIn := rfl

@[simp] theorem State.assertRst_noiseIdx (s : State) : s.assertRst.noiseIdx = s.noiseIdx := rfl

@[simp] theorem State.assertRst_noisePort (s : State) : s.assertRst.noisePort = s.noisePort := rfl

end Sys2Proof.Machine
end

