-- ==== Sys2Proof/Laws/Exec.lean ====
section
/-! SUPPORT. What a command, a fetch and a step can do, said once: later proofs cite these and unfold none of them. -/

namespace Sys2Proof.Machine

open Sys2Proof

/-- The registers after a command that is not `RENDER`, but for `pc`. -/
def Engine.after (C : Config Scalar) : Instr → Engine Scalar → Engine Scalar
  | .nop, e => e
  | .noteon note vel, e => e.noteOn C.toNumerics note vel
  | .noteoff, e => e.noteOff
  | .render _, e => e
  | .setalg id, e => e.selectAlg C id
  | .morph id amount, e => e.morph C id amount
  | .lockAlg v, e => e.lockAlg C v
  | .lockDepth v, e => e.lockDepth C v
  | .lockFb v, e => e.lockFb C v
  | .lockRatio i v, e => e.lockRatio i v
  | .lockLvl i v, e => e.lockLvl i v
  | .setopRatio i v, e => e.setopRatio i v
  | .setopLvl i v, e => e.setopLvl i v
  | .setopWave i wc, e => e.setopWave i wc
  | .setopLforate i v, e => e.setopLforate i v
  | .setopLfoamt i v, e => e.setopLfoamt i v
  | .setopVsens i v, e => e.setopVsens i v
  | .setopAtk i v, e => e.setopAtk C i v
  | .setopDec i v, e => e.setopDec C i v
  | .setopSus i v, e => e.setopSus i v
  | .setopRel i v, e => e.setopRel C i v
  | .loadp p, e => e.loadPreset C p
  | .capp, e => e.capp

/-- The two ends of `LOADP`, the one command that can be refused. -/
theorem exec_loadp (p : Preset Scalar) (s : State) :
    exec (.loadp p) s =
      if p.Valid Config.chip.tMin then s.retire (s.eng.loadPreset Config.chip p) else .refused .invalidPreset := by
  simp only [exec, execLoadp, Engine.loadp]
  split_ifs <;> rfl

/-- Everything a command can do, if it answers a next state: load the frame counter (`RENDER n` with frames), or complete with the
registers of `Engine.after`; a `LOADP` then carried a valid Preset. -/
theorem exec_cases {i : Instr} {s t : State} (h : exec i s = .next t) :
    (∃ n, i = .render n ∧ n ≠ 0 ∧ t = { s with eng := { s.eng with fr := n } }) ∨
      ((∀ n, i = .render n → n = 0) ∧ (∀ p, i = .loadp p → p.Valid Config.chip.tMin) ∧
        s.retire (s.eng.after Config.chip i) = .next t) := by
  cases i with
  | render n =>
    by_cases hn : n = 0
    · subst hn
      exact .inr ⟨by simp, by simp, h⟩
    · refine .inl ⟨n, rfl, hn, ?_⟩
      simpa [exec, execRender, Engine.startRender, hn, eq_comm] using h
  | loadp p =>
    rw [exec_loadp] at h
    by_cases hp : p.Valid Config.chip.tMin
    · rw [if_pos hp] at h
      exact .inr ⟨by simp, by rintro q ⟨⟩; exact hp, h⟩
    · rw [if_neg hp] at h
      cases h
  | _ => exact .inr ⟨by simp, by simp, h⟩

/-- What a command does to the registers is what it does to them in the machine. -/
theorem State.withEngine_next {s t : State} {o : Host.Outcome (Engine Scalar) Fault Refusal} (h : s.withEngine o = .next t) :
    o = .next t.eng := by
  cases o with
  | next e => cases h; rfl
  | fault r => cases h
  | refused r => cases h

/-- The machine refuses what its registers' command refuses, for the same reason. -/
theorem State.withEngine_refused_iff {s : State} {o : Host.Outcome (Engine Scalar) Fault Refusal} {r : Refusal} :
    s.withEngine o = .refused r ↔ o = .refused r := by
  cases o <;> simp [State.withEngine]

/-- Everything a fetch can answer. -/
theorem State.fetch_ok_iff (s s' : State) (i : Instr) :
    s.fetch = .ok (i, s') ↔ ∃ rest, decode s.cmdIn = .ok (i, rest) ∧ s' = { s with cmdIn := rest } := by
  unfold State.fetch
  cases h : decode s.cmdIn with
  | error r => simp
  | ok v =>
    obtain ⟨j, rest⟩ := v
    constructor
    · intro h'
      simp only [Except.ok.injEq, Prod.mk.injEq] at h'
      exact ⟨rest, by rw [h'.1], h'.2.symm⟩
    · rintro ⟨r, h1, rfl⟩
      simp only [Except.ok.injEq, Prod.mk.injEq] at h1
      rw [h1.1, h1.2]

theorem State.fetch_error_iff (s : State) (r : DecodeError) : s.fetch = .error r ↔ decode s.cmdIn = .error r := by
  unfold State.fetch
  cases decode s.cmdIn <;> simp

/-- Everything a step can do, if it answers a next state: a frame, a command, or nothing while the port waits. -/
theorem step_cases {s t : State} (h : step s = .next t) :
    (s.eng.fr ≠ 0 ∧ execFrame s = .next t) ∨
      (s.eng.fr = 0 ∧ ∃ i rest, decode s.cmdIn = .ok (i, rest) ∧ exec i { s with cmdIn := rest } = .next t) ∨
      (s.eng.fr = 0 ∧ decode s.cmdIn = .error .incomplete ∧ t = s) := by
  unfold step at h
  split_ifs at h with hf
  · cases hd : s.fetch with
    | ok v =>
      obtain ⟨i, s'⟩ := v
      obtain ⟨rest, h1, rfl⟩ := (s.fetch_ok_iff s' i).mp hd
      rw [hd] at h
      exact .inr (.inl ⟨hf, i, rest, h1, h⟩)
    | error r =>
      rw [hd] at h
      have h1 := (s.fetch_error_iff r).mp hd
      cases r with
      | incomplete => exact .inr (.inr ⟨hf, h1, by cases h; rfl⟩)
      | reserved opc => simp [State.noCommand, Engine.noCommand, State.withEngine] at h
      | itemKind => simp [State.noCommand, Engine.noCommand, State.withEngine] at h
  · exact .inl ⟨hf, h⟩

end Sys2Proof.Machine
end

