-- ==== Sys2Proof/Laws/PerInstr.lean ====
section
/-! SUPPORT. Statements about every instruction, one lemma per constructor.

`EncodeLength`: an encoded command has as many items as the length table gives its opcode (30_encoding.md R84). -/

namespace Sys2Proof.Laws.EncodeLength

open Sys2Proof

/-- The opcode of the header an encoding begins with. -/
def opcodeOf (xs : List Item) : Nat :=
  match xs with
  | .word h :: _ => opcode h
  | _ => 0

/-- The encoding of a well-formed command is as long as `commandLength` says of its own opcode. -/
def Statement (i : Instr) : Prop := WellFormed i = true → (encode i).length = commandLength (opcodeOf (encode i))

theorem of_header {opc f : Nat} {r : List Item} (h1 : opc < 256) (h2 : f < 2 ^ 24)
    (h3 : r.length + 1 = commandLength opc) :
    (header opc f :: r).length = commandLength (opcodeOf (header opc f :: r)) := by
  simpa only [header, opcodeOf, opcode_headerWord h1 h2, List.length_cons] using h3

theorem of_selected {opc i code low : Nat} {v : Scalar} (h1 : opc < 256) (h2 : i ≤ 255) (h3 : code ≤ 255) (h4 : low ≤ 255)
    (h5 : commandLength opc = 2) :
    (selected opc i code low v).length = commandLength (opcodeOf (selected opc i code low v)) :=
  of_header h1 (by omega) (by simp [h5])

theorem le_of_fitsByte {i : Nat} (h : fitsByte i = true) : i ≤ 255 := by simpa [fitsByte] using h

theorem nop : Statement .nop := fun _ => of_header (by omega) (by omega) rfl

theorem noteon (note : Nat) (vel : Scalar) : Statement (.noteon note vel) := fun h =>
  of_header (by omega) (by simp [WellFormed] at h; omega) rfl

theorem noteoff : Statement .noteoff := fun _ => of_header (by omega) (by omega) rfl

theorem render (n : Nat) : Statement (.render n) := fun h =>
  of_header (by omega) (by simp [WellFormed] at h; omega) rfl

theorem setalg (id : Int) : Statement (.setalg id) := fun _ =>
  of_header (by omega) ((unsext16_lt id).trans (by omega)) rfl

theorem morph (id : Int) (amount : Scalar) : Statement (.morph id amount) := fun _ =>
  of_header (by omega) ((unsext16_lt id).trans (by omega)) rfl

theorem lockAlg (v : Scalar) : Statement (.lockAlg v) := fun _ =>
  of_selected (by omega) (by omega) (by omega) (by omega) rfl

theorem lockDepth (v : Scalar) : Statement (.lockDepth v) := fun _ =>
  of_selected (by omega) (by omega) (by omega) (by omega) rfl

theorem lockFb (v : Scalar) : Statement (.lockFb v) := fun _ =>
  of_selected (by omega) (by omega) (by omega) (by omega) rfl

theorem lockRatio (i : Nat) (v : Scalar) : Statement (.lockRatio i v) := fun h =>
  of_selected (by omega) (le_of_fitsByte h) (by omega) (by omega) rfl

theorem lockLvl (i : Nat) (v : Scalar) : Statement (.lockLvl i v) := fun h =>
  of_selected (by omega) (le_of_fitsByte h) (by omega) (by omega) rfl

theorem setopRatio (i : Nat) (v : Scalar) : Statement (.setopRatio i v) := fun h =>
  of_selected (by omega) (le_of_fitsByte h) (by omega) (by omega) rfl

theorem setopLvl (i : Nat) (v : Scalar) : Statement (.setopLvl i v) := fun h =>
  of_selected (by omega) (le_of_fitsByte h) (by omega) (by omega) rfl

theorem setopWave (i wc : Nat) : Statement (.setopWave i wc) := fun h => by
  simp only [WellFormed, Bool.and_eq_true] at h
  exact of_selected (by omega) (le_of_fitsByte h.1) (by omega) (le_of_fitsByte h.2) rfl

theorem setopLforate (i : Nat) (v : Scalar) : Statement (.setopLforate i v) := fun h =>
  of_selected (by omega) (le_of_fitsByte h) (by omega) (by omega) rfl

theorem setopLfoamt (i : Nat) (v : Scalar) : Statement (.setopLfoamt i v) := fun h =>
  of_selected (by omega) (le_of_fitsByte h) (by omega) (by omega) rfl

theorem setopVsens (i : Nat) (v : Scalar) : Statement (.setopVsens i v) := fun h =>
  of_selected (by omega) (le_of_fitsByte h) (by omega) (by omega) rfl

theorem setopAtk (i : Nat) (v : Scalar) : Statement (.setopAtk i v) := fun h =>
  of_selected (by omega) (le_of_fitsByte h) (by omega) (by omega) rfl

theorem setopDec (i : Nat) (v : Scalar) : Statement (.setopDec i v) := fun h =>
  of_selected (by omega) (le_of_fitsByte h) (by omega) (by omega) rfl

theorem setopSus (i : Nat) (v : Scalar) : Statement (.setopSus i v) := fun h =>
  of_selected (by omega) (le_of_fitsByte h) (by omega) (by omega) rfl

theorem setopRel (i : Nat) (v : Scalar) : Statement (.setopRel i v) := fun h =>
  of_selected (by omega) (le_of_fitsByte h) (by omega) (by omega) rfl

theorem loadp (p : Preset Scalar) : Statement (.loadp p) := fun _ => of_header (by omega) (by omega) rfl

theorem capp : Statement .capp := fun _ => of_header (by omega) (by omega) rfl

end Sys2Proof.Laws.EncodeLength
end

