-- ==== Sys2Proof/Laws/Quad.lean ====
section
/-! SUPPORT. The small lemmas of the bundle of four: reading what was built, and equality entry by entry. -/

namespace Sys2Proof.Quad

variable {α β : Type}

@[simp] theorem get_zero (q : Quad α) : q.get 0 = q.x0 := rfl

@[simp] theorem get_one (q : Quad α) : q.get 1 = q.x1 := rfl

@[simp] theorem get_two (q : Quad α) : q.get 2 = q.x2 := rfl

@[simp] theorem get_three (q : Quad α) : q.get 3 = q.x3 := rfl

@[simp] theorem get_ofFn (f : Fin 4 → α) (i : Fin 4) : (ofFn f).get i = f i := by
  fin_cases i <;> rfl

@[simp] theorem get_const (a : α) (i : Fin 4) : (const a).get i = a := by
  fin_cases i <;> rfl

@[simp] theorem get_map (f : α → β) (q : Quad α) (i : Fin 4) : (q.map f).get i = f (q.get i) := by
  fin_cases i <;> rfl

theorem get_update (q : Quad α) (i j : Fin 4) (f : α → α) :
    (q.update i f).get j = if j = i then f (q.get j) else q.get j := by
  simp [update]

@[simp] theorem get_update_self (q : Quad α) (i : Fin 4) (f : α → α) : (q.update i f).get i = f (q.get i) := by
  simp [get_update]

theorem get_update_ne (q : Quad α) {i j : Fin 4} (f : α → α) (h : j ≠ i) : (q.update i f).get j = q.get j := by
  simp [get_update, h]

/-- Two bundles with the same four entries are equal. -/
theorem ext_get {p q : Quad α} (h : ∀ i, p.get i = q.get i) : p = q :=
  Quad.ext (h 0) (h 1) (h 2) (h 3)

theorem forall_get {P : α → Prop} {q : Quad α} : (∀ i, P (q.get i)) ↔ P q.x0 ∧ P q.x1 ∧ P q.x2 ∧ P q.x3 := by
  simp [Fin.forall_fin_succ, get]

end Sys2Proof.Quad
end

