-- ==== Sys2Proof/Laws/Sequencer.lean ====
section
/-! SUPPORT. `step` is the machine of 10_state.md R40 over the machine's own numbers, and the step count of 30_encoding.md R99. -/

namespace Sys2Proof.Machine

open Sys2Proof

/-! ### The machine of core is the machine of every number system -/

/-- `exec` is `Engine.perform` over the machine's own numbers. -/
theorem exec_instr (c : Command Scalar) (s : State) : exec c.instr s = s.withEngine (s.eng.perform Config.chip c) := by
  cases c <;> rfl

/-- A step of the machine is a step of R40 on its registers, with the command that the port holds and the draws that the noise input
gives: it answers the same registers, and it is refused where that is, for the same reason. -/
theorem step_stepOn (s : State) :
    (∀ t, step s = .next t → s.eng.stepOn Config.chip (commandAt 0 s.cmdIn)
      (s.eng.drawNoise Config.chip s.noisePort s.noiseIdx) = .next t.eng) ∧
    ∀ r, step s = .refused r ↔ s.eng.stepOn Config.chip (commandAt 0 s.cmdIn)
      (s.eng.drawNoise Config.chip s.noisePort s.noiseIdx) = .refused r := by
  unfold step Engine.stepOn
  split_ifs with hf
  · cases hd : s.fetch with
    | error r =>
      rw [commandAt_zero_error_iff.mpr ((decode_error_iff _ _).mp ((s.fetch_error_iff r).mp hd))]
      exact ⟨fun _ => State.withEngine_next, fun _ => State.withEngine_refused_iff⟩
    | ok v =>
      obtain ⟨i, s'⟩ := v
      obtain ⟨rest, h1, rfl⟩ := (s.fetch_ok_iff s' i).mp hd
      obtain ⟨c, hc, rfl⟩ := (decode_ok_iff _ _ _).mp h1
      rw [commandAt_zero_iff.mpr ⟨rest, hc⟩]
      simp only [exec_instr]
      exact ⟨fun _ h => State.withEngine_next h, fun _ => State.withEngine_refused_iff⟩
  · exact ⟨fun t h => by cases h; rfl, fun r => by simp [execFrame]⟩

/-- So for every command stream that at `pc` holds what the port holds. -/
theorem step_eq_engineStep {s t : State} (h : step s = .next t) (prog : Nat → Option (Command Scalar))
    (hp : prog s.eng.pc = (commandAt 0 s.cmdIn).toOption) :
    s.eng.step Config.chip prog (s.eng.drawNoise Config.chip s.noisePort s.noiseIdx) = .next t.eng := by
  have h1 := (step_stepOn s).1 t h
  unfold Engine.step
  rw [hp]
  cases hc : commandAt 0 s.cmdIn with
  | ok c => rwa [hc] at h1
  | error r =>
    rw [hc] at h1
    unfold Engine.stepOn at h1 ⊢
    split_ifs at h1 ⊢ with hf
    · cases r <;> simp_all [Engine.noCommand, Except.toOption]
    · exact h1

/-- On the items of a stream whose command at `pc` can be read, or that ends there, the step is that of the commands it holds. -/
theorem Engine.itemStep_eq_step {N : Type} [Zero N] [One N] [Add N] [Sub N] [Mul N] [Div N] [Neg N] [NatCast N] [IntCast N]
    [RatCast N] [LE N] [LT N] [DecidableLE N] [DecidableLT N] [DecidableEq N] (C : Config N) (xs : List (ItemOf N)) (nz : Quad N)
    (e : Engine N) (h : ∀ r, commandAt e.pc xs = .error r → r = .incomplete) :
    e.itemStep C xs nz = e.step C (fun k => (commandAt k xs).toOption) nz := by
  unfold Engine.itemStep Engine.step
  cases hc : commandAt e.pc xs with
  | ok c => simp [hc, Except.toOption]
  | error r => simp [hc, h r hc, Except.toOption]

/-! ### Counted steps -/

section Counted

variable {N : Type} [Zero N] [One N] [Add N] [Sub N] [Mul N] [Div N] [Neg N] [NatCast N] [IntCast N] [RatCast N]
  [LE N] [LT N] [DecidableLE N] [DecidableLT N] [DecidableEq N] (C : Config N)

/-- What a command that is no `RENDER` with frames does, if it carries no invalid Preset: it completes. -/
theorem Engine.perform_completes (c : Command N) (e : Engine N) (h1 : ∀ n, c = .render n → n = 0)
    (h2 : ∀ p, c = .loadp p → p.Valid C.tMin) :
    ∃ t, e.perform C c = .next t ∧ t.pc = e.pc + 1 ∧ t.fr = e.fr := by
  cases c with
  | render n => exact ⟨e.retire, by simp [Engine.perform, Engine.startRender, h1 n rfl], rfl, rfl⟩
  | loadp p => exact ⟨(e.loadPreset C p).retire, by simp [Engine.perform, Engine.loadp, h2 p rfl], rfl, rfl⟩
  | _ => exact ⟨_, rfl, by simp, by simp⟩

variable {C} {prog : Nat → Option (Command N)} {e : Engine N}

theorem Engine.countedRun_succ {draws : Nat → Quad N} {n : Nat} {t : Engine N}
    (h : e.countedStep C prog (draws 0) = .next t) :
    e.countedRun C prog draws (n + 1) = t.countedRun C prog (fun k => draws (k + 1)) n := by
  rw [Engine.countedRun, h]

/-- Frames left to render are as many counted steps. -/
theorem Engine.countedRun_frames (n : Nat) : ∀ (draws : Nat → Quad N) (e : Engine N), e.fr = n + 1 →
    ∃ t : Engine N, t.pc = e.pc + 1 ∧ t.fr = 0 ∧ ∀ m, e.countedRun C prog draws (n + 1 + m) =
      t.countedRun C prog (fun k => draws (k + (n + 1))) m := by
  have hs : ∀ (nz : Quad N) (e : Engine N), e.fr ≠ 0 → e.countedStep C prog nz = .next (e.frameStep C nz) := by
    intro nz e h
    simp [Engine.countedStep, Engine.step, Engine.stepOn, h]
  induction n with
  | zero =>
    intro draws e h
    refine ⟨e.frameStep C (draws 0), by simp [Engine.frameStep, h], by simp [Engine.frameStep, h], fun m => ?_⟩
    rw [show 0 + 1 + m = m + 1 by omega, Engine.countedRun_succ (hs _ e (by omega))]
  | succ n ih =>
    intro draws e h
    have hs1 := hs (draws 0) e (by omega)
    obtain ⟨t, h1, h2, h3⟩ := ih (fun k => draws (k + 1)) (e.frameStep C (draws 0)) (by simp [Engine.frameStep, h])
    refine ⟨t, by simp [h1, Engine.frameStep, h], h2, fun m => ?_⟩
    rw [show n + 1 + 1 + m = n + 1 + m + 1 by omega, Engine.countedRun_succ hs1, h3]
    congr 1

/-- One command takes as many counted steps as R99 counts for it. -/
theorem Engine.countedRun_command {c : Command N} (hf : e.fr = 0) (hc : prog e.pc = some c)
    (hv : ∀ p, c = .loadp p → p.Valid C.tMin) (draws : Nat → Quad N) :
    ∃ t : Engine N, t.pc = e.pc + 1 ∧ t.fr = 0 ∧
      ∀ m, e.countedRun C prog draws (c.steps + m) = t.countedRun C prog (fun k => draws (k + c.steps)) m := by
  by_cases hr : ∃ n, c = .render (n + 1)
  · obtain ⟨n, rfl⟩ := hr
    have h1 : ∀ nz, e.countedStep C prog nz = (({ e with fr := n + 1 } : Engine N)).countedStep C prog nz := by
      intro nz
      simp [Engine.countedStep, Engine.step, Engine.stepOn, hf, hc, Engine.perform, Engine.startRender]
    obtain ⟨t, h2, h3, h4⟩ := Engine.countedRun_frames (C := C) (prog := prog) n draws { e with fr := n + 1 } rfl
    refine ⟨t, h2, h3, fun m => ?_⟩
    rw [show Command.steps (.render (n + 1) : Command N) = n + 1 by simp [Command.steps], ← h4 m,
      show n + 1 + m = n + m + 1 by omega]
    simp only [Engine.countedRun, h1]
  · have h0 : ∀ n, c = .render n → n = 0 := fun n hn => by
      by_contra h
      exact hr ⟨n - 1, by rw [hn, Nat.sub_add_cancel (by omega)]⟩
    obtain ⟨t, h1, h2, h3⟩ := e.perform_completes C c h0 hv
    have hsteps : c.steps = 1 := by
      cases c with
      | render n => simp [Command.steps, h0 n rfl]
      | _ => rfl
    refine ⟨t, h2, h3.trans hf, fun m => ?_⟩
    rw [hsteps, Nat.add_comm, Engine.countedRun_succ (t := t)]
    simp [Engine.countedStep, Engine.step, Engine.stepOn, hf, hc, h1, h3]

/-- 30_encoding.md R99: a finite command stream whose Presets are valid runs to its end, with no frame left, in exactly as many
counted steps as R99 counts: the commands that are no `RENDER`, the `RENDER` counts and the `RENDER 0`. -/
theorem Engine.countedRun_stepCount (cs : List (Command N)) : ∀ (pre : List (Command N)) (draws : Nat → Quad N) (e : Engine N),
    e.fr = 0 → e.pc = pre.length → (∀ p, Command.loadp p ∈ cs → p.Valid C.tMin) →
    ∃ t, e.countedRun C (fun k => (pre ++ cs)[k]?) draws (stepCount cs) = .next t ∧ t.pc = (pre ++ cs).length ∧ t.fr = 0 := by
  induction cs with
  | nil => exact fun pre draws e hf hp _ => ⟨e, rfl, by simpa using hp, hf⟩
  | cons c cs ih =>
    intro pre draws e hf hp hv
    obtain ⟨t, h1, h2, h3⟩ := Engine.countedRun_command (C := C) (prog := fun k => (pre ++ c :: cs)[k]?) (c := c) hf
      (by simp [hp]) (fun p hc => hv p (by simp [hc])) draws
    have hl : pre ++ c :: cs = (pre ++ [c]) ++ cs := by simp
    obtain ⟨u, h4, h5, h6⟩ := ih (pre ++ [c]) (fun k => draws (k + c.steps)) t h2 (by simp [h1, hp])
      fun p h => hv p (by simp [h])
    refine ⟨u, ?_, by rw [hl]; exact h5, h6⟩
    rw [show stepCount (c :: cs) = c.steps + stepCount cs by simp [stepCount], h3, hl]
    exact h4

end Counted

/-- A counted step of the machine is one step of it, or two of which the first only loads `fr`. -/
theorem State.countedStep_cases {s t : State} (h : s.countedStep = .next t) :
    Machine.step s = .next t ∨
      ∃ n rest, s.eng.fr = 0 ∧ decode s.cmdIn = .ok (.render n, rest) ∧
        Machine.step s = .next { s with eng := { s.eng with fr := n }, cmdIn := rest } ∧
        Machine.step { s with eng := { s.eng with fr := n }, cmdIn := rest } = .next t := by
  unfold State.countedStep at h
  cases hs : Machine.step s with
  | fault r => rw [hs] at h; cases h
  | refused r => rw [hs] at h; cases h
  | next u =>
    rw [hs] at h
    simp only at h
    split_ifs at h with hc
    · rcases step_cases hs with ⟨hf, -⟩ | ⟨hf, i, rest, hd, he⟩ | ⟨-, -, rfl⟩
      · exact absurd hc.1 hf
      · rcases exec_cases he with ⟨n, rfl, -, rfl⟩ | ⟨h1, -, h2⟩
        · exact .inr ⟨n, rest, hf, hd, rfl, h⟩
        · refine absurd ?_ hc.2
          cases h2
          have : ∀ (i : Instr) (e : Engine Scalar), (e.after Config.chip i).fr = e.fr := by
            intro i e
            cases i <;> simp [Engine.after]
          exact (this i s.eng).trans hf
      · exact absurd hc.1 hc.2
    · exact .inl h

end Sys2Proof.Machine
end

