-- ==== Sys2Proof/Machine/Assembler.lean ====
section
/-! DEFINITION. The assembler: the text form of a command stream and its aliases (30_encoding.md R97, R98). The block never sees a
string: an assembled text is a list of items for the command port. -/

namespace Sys2Proof.Asm

open Sys2Proof

/-! ### Literals -/

/-- The value of a digit in base `base`. -/
def digit (base : Nat) (c : Char) : Option Nat :=
  let d :=
    if '0' ≤ c ∧ c ≤ '9' then c.toNat - 48
    else if 'a' ≤ c ∧ c ≤ 'f' then c.toNat - 87
    else if 'A' ≤ c ∧ c ≤ 'F' then c.toNat - 55
    else base
  if d < base then some d else none

/-- A natural number of at least one digit. -/
def natural (base : Nat) (cs : List Char) : Option Nat :=
  if cs = [] then none else cs.foldlM (fun a c => (digit base c).map fun d => a * base + d) 0

/-- What `p` reads, with a minus sign before it or not. -/
def signed {α : Type} [Neg α] (p : List Char → Option α) (cs : List Char) : Option α :=
  match cs with
  | '-' :: r => (p r).map fun x => -x
  | _ => p cs

/-- An integer in decimal or `0x` hexadecimal (30_encoding.md R97). -/
def integer (w : String) : Option Int :=
  w.toList |> signed fun cs =>
    match cs with
    | '0' :: 'x' :: r => (natural 16 r).map Int.ofNat
    | _ => (natural 10 cs).map Int.ofNat

/-- A natural number, written as an integer. -/
def index (w : String) : Option Nat :=
  match integer w with
  | some (.ofNat n) => some n
  | _ => none

/-- A decimal literal without sign. -/
def decimal (cs : List Char) : Option Scalar :=
  match cs.splitOn '.' with
  | [a] => (natural 10 a).map fun (n : Nat) => (n : Scalar)
  | [a, b] =>
    match natural 10 a, natural 10 b with
    | some n, some k => some (n + k / 10 ^ b.length)
    | _, _ => none
  | _ => none

/-- A numeric operand: a decimal literal or a rational `p/q` (30_encoding.md R97). -/
def numeric (w : String) : Option Scalar :=
  w.toList |> signed fun cs =>
    match cs.splitOn '/' with
    | [a] => decimal a
    | [p, q] =>
      match natural 10 p, natural 10 q with
      | some n, some k => if k = 0 then none else some (n / k)
      | _, _ => none
    | _ => none

/-- The waveform names, which stand for codes 0 to 4 (30_encoding.md R97, 10_state.md R23). -/
def waveCode (w : String) : Option (BitVec 3) :=
  match w with
  | "sine" => some 0
  | "saw" => some 1
  | "square" => some 2
  | "triangle" => some 3
  | "noise" => some 4
  | _ => none

/-- A waveform in a record: its name, or the 3-bit code the name stands for. That a code may stand there is a DESIGN CHOICE (log 21):
30_encoding.md R97 shows a name only. -/
def waveOperand (w : String) : Option (BitVec 3) :=
  waveCode w <|> (index w).bind fun c => if c < 8 then some (BitVec.ofNat 3 c) else none

/-! ### Tokens -/

/-- A word (a quoted key keeps its quotes), a punctuation mark, or the end of a line. -/
inductive Token where
  | word (w : String)
  | mark (c : Char)
  | eol
  deriving DecidableEq, Repr

/-- The opening brace of a record. -/
def openBrace : Char := Char.ofNat 123

/-- The closing brace of a record. -/
def closeBrace : Char := Char.ofNat 125

/-- The word read so far, its letters in reverse, before the tokens after it. -/
def flush (cur : List Char) (ts : List Token) : List Token :=
  if cur = [] then ts else .word (String.ofList cur.reverse) :: ts

/-- Where the scan stands: in a comment, in a quoted key, or in the open. -/
inductive Mode where
  | comment
  | quoted
  | plain
  deriving DecidableEq, Repr

/-- The tokens of a text. A comment runs from `;` to the end of the line (30_encoding.md R97); inside a record, braces open, the
end of a line is a space. -/
def tokens : Mode → Nat → List Char → List Char → List Token
  | _, _, cur, [] => flush cur []
  | m, d, cur, c :: r =>
    if c = '\n' then flush cur (if d = 0 then .eol :: tokens .plain d [] r else tokens .plain d [] r)
    else
      match m with
      | .comment => tokens .comment d [] r
      | .quoted => tokens (if c = '"' then .plain else .quoted) d (c :: cur) r
      | .plain =>
        if c = '"' then tokens .quoted d (c :: cur) r
        else if c = ';' then flush cur (tokens .comment d [] r)
        else if c = ' ' then flush cur (tokens .plain d [] r)
        else if c = openBrace then flush cur (.mark c :: tokens .plain (d + 1) [] r)
        else if c = closeBrace then flush cur (.mark c :: tokens .plain (d - 1) [] r)
        else if c = ',' ∨ c = '=' then flush cur (.mark c :: tokens .plain d [] r)
        else tokens .plain d (c :: cur) r

/-- Operands separated by commas, each one word. -/
def operands : List Token → Option (List String)
  | [] => some []
  | [.word w] => some [w]
  | .word w :: .mark ',' :: t :: r => (operands (t :: r)).map fun ws => w :: ws
  | _ => none

/-! ### The Preset record -/

/-- Takes one punctuation mark. -/
def mark (c : Char) (ts : List Token) : Option (List Token) :=
  match ts with
  | .mark d :: r => if d = c then some r else none
  | _ => none

/-- Takes `name=`. -/
def label (name : String) (ts : List Token) : Option (List Token) :=
  match ts with
  | .word n :: r => if n = name then mark '=' r else none
  | _ => none

/-- Takes `name=value` and reads the value with `p`. -/
def field {α : Type} (name : String) (p : String → Option α) (ts : List Token) : Option (α × List Token) :=
  match label name ts with
  | some (.word w :: r) => (p w).map fun x => (x, r)
  | _ => none

/-- The "silent operator" of 95_test_vectors.md section 0. -/
def silentOperator : OpPreset Scalar := .silent (1 / 3520)

/-- Takes an operator's braced record, its fields in the order of 30_encoding.md R97. -/
def opFields (ts : List Token) : Option (OpPreset Scalar × List Token) := do
  let ts ← mark openBrace ts
  let (ratio, ts) ← field "ratio" numeric ts
  let (level, ts) ← field "level" numeric (← mark ',' ts)
  let (wave, ts) ← field "wave" waveOperand (← mark ',' ts)
  let (lfoRate, ts) ← field "lfoRate" numeric (← mark ',' ts)
  let (lfoAmount, ts) ← field "lfoAmount" numeric (← mark ',' ts)
  let (velSens, ts) ← field "velSens" numeric (← mark ',' ts)
  let (attack, ts) ← field "attack" numeric (← mark ',' ts)
  let (decay, ts) ← field "decay" numeric (← mark ',' ts)
  let (sustain, ts) ← field "sustain" numeric (← mark ',' ts)
  let (release, ts) ← field "release" numeric (← mark ',' ts)
  let ts ← mark closeBrace ts
  pure ({ ratio, level, wave, lfoRate, lfoAmount, velSens, attack, decay, sustain, release }, ts)

/-- Takes `name=` and an operator: its braced record, or the word `silent`, which programs P1 and P2 of 95_test_vectors.md write and
30_encoding.md R97 does not define. That it stands for the silent operator of section 0 there is a DESIGN CHOICE (log 21). -/
def opRecord (name : String) (ts : List Token) : Option (OpPreset Scalar × List Token) :=
  match label name ts with
  | some (.word "silent" :: r) => some (silentOperator, r)
  | some r => opFields r
  | none => none

/-- Reads the braced record that is the operand of `LOADP`, its fields in the order of 30_encoding.md R97. -/
def presetRecord (ts : List Token) : Option (Preset Scalar) := do
  let ts ← mark openBrace ts
  let (algId, ts) ← field "alg" integer ts
  let (x0, ts) ← opRecord "op0" (← mark ',' ts)
  let (x1, ts) ← opRecord "op1" (← mark ',' ts)
  let (x2, ts) ← opRecord "op2" (← mark ',' ts)
  let (x3, ts) ← opRecord "op3" (← mark ',' ts)
  let (feedback, ts) ← field "feedback" numeric (← mark ',' ts)
  let (fmDepth, ts) ← field "fmDepth" numeric (← mark ',' ts)
  if ts = [.mark closeBrace] then some { algId, op := ⟨x0, x1, x2, x3⟩, feedback, fmDepth } else none

/-! ### Commands and aliases -/

/-- The items of a command whose operands its encoding can carry. -/
def items (i : Instr) : Option (List Item) := if WellFormed i then some (encode i) else none

/-- The operator index and the kind that a key `OPn_RATIO` or `OPn_LVL` names, `base` the number that names operator 0
(30_encoding.md R98, 00_scope.md R5). -/
def operatorKey (base : Nat) (cs : List Char) : Option (Nat × String) :=
  match cs with
  | 'O' :: 'P' :: r =>
    match natural 10 (r.takeWhile fun c => c ≠ '_') with
    | some n =>
      if base ≤ n ∧ n - base ≤ 255 then some (n - base, String.ofList (r.dropWhile fun c => c ≠ '_')) else none
    | none => none
  | _ => none

/-- The expansion of `LOCK "key", v` (30_encoding.md R98). Every string that names no lock target is key code 0xFF. -/
def lockAlias (base : Nat) (key : String) (v : Scalar) : List Item :=
  match key with
  | "FM_ALG" => encode (.lockAlg v)
  | "FM_DEPTH" => encode (.lockDepth v)
  | "FM_FB" => encode (.lockFb v)
  | _ =>
    match operatorKey base key.toList with
    | some (i, "_RATIO") => encode (.lockRatio i v)
    | some (i, "_LVL") => encode (.lockLvl i v)
    | _ => selected 0x20 0 0xFF 0 v

/-- The expansion of `RENDERL n` (30_encoding.md R98): full `RENDER` commands and one of the remainder. -/
def renderLong (n : Nat) : List Item :=
  if n ≤ 16777215 then encode (.render n)
  else (List.replicate (n / 16777215) (encode (.render 16777215))).flatten ++ encode (.render (n % 16777215))

/-- The commands with one numeric operand. -/
def plainCommand (m : String) : Option (Scalar → Instr) :=
  match m with
  | "LOCK.ALG" => some .lockAlg
  | "LOCK.DEPTH" => some .lockDepth
  | "LOCK.FB" => some .lockFb
  | _ => none

/-- The commands with an operator index and a numeric operand. -/
def operatorCommand (m : String) : Option (Nat → Scalar → Instr) :=
  match m with
  | "LOCK.RATIO" => some .lockRatio
  | "LOCK.LVL" => some .lockLvl
  | "SETOP.RATIO" => some .setopRatio
  | "SETOP.LVL" => some .setopLvl
  | "SETOP.LFORATE" => some .setopLforate
  | "SETOP.LFOAMT" => some .setopLfoamt
  | "SETOP.VSENS" => some .setopVsens
  | "SETOP.ATK" => some .setopAtk
  | "SETOP.DEC" => some .setopDec
  | "SETOP.SUS" => some .setopSus
  | "SETOP.REL" => some .setopRel
  | _ => none

/-- The letters of a quoted key, or none for a word that is not quoted. -/
def unquote (w : String) : Option String :=
  match w.toList with
  | '"' :: r => if r.getLast? = some '"' then some (String.ofList r.dropLast) else none
  | _ => none

/-- A command with its operands, `LOADP` apart. `LOCK` takes a quoted key (R98) or a raw key code, an index and a value
(95_test_vectors.md P3). -/
def command (base : Nat) (m : String) (ws : List String) : Option (List Item) :=
  match m, ws with
  | "NOP", [] => items .nop
  | "NOTEON", [n, v] => do items (.noteon (← index n) (← numeric v))
  | "NOTEOFF", [] => items .noteoff
  | "RENDER", [n] => do items (.render (← index n))
  | "RENDERL", [n] => (index n).map renderLong
  | "SETALG", [d] => do items (.setalg (← integer d))
  | "MORPH", [d, v] => do items (.morph (← integer d) (← numeric v))
  | "LOCK", [k, v] => do pure (lockAlias base (← unquote k) (← numeric v))
  | "LOCK", [k, i, v] => do
    let k ← index k
    let i ← index i
    let v ← numeric v
    if k ≤ 255 ∧ i ≤ 255 then some (selected 0x20 i k 0 v) else none
  | "SETOP.WAVE", [i, c] => do
    let code ← (waveCode c).map BitVec.toNat <|> index c
    items (.setopWave (← index i) code)
  | "CAPP", [] => items .capp
  | _, [v] => do items ((← plainCommand m) (← numeric v))
  | _, [i, v] => do items ((← operatorCommand m) (← index i) (← numeric v))
  | _, _ => none

/-- The operand of `LOADP`: a braced record (30_encoding.md R97), or one of the names the outside has given a Preset. Program P4 of
95_test_vectors.md writes a name that its comment defines, a form that R97 does not; a table of names is a DESIGN CHOICE (log 21). -/
def presetOperand (names : List (String × Preset Scalar)) (ts : List Token) : Option (Preset Scalar) :=
  match ts with
  | [.word n] => names.lookup n
  | _ => presetRecord ts

/-- One line: nothing, or one command (30_encoding.md R97). -/
def line (base : Nat) (names : List (String × Preset Scalar)) (ts : List Token) : Option (List Item) :=
  match ts with
  | [] => some []
  | .word "LOADP" :: r => do items (.loadp (← presetOperand names r))
  | .word m :: r => do command base m (← operands r)
  | _ => none

/-- The items of a text, none if a line of it is no command (30_encoding.md R97, R98). -/
def assemble (base : Nat) (text : String) (names : List (String × Preset Scalar) := []) : Option (List Item) :=
  (((tokens .plain 0 [] text.toList).splitOn .eol).mapM (line base names)).map List.flatten

/-- The items of a text under the machine's own `LOCK_N_BASE`. -/
def assembleText (text : String) (names : List (String × Preset Scalar) := []) : Option (List Item) :=
  assemble Config.chip.lockNBase text names

end Sys2Proof.Asm
end

