-- ==== Sys2Proof/Tests/Slice0.lean ====
section
/-! SUPPORT. The model's own tests. Expected values come from spec/95_test_vectors.md (the section is named at each test) or are
worked by hand from the rules. `test_witness_…` shows that the hypotheses of an obligation can be met. -/

namespace Sys2Proof.Tests

open Sys2Proof Sys2Proof.Machine

/-! ### The fixture of 95_test_vectors.md section 0 -/

/-- `ROM_T`, id 1: operator 1 modulates the carrier 0. -/
def pairEntry : AlgEntry Scalar := ⟨⟨⟨0, 0, 0, 0⟩, ⟨1, 0, 0, 0⟩, ⟨0, 0, 0, 0⟩, ⟨0, 0, 0, 0⟩⟩, ⟨true, false, false, false⟩⟩

/-- `ROM_T`, id 2: every cell 0.5. -/
def denseEntry : AlgEntry Scalar := ⟨Quad.const (Quad.const (1 / 2)), ⟨true, false, false, false⟩⟩

theorem pairEntry_ok : pairEntry.Ok := by decide +kernel

theorem denseEntry_ok : denseEntry.Ok := by decide +kernel

/-- `ROM_T`. -/
def rom (k : Fin 32) : AlgEntry Scalar :=
  if k = 0 then .parallel else if k = 1 then pairEntry else if k = 2 then denseEntry else .chain

theorem rom_ok (k : Fin 32) : (rom k).Ok := by
  unfold rom
  split_ifs
  exacts [AlgEntry.parallel_ok, pairEntry_ok, denseEntry_ok, AlgEntry.chain_ok]

/-- `CFG_T` over the rationals: `PI` is 3, the sine 0 and `2^x` 1, which the vectors used here do not see. -/
def cfg : Config Scalar :=
  { Config.plain with
    fs := 3520
    fs_pos := by norm_num
    tMin := 1 / 100000
    tMin_pos := by norm_num
    algRom := rom
    algRom_ok := rom_ok
    algRom_parallel := ⟨0, rfl⟩
    resetPreset := { algId := 0, op := Quad.const (.silent (1 / 3520)), feedback := 0, fmDepth := 0 }
    resetPreset_valid := by decide +kernel }

/-- The registers right after reset under the fixture. -/
def e0 : Engine Scalar := Engine.reset cfg

/-- The registers after a command, `pc` left alone, under the fixture. -/
def fx (i : Instr) (e : Engine Scalar) : Engine Scalar := e.after cfg i

/-- A state with the fixture's reset registers and these items on the port. -/
def port (xs : List Item) : State := { eng := e0, cmdIn := xs, noisePort := 0, noiseIdx := 0 }

/-- The registers an outcome leads to. -/
def engOf (o : Host.Outcome State Fault Refusal) : Option (Engine Scalar) :=
  match o with
  | .next t => some t.eng
  | _ => none

/-- An operator that reaches level 1 with the first frame and holds it, without LFO. -/
def opT (ratio level : Scalar) (wave : BitVec 3) (sustain decay release : Scalar) : OpPreset Scalar :=
  { ratio, level, wave, lfoRate := 0, lfoAmount := 0, velSens := 1, attack := 1 / 3520, decay, sustain, release }

/-- The silent operator. -/
def quiet : OpPreset Scalar := .silent (1 / 3520)

/-- `out[0..3]` of one frame after another, with the draws `nz` in every frame. -/
def frames (nz : Quad Scalar) : Nat → Engine Scalar → List (Quad Scalar)
  | 0, _ => []
  | n + 1, e => (e.frame cfg nz).prevOut :: frames nz n (e.frame cfg nz)

/-! ### WellFormed: each check refuses an ill-formed command -/

theorem test_wf_note : WellFormed (.noteon 127 0) = true ∧ WellFormed (.noteon 128 0) = false := by decide

theorem test_wf_frames : WellFormed (.render 16777215) = true ∧ WellFormed (.render 16777216) = false := by decide

theorem test_wf_id : WellFormed (.setalg 32767) = true ∧ WellFormed (.setalg 32768) = false ∧
    WellFormed (.setalg (-32768)) = true ∧ WellFormed (.setalg (-32769)) = false ∧
    WellFormed (.morph 32768 0) = false ∧ WellFormed (.morph (-32769) 0) = false := by decide

theorem test_wf_index : WellFormed (.lockRatio 255 0) = true ∧
    [Instr.lockRatio 256 0, .lockLvl 256 0, .setopRatio 256 0, .setopLvl 256 0, .setopWave 256 0, .setopLforate 256 0,
      .setopLfoamt 256 0, .setopVsens 256 0, .setopAtk 256 0, .setopDec 256 0, .setopSus 256 0, .setopRel 256 0].all
      (fun i => !WellFormed i) = true := by decide

theorem test_wf_wave_code : WellFormed (.setopWave 255 255) = true ∧ WellFormed (.setopWave 0 256) = false := by decide

theorem test_wf_preset : WellFormed (.loadp ⟨-32768, Quad.const quiet, 0, 0⟩) = true ∧
    WellFormed (.loadp ⟨32768, Quad.const quiet, 0, 0⟩) = false := by decide +kernel

/-! ### Decoding: words written from the spec (section 2.8, and R92 for the rows it leaves out) -/

theorem test_decode_note_family :
    decode [.word 0x00000000] = .ok (.nop, []) ∧ decode [.word 0x01450000, .num 1] = .ok (.noteon 69 1, []) ∧
    decode [.word 0x017F0000, .num 0] = .ok (.noteon 127 0, []) ∧ decode [.word 0x02000000] = .ok (.noteoff, []) := by
  exact ⟨rfl, rfl, rfl, rfl⟩

theorem test_decode_render : decode [.word 0x03000008, .num 5] = .ok (.render 8, [.num 5]) ∧
    decode [.word 0x03000000] = .ok (.render 0, []) := ⟨rfl, rfl⟩

theorem test_decode_algorithm_family :
    decode [.word 0x10000020] = .ok (.setalg 32, []) ∧ decode [.word 0x1000FFFF] = .ok (.setalg (-1), []) ∧
    decode [.word 0x11FF0002, .num 1] = .ok (.morph 2 1, []) := ⟨rfl, rfl, rfl⟩

theorem test_decode_lock_family :
    decode [.word 0x20000000, .num 1] = .ok (.lockAlg 1, []) ∧ decode [.word 0x20000100, .num 1] = .ok (.lockDepth 1, []) ∧
    decode [.word 0x20000200, .num 1] = .ok (.lockFb 1, []) ∧ decode [.word 0x20001000, .num 1] = .ok (.lockRatio 0 1, []) ∧
    decode [.word 0x20051100, .num 1] = .ok (.lockLvl 5 1, []) := ⟨rfl, rfl, rfl, rfl, rfl⟩

theorem test_decode_setop_family :
    decode [.word 0x30000000, .num 1] = .ok (.setopRatio 0 1, []) ∧ decode [.word 0x30040100, .num 1] = .ok (.setopLvl 4 1, []) ∧
    decode [.word 0x30020207, .num 1] = .ok (.setopWave 2 7, []) ∧
    decode [.word 0x30010300, .num 1] = .ok (.setopLforate 1 1, []) ∧
    decode [.word 0x30010400, .num 1] = .ok (.setopLfoamt 1 1, []) ∧
    decode [.word 0x30010500, .num 1] = .ok (.setopVsens 1 1, []) ∧ decode [.word 0x30000600, .num 1] = .ok (.nop, []) :=
  ⟨rfl, rfl, rfl, rfl, rfl, rfl, rfl⟩

theorem test_decode_setop_envelope_family :
    decode [.word 0x30000800, .num 1] = .ok (.setopAtk 0 1, []) ∧ decode [.word 0x30020900, .num 1] = .ok (.setopDec 2 1, []) ∧
    decode [.word 0x30FF0A00, .num 1] = .ok (.setopSus 255 1, []) ∧
    decode [.word 0x30030B00, .num 1] = .ok (.setopRel 3 1, []) := ⟨rfl, rfl, rfl, rfl⟩

/-- `PW` = 0x21300028 is `algId` 40 with waves [0,3,1,2]; the nine items of operator 1 are told apart. -/
theorem test_decode_preset_family :
    decode (.word 0x40000000 :: .word 0x21300028 :: ((List.range 38).map fun k : Nat => (.num k : Item)) ++ [.word 0x41000000]) =
      .ok (.loadp { algId := 40
                    op := ⟨⟨0, 1, 0, 2, 3, 4, 5, 6, 7, 8⟩, ⟨9, 10, 3, 11, 12, 13, 14, 15, 16, 17⟩,
                      ⟨18, 19, 1, 20, 21, 22, 23, 24, 25, 26⟩, ⟨27, 28, 2, 29, 30, 31, 32, 33, 34, 35⟩⟩
                    feedback := 36
                    fmDepth := 37 }, [.word 0x41000000]) ∧
    decode [.word 0x41000000] = .ok (.capp, []) := ⟨rfl, rfl⟩

theorem test_decode_preset_words :
    presetWord ({ algId := 0, op := ⟨opT 1 1 2 1 1 1, quiet, quiet, quiet⟩, feedback := 0, fmDepth := 0 } : Preset Scalar) =
      0x00020000 ∧
    presetWord ({ algId := -1, op := Quad.const (opT 1 1 4 1 1 1), feedback := 0, fmDepth := 0 } : Preset Scalar) =
      0x4444FFFF := ⟨rfl, rfl⟩

/-- The host's bit numbering (spec/opcode_table.json). -/
theorem test_table_words : decodeTableWord 32 0x03000008 = some (.render 8) ∧ decodeTableWord 32 0x30020203 = some (.setopWave 2 3) ∧
    decodeTableWord 32 0x7F000000 = none := ⟨rfl, rfl, rfl⟩

/-! ### Commands -/

/-- NO7. -/
theorem test_nop : engOf (exec .nop (port [])) = some { e0 with pc := 1 } := rfl

/-- NO1. -/
theorem test_noteon : (fx (.noteon 69 1) e0).f0 = 440 ∧ ((fx (.noteon 69 1) e0).op.get 3).env.state = .attack ∧
    (fx (.noteon 69 1) e0).curVel = 1 ∧ (fx (.noteon 69 1) e0).isNoteOn = true := by decide +kernel

/-- NO2, NO3. -/
theorem test_noteon_velocity : (fx (.noteon 60 (17 / 10)) e0).curVel = 1 ∧ (fx (.noteon 60 (-1 / 2)) e0).curVel = 0 := by
  decide +kernel

/-- NO5. -/
theorem test_noteoff : (fx .noteoff (fx (.noteon 69 1) e0)).isNoteOn = false ∧
    ((fx .noteoff (fx (.noteon 69 1) e0)).op.get 0).env.state = .release ∧ (fx .noteoff (fx (.noteon 69 1) e0)).f0 = 440 := by
  decide +kernel

/-- BL: `RENDER 0` changes only `pc`. -/
theorem test_render_zero : engOf (exec (.render 0) (port [])) = some { e0 with pc := 1 } := rfl

theorem test_render : engOf (exec (.render 8) (port [])) = some { e0 with fr := 8 } := rfl

/-- SE1. -/
theorem test_setalg : (fx (.setalg 1) e0).matrix = pairEntry.matrix ∧ (fx (.setalg 1) e0).mask = ⟨true, false, false, false⟩ ∧
    (fx (.setalg 1) e0).algId = 1 := by decide +kernel

/-- SE3, SE4. -/
theorem test_setalg_out_of_range : (fx (.setalg 32) e0).matrix = AlgEntry.chain.matrix ∧ (fx (.setalg 32) e0).algId = 32 ∧
    (fx (.setalg (-1)) e0).matrix = AlgEntry.chain.matrix ∧ (fx (.setalg (-1)) e0).algId = -1 := by decide +kernel

/-- MO1, MO2. -/
theorem test_morph : (fx (.morph 2 (1 / 2)) (fx (.setalg 1) e0)).matrix.x1 = ⟨3 / 4, 1 / 4, 1 / 4, 1 / 4⟩ ∧
    (fx (.morph 2 (1 / 2)) (fx (.morph 2 (1 / 2)) (fx (.setalg 1) e0))).matrix.x1 = ⟨5 / 8, 3 / 8, 3 / 8, 3 / 8⟩ ∧
    (fx (.morph 2 (1 / 2)) (fx (.setalg 1) e0)).algId = 1 := by decide +kernel

/-- MO5, MO6, MO7. -/
theorem test_morph_clamps : (fx (.morph 2 (3 / 2)) (fx (.setalg 1) e0)).matrix = denseEntry.matrix ∧
    (fx (.morph 2 (-3)) (fx (.setalg 1) e0)).matrix = pairEntry.matrix ∧
    (fx (.morph 99 (1 / 2)) (fx (.setalg 1) e0)).matrix =
      ⟨⟨0, 0, 0, 0⟩, ⟨1, 0, 0, 0⟩, ⟨0, 1 / 2, 0, 0⟩, ⟨0, 0, 1 / 2, 0⟩⟩ := by decide +kernel

/-- LK1 to LK8. -/
theorem test_lockAlg : lockAlgId cfg.toNumerics (0 : Scalar) = 0 ∧ lockAlgId cfg.toNumerics (1 / 62 : Scalar) = 1 ∧
    lockAlgId cfg.toNumerics (161 / 10000 : Scalar) = 0 ∧ lockAlgId cfg.toNumerics (162 / 10000 : Scalar) = 1 ∧
    lockAlgId cfg.toNumerics (1 / 2 : Scalar) = 16 ∧ lockAlgId cfg.toNumerics (1 : Scalar) = 31 ∧
    lockAlgId cfg.toNumerics (2 : Scalar) = 31 ∧ lockAlgId cfg.toNumerics (-1 : Scalar) = 0 := by decide +kernel

theorem test_lockAlg_selects : (fx (.lockAlg (1 / 2)) e0).algId = 16 ∧ (fx (.lockAlg (1 / 2)) e0).matrix = AlgEntry.chain.matrix := by
  decide +kernel

/-- LK9, LK10. -/
theorem test_lockDepth : (fx (.lockDepth (1 / 4)) e0).fmDepth = 1 / 4 ∧ (fx (.lockDepth 3) e0).fmDepth = 1 := by decide +kernel

/-- LK11, LK12. -/
theorem test_lockFb : (fx (.lockFb 1) e0).feedback = 1 ∧ (fx (.lockFb (-1 / 10)) e0).feedback = 0 := by decide +kernel

/-- LK13 to LK16. -/
theorem test_lockRatio : ((fx (.lockRatio 0 (1 / 4)) e0).op.get 0).ratio = 2 ∧ ((fx (.lockRatio 3 1) e0).op.get 3).ratio = 8 ∧
    ((fx (.lockRatio 1 0) e0).op.get 1).ratio = 0 ∧ fx (.lockRatio 4 (1 / 2)) e0 = e0 := by decide +kernel

/-- LK17, LK18. -/
theorem test_lockLvl : ((fx (.lockLvl 3 (4 / 5)) e0).op.get 3).level = 4 / 5 ∧ fx (.lockLvl 255 (4 / 5)) e0 = e0 := by
  decide +kernel

/-- ST1 to ST3. -/
theorem test_setopRatio : ((fx (.setopRatio 0 2) e0).op.get 0).ratio = 2 ∧ ((fx (.setopRatio 0 12) e0).op.get 0).ratio = 12 ∧
    ((fx (.setopRatio 0 (-1)) e0).op.get 0).ratio = 0 := by decide +kernel

/-- ST4, ST16. -/
theorem test_setopLvl : ((fx (.setopLvl 1 (3 / 2)) e0).op.get 1).level = 1 ∧ fx (.setopLvl 4 1) e0 = e0 := by decide +kernel

/-- ST5, ST6. -/
theorem test_setopWave : ((fx (.setopWave 2 3) e0).op.get 2).wave = .triangle ∧ fx (.setopWave 2 7) e0 = e0 := by decide +kernel

/-- ST7. -/
theorem test_setopLforate : ((fx (.setopLforate 0 5) e0).op.get 0).lfoRate = 5 := by decide +kernel

/-- ST8. -/
theorem test_setopLfoamt : ((fx (.setopLfoamt 0 (-1)) e0).op.get 0).lfoAmount = 0 := by decide +kernel

/-- ST9, ST10. -/
theorem test_setopVsens : ((fx (.setopVsens 0 (1 / 2)) e0).op.get 0).velSens = 1 / 2 ∧
    ((fx (.setopVsens 0 (-2)) e0).op.get 0).velSens = -2 := by decide +kernel

/-- ST11. -/
theorem test_setopAtk : ((fx (.setopAtk 0 0) e0).op.get 0).env.attack = 1 / 100000 := by decide +kernel

/-- ST12. -/
theorem test_setopDec : ((fx (.setopDec 1 (-5)) e0).op.get 1).env.decay = 1 / 100000 := by decide +kernel

/-- ST14, ST15. -/
theorem test_setopSus : ((fx (.setopSus 3 (6 / 5)) e0).op.get 3).env.sustain = 1 ∧
    ((fx (.setopSus 3 (-1 / 5)) e0).op.get 3).env.sustain = 0 := by decide +kernel

/-- ST13. -/
theorem test_setopRel : ((fx (.setopRel 2 (1 / 5)) e0).op.get 2).env.release = 1 / 5 := by decide +kernel

/-- The preset of program P2, its id 40 as at the end of P4. -/
def pt2 : Preset Scalar :=
  { algId := 40, op := ⟨opT 1 1 0 1 (1 / 3520) (1 / 3520), opT 2 (1 / 2) 0 1 (1 / 3520) (1 / 3520), quiet, quiet⟩
    feedback := 1 / 2, fmDepth := 2 }

/-- P4. -/
theorem test_loadp : (fx (.loadp pt2) e0).capture = pt2 ∧ (fx (.loadp pt2) e0).matrix = AlgEntry.chain.matrix := by
  decide +kernel

/-- R213, the worked example: `CAPP` directly after reset. -/
theorem test_capp : (fx .capp e0).outs = [.presetOut cfg.resetPreset] := by decide +kernel

/-! ### Helpers and the waveform generator (sections 2.1, 2.2), π standing for 3 -/

theorem test_helpers : cfg.wrap 6 = 0 ∧ cfg.wrap (15 / 2) = 3 / 2 ∧ cfg.wrap (-3 / 2) = 9 / 2 ∧ cfg.wrap (-6) = 0 ∧
    clamp01 (17 / 10 : Scalar) = 1 ∧ clamp (-3 : Scalar) (-1) 1 = -1 ∧ cfg.rhu (4999 / 10000 : Scalar) = 0 ∧
    cfg.rhu (1 / 2 : Scalar) = 1 ∧ cfg.rhu (61 / 2 : Scalar) = 31 := by decide +kernel

theorem test_waves :
    (List.map (fun k : ℤ => waveGen cfg.toNumerics .saw (k * 3 / 4) 0) [0, 1, 2, 3, 4, 5, 6, 7, 8, -2, 9]) =
      [-1, -3 / 4, -1 / 2, -1 / 4, 0, 1 / 4, 1 / 2, 3 / 4, -1, 1 / 2, -3 / 4] ∧
    (List.map (fun k : ℤ => waveGen cfg.toNumerics .square (k * 3 / 4) 0) [0, 1, 2, 3, 4, 5, 6, 7, 8, -2, 9]) =
      [1, 1, 1, 1, -1, -1, -1, -1, 1, -1, 1] ∧
    (List.map (fun k : ℤ => waveGen cfg.toNumerics .triangle (k * 3 / 4) 0) [0, 1, 2, 3, 4, 5, 6, 7, 8, -2, 9]) =
      [0, 1 / 2, 1, 1 / 2, 0, -1 / 2, -1, -1 / 2, 0, -1, 1 / 2] ∧
    waveGen cfg.toNumerics .noise 7 (3 / 10) = 3 / 10 := by decide +kernel

/-! ### The envelope (section 2.3): `FS` = 4, so that a time of 1 is four calls -/

/-- The fixture at `FS` = 4. -/
def cfg4 : Config Scalar := { cfg with fs := 4, fs_pos := by norm_num }

/-- An idle envelope of EV1. -/
def env4 (sustain : Scalar) : Env Scalar := { attack := 1, decay := 1, sustain, release := 1, state := .idle, level := 0 }

/-- The levels returned by `n` calls. -/
def levels : Nat → Env Scalar → List Scalar
  | 0, _ => []
  | n + 1, e => (e.advance cfg4).level :: levels n (e.advance cfg4)

/-- EV1 and its continuation. -/
theorem test_envelope_whole_note : levels 9 (env4 (1 / 2)).noteOn = [1 / 4, 1 / 2, 3 / 4, 1, 7 / 8, 3 / 4, 5 / 8, 1 / 2, 1 / 2] ∧
    levels 5 ((env4 (1 / 2)).noteOn.advances cfg4 9).noteOff = [3 / 8, 1 / 4, 1 / 8, 0, 0] ∧
    (((env4 (1 / 2)).noteOn.advances cfg4 9).noteOff.advances cfg4 4).state = .idle := by decide +kernel

/-- EV2, EV3: released below and above the sustain level. -/
theorem test_envelope_release_slope : levels 3 ((env4 (1 / 2)).noteOn.advances cfg4 1).noteOff = [1 / 8, 0, 0] ∧
    levels 9 ((env4 (1 / 2)).noteOn.advances cfg4 4).noteOff = [7 / 8, 3 / 4, 5 / 8, 1 / 2, 3 / 8, 1 / 4, 1 / 8, 0, 0] := by
  decide +kernel

/-- EV5, EV6, EV9. -/
theorem test_envelope_corners : levels 3 ((env4 0).noteOn.advances cfg4 2).noteOff = [1 / 2, 1 / 2, 1 / 2] ∧
    levels 6 (env4 1).noteOn = [1 / 4, 1 / 2, 3 / 4, 1, 1, 1] ∧ ((env4 1).noteOn.advances cfg4 5).state = .sustain ∧
    levels 2 (env4 (1 / 2)).noteOff = [0, 0] ∧ ((env4 (1 / 2)).noteOff.advances cfg4 1).state = .idle := by decide +kernel

/-! ### The frame (sections 2.6 and 3) -/

/-- P1 up to frame 7. -/
theorem test_frame_square_note :
    (frames (Quad.const 0) 8 (fx (.noteon 69 1)
      (fx (.loadp ⟨0, ⟨opT 1 1 2 (1 / 2) (1 / 880) (1 / 880), quiet, quiet, quiet⟩, 0, 1⟩) e0))).map Quad.x0 =
      [1, 7 / 8, 3 / 4, 5 / 8, -1 / 2, -1 / 2, -1 / 2, -1 / 2] := by decide +kernel

/-- DN: frame 0 gives `[1, 0.5, 0, 0]`, and the next frame's `modIn` is 0.75 for every target. -/
theorem test_frame_dense_matrix :
    let e := (fx (.noteon 69 1) (fx (.loadp ⟨2, ⟨opT 1 1 2 1 (1 / 3520) (1 / 3520), opT 1 (1 / 2) 2 1 (1 / 3520) (1 / 3520),
      quiet, quiet⟩, 0, 1⟩) e0)).frame cfg (Quad.const 0)
    e.prevOut = ⟨1, 1 / 2, 0, 0⟩ ∧ ∀ t : Fin 4, e.modIn t = 3 / 4 := by decide +kernel

/-- MX (c): operator 1 runs and writes `prevOut[1]` but is not mixed. -/
theorem test_frame_mask :
    let e := fx (.noteon 69 1) (fx (.loadp ⟨1, ⟨opT 1 1 2 1 (1 / 3520) (1 / 3520), opT 1 1 2 1 (1 / 3520) (1 / 3520), quiet, quiet⟩,
      0, 0⟩) e0)
    e.mix cfg (Quad.const 0) = 1 ∧ (e.frame cfg (Quad.const 0)).prevOut = ⟨1, 1, 0, 0⟩ := by decide +kernel

/-- NZ: one draw per frame, operator 0's output. -/
theorem test_frame_noise :
    let e := fx (.noteon 69 1) (fx (.loadp ⟨0, ⟨opT 1 1 4 1 (1 / 3520) (1 / 3520), quiet, quiet, quiet⟩, 0, 0⟩) e0)
    e.drawCount = 1 ∧ (e.frame cfg ⟨-1, 1, 1, 1⟩).prevOut = ⟨-1, 0, 0, 0⟩ := by decide +kernel

/-- P6, the matrix at rest: `fbReg` and `prevOut[0]` hold the same value. -/
theorem test_frame_delay :
    let e := (fx (.noteon 69 (1 / 2)) (fx (.loadp ⟨0, ⟨opT 1 1 2 1 (1 / 3520) (1 / 3520), quiet, quiet, quiet⟩, 1, 0⟩) e0)).frame cfg
      (Quad.const 0)
    e.fbReg = 1 / 2 ∧ e.modIn 0 = 1 / 2 ∧ e.modIn 1 = 0 ∧ e.outs.length = 1 := by decide +kernel

/-! ### The step -/

/-- P3: `SETOP.LVL 3, 0.8` at the head of the port, another command behind it. -/
theorem test_step_command :
    engOf (step (port [.word 0x30030100, .num (4 / 5), .word 0x41000000])) =
      some { fx (.setopLvl 3 (4 / 5)) e0 with pc := 1 } := rfl

/-- R40 (c): the last frame of a `RENDER` moves `pc`. -/
theorem test_step_last_frame :
    (engOf (step { port [] with eng := { e0 with fr := 1 } })).map (fun e => (e.fr, e.pc, e.outs.length)) = some (0, 1, 1) := rfl

/-- The host's placing of an instruction after reset. -/
theorem test_fetch_word : (engOf (step (State.reset.withFetchWord 32 0x03000008))).map (fun e => (e.fr, e.pc)) = some (8, 0) := rfl

/-! ### Every number system, and the step count of 30_encoding.md R99 -/

/-- `RENDER 2; NOTEOFF`. -/
def twoCommands : List (Command Scalar) := [.render 2, .noteoff]

/-- R99 by hand: 2 steps for `RENDER 2`, 1 for `NOTEOFF`, 1 for each `RENDER 0`. -/
theorem test_step_count : stepCount twoCommands = 3 ∧ stepCount [Command.render (N := Scalar) 0, .capp, .render 0] = 3 := ⟨rfl, rfl⟩

/-- R40 (b) loads `fr` in a step of its own; R99's count has the first frame in it. -/
theorem test_sequencer :
    (match e0.step cfg (fun k => twoCommands[k]?) (Quad.const 0) with
      | .next t => (t.fr, t.outs.length)
      | _ => (0, 0)) = (2, 0) ∧
    (match e0.countedStep cfg (fun k => twoCommands[k]?) (Quad.const 0) with
      | .next t => (t.fr, t.outs.length)
      | _ => (0, 0)) = (1, 1) := by decide +kernel

/-- The reference machine runs `NOTEON 60`: `f0` is a number that no rational is (43_note.md R146). -/
theorem test_reference (C : Config ℝ) :
    ∃ t, (Engine.referenceReset C).referenceStep C (fun _ => some (.noteon 60 1)) (Quad.const 0) = .next t ∧
      t.f0 = 440 * (2 : ℝ) ^ (((60 : ℤ) - 69 : ℤ) / 12 : ℝ) ∧ t.pc = 1 := ⟨_, rfl, rfl, rfl⟩

/-! ### A number system with a bit-level port: the whole numbers from -128 to 127 in 8 bits, two's complement -/

/-- The signed order of the words. -/
abbrev le8 : LE (BitVec 8) := ⟨fun a b => a.toInt ≤ b.toInt⟩

abbrev lt8 : LT (BitVec 8) := ⟨fun a b => a.toInt < b.toInt⟩

/-- Division rounded down. -/
abbrev div8 : Div (BitVec 8) := ⟨fun a b => BitVec.ofInt 8 (a.toInt / b.toInt)⟩

/-- A literal is rounded down. -/
abbrev rat8 : RatCast (BitVec 8) := ⟨fun q => BitVec.ofInt 8 q.floor⟩

abbrev decLe8 : @DecidableLE (BitVec 8) le8 := fun a b => inferInstanceAs (Decidable (a.toInt ≤ b.toInt))

abbrev decLt8 : @DecidableLT (BitVec 8) lt8 := fun a b => inferInstanceAs (Decidable (a.toInt < b.toInt))

/-- The configurations over these numbers. -/
abbrev Config8 : Type := @Config (BitVec 8) _ _ _ _ _ div8 _ _ _ rat8 le8 lt8 decLe8 decLt8 _

theorem le8_neg_one_zero : (-1 : BitVec 8).toInt ≤ (0 : BitVec 8).toInt := by decide

theorem le8_zero_one : (0 : BitVec 8).toInt ≤ (1 : BitVec 8).toInt := by decide

theorem lt8_zero_one : (0 : BitVec 8).toInt < (1 : BitVec 8).toInt := by decide

theorem wrap8 : ∀ x : BitVec 8, (0 : BitVec 8).toInt ≤ (x - 2 * 3 * (BitVec.ofInt 8 (BitVec.ofInt 8 (x.toInt / 6)).toInt)).toInt ∧
    (x - 2 * 3 * (BitVec.ofInt 8 (BitVec.ofInt 8 (x.toInt / 6)).toInt)).toInt < (2 * 3 : BitVec 8).toInt := by decide +kernel

/-- One of them: it satisfies every law of 00_scope.md R8 and every constraint of R5, and a number is its own word on the port. -/
def cfg8 : Config8 :=
  letI := le8
  letI := lt8
  letI := div8
  letI := rat8
  letI := decLe8
  letI := decLt8
  { pi := 3
    sin := fun _ => 0
    tanh := fun _ => 0
    exp2 := fun _ => 1
    floor := BitVec.toInt
    divZero := id
    neg_one_le_sin := fun _ => le8_neg_one_zero
    sin_le_one := fun _ => le8_zero_one
    neg_one_le_tanh := fun _ => le8_neg_one_zero
    tanh_le_one := fun _ => le8_zero_one
    tanh_zero := rfl
    tanh_neg := fun _ => rfl
    tanh_mono := fun _ _ _ => Int.le_refl 0
    wrap_mem := wrap8
    clamp_mem := fun x a b h => by
      unfold clamp
      split_ifs with h1 h2
      · exact ⟨Int.le_refl _, h⟩
      · exact ⟨h, Int.le_refl _⟩
      · exact ⟨Int.not_lt.mp h1, Int.not_lt.mp h2⟩
    exp2_zero := rfl
    fs := 1
    fs_pos := lt8_zero_one
    tMin := 1
    tMin_pos := lt8_zero_one
    fmDepthMax := 1
    fmDepthMax_nonneg := le8_zero_one
    fmFbMax := 1
    fmFbMax_nonneg := le8_zero_one
    algRom := fun _ => .parallel
    algRom_ok := fun _ => ⟨fun m t => by fin_cases m <;> fin_cases t <;> exact Int.le_refl 0, 0, rfl⟩
    algRom_parallel := ⟨0, rfl⟩
    algDefault := .chain
    algDefault_ok := ⟨fun m t => by fin_cases m <;> fin_cases t <;> first | exact Int.le_refl 0 | exact le8_zero_one, 0, rfl⟩
    algDefault_shape := ⟨0, fun i => by fin_cases i <;> simp [AlgEntry.chain, Quad.get], fun m => by
      fin_cases m
      · exact .inl rfl
      · exact .inr ⟨0, lt8_zero_one, .inl rfl⟩
      · exact .inr ⟨1, lt8_zero_one, .inr ⟨0, lt8_zero_one, .inl rfl⟩⟩
      · exact .inr ⟨2, lt8_zero_one, .inr ⟨1, lt8_zero_one, .inr ⟨0, lt8_zero_one, rfl⟩⟩⟩⟩
    resetPreset := { algId := 0, op := Quad.const (.silent 1), feedback := 0, fmDepth := 0 }
    resetPreset_valid :=
      have h : @OpPreset.Valid (BitVec 8) _ _ le8 (.silent 1) 1 :=
        ⟨le8_zero_one, ⟨Int.le_refl 0, le8_zero_one⟩, by decide, ⟨Int.le_refl 0, le8_zero_one⟩, Int.le_refl _, Int.le_refl _,
          Int.le_refl _, le8_zero_one, Int.le_refl _⟩
      ⟨h, h, h, h⟩
    wNum := 8
    wire := some ⟨id, id, fun _ => rfl⟩
    lockNBase := 0
    lockNBase_le := by decide
    nTracks := 1
    nTracks_pos := by decide
    noise := fun _ _ => 0
    noise_bounds := fun _ _ => ⟨le8_neg_one_zero, le8_zero_one⟩ }

/-- `LOADP p; CAPP` on its port: waves 3, 0, 1, 2 and every number 1 but `feedback`, which is -128. -/
def words8 : List (WireWord 8) :=
  .word 0x40000000 :: .word 0x21030005 :: ((List.replicate 36 1 ++ [0x80, 1]).map .num ++ [.word 0x41000000])

/-- The machine runs them, and its output port sends the payload back word by word (46_preset.md R214). -/
theorem test_wire :
    letI := le8
    letI := lt8
    letI := div8
    letI := rat8
    letI := decLe8
    letI := decLt8
    ∃ t u, (Engine.reset cfg8).wireStep cfg8 words8 (Quad.const 0) = some (.next t) ∧
      t.wireStep cfg8 words8 (Quad.const 0) = some (.next u) ∧ u.wireOut cfg8 = some (words8.tail.take 39) :=
  ⟨_, _, rfl, rfl, rfl⟩

/-- StepNeverFaultsAndRefusesOnlyThreeThings and ReservedOpcodesAreRefused on a bit-level port: a reserved opcode and a word of the
wrong kind are refused behind a command (log 5, log 6), and so is a `LOADP` with level 2 (log 7); the end of the words is waited at. -/
theorem test_wire_refuses :
    letI := le8
    letI := lt8
    letI := div8
    letI := rat8
    letI := decLe8
    letI := decLt8
    (∃ t, (Engine.reset cfg8).wireStep cfg8 [.word 0x00000000, .word 0x42000000] (Quad.const 0) = some (.next t) ∧
      t.wireStep cfg8 [.word 0x00000000, .word 0x42000000] (Quad.const 0) = some (.refused (.reservedOpcode 0x42)) ∧
      t.wireStep cfg8 [.word 0x00000000, .num 1] (Quad.const 0) = some (.refused .itemKind) ∧
      t.wireStep cfg8 [.word 0x00000000, .word 0x01450000] (Quad.const 0) = some (.next t)) ∧
    (Engine.reset cfg8).wireStep cfg8 (.word 0x40000000 :: .word 0x21030005 :: (List.replicate 38 2).map .num) (Quad.const 0) =
      some (.refused .invalidPreset) := ⟨⟨_, rfl, rfl, rfl, rfl⟩, rfl⟩

/-- LoadThenCaptureReturnsThePreset, the bit level: a port, a Preset it reads, and words that return. -/
theorem test_witness_wire :
    letI := le8
    letI := lt8
    letI := div8
    letI := rat8
    letI := decLe8
    letI := decLt8
    ∃ W p, cfg8.wire = some W ∧ W.commands words8 0 = .ok (.loadp p) ∧ p.Valid cfg8.tMin ∧ (∀ v, W.Returns v) ∧
      0x21030005#32 &&& 0x88880000#32 = 0#32 ∧ bits 0x40000000 31 24 = 0x40 ∧ bits 0x41000000 31 24 = 0x41 :=
  have h (w : BitVec 3) (hw : w ≤ 4#3) : @OpPreset.Valid (BitVec 8) _ _ le8 ⟨1, 1, w, 1, 1, 1, 1, 1, 1, 1⟩ 1 :=
    ⟨le8_zero_one, ⟨le8_zero_one, Int.le_refl _⟩, hw, ⟨le8_zero_one, Int.le_refl _⟩, Int.le_refl _, Int.le_refl _, Int.le_refl _,
      le8_zero_one, Int.le_refl _⟩
  ⟨_, _, rfl, rfl, ⟨h 3 (by decide), h 0 (by decide), h 1 (by decide), h 2 (by decide)⟩, fun _ => rfl, rfl, rfl, rfl⟩

/-- HelperFunctionsMeetTheirDefinitions, the clause of `rhu`: the reference system and the fixture. -/
theorem test_witness_exact : Numerics.real.Exact ∧ cfg.Exact := ⟨Numerics.real_exact, fun _ => rfl⟩

/-! ### The assembler -/

/-- Lines of P3, and aliases of R98. -/
theorem test_assemble :
    Asm.assemble 1 "SETALG -1 ; out of range\nMORPH 2, 0.5\nLOCK 0x7F, 0, 0.5\nSETOP.WAVE 2, triangle\nLOCK \"OP4_LVL\", 1/2" =
      some [.word 0x1000FFFF, .word 0x11000002, .num (1 / 2), .word 0x20007F00, .num (1 / 2), .word 0x30020203, .num 0,
        .word 0x20031100, .num (1 / 2)] := by decide +kernel

theorem test_assemble_aliases : Asm.renderLong 16777216 = [.word 0x03FFFFFF, .word 0x03000001] ∧
    Asm.lockAlias 0 "FM_FB" 1 = [.word 0x20000200, .num 1] ∧ Asm.lockAlias 0 "OP2_RATIO" 1 = [.word 0x20021000, .num 1] ∧
    Asm.lockAlias 0 "FM_CUTOFF" 1 = [.word 0x2000FF00, .num 1] := by decide +kernel

/-- The tokens of an operator's record, one word a field (R97). -/
def opTokens (name : String) (fields : List (String × String)) : List Asm.Token :=
  [.word name, .mark '=', .mark Asm.openBrace] ++
    ((fields.map fun f => [.word f.1, .mark '=', .word f.2]).intersperse [.mark ',']).flatten ++ [.mark Asm.closeBrace]

theorem test_assemble_record :
    Asm.opRecord "op0" (opTokens "op0" [("ratio", "2"), ("level", "0.5"), ("wave", "noise"), ("lfoRate", "0"), ("lfoAmount", "0"),
      ("velSens", "-1"), ("attack", "1/3520"), ("decay", "1/3520"), ("sustain", "0"), ("release", "3")]) =
      some ({ ratio := 2, level := 1 / 2, wave := 4, lfoRate := 0, lfoAmount := 0, velSens := -1, attack := 1 / 3520, decay := 1 / 3520,
              sustain := 0, release := 3 }, []) := by decide +kernel

/-- Programs P1, P2 and P4: a silent operator, a waveform code, and a Preset by name (log 21). -/
theorem test_assemble_operands :
    Asm.opRecord "op1" [.word "op1", .mark '=', .word "silent", .mark ','] = some (quiet, [.mark ',']) ∧
    Asm.waveOperand "square" = some 2 ∧ Asm.waveOperand "4" = some 4 ∧ Asm.waveOperand "8" = none ∧
    Asm.line 0 [("PT2", pt2)] [.word "LOADP", .word "PT2"] = some (encode (.loadp pt2)) := by decide +kernel

/-- Braces open and close a record, inside which the end of a line is a space. -/
theorem test_assemble_tokens :
    Asm.tokens .plain 0 [] ['A', ' ', Asm.openBrace, 'x', '=', '1', ',', '\n', 'y', Asm.closeBrace, '\n', 'B'] =
      [.word "A", .mark Asm.openBrace, .word "x", .mark '=', .word "1", .mark ',', .word "y", .mark Asm.closeBrace, .eol,
        .word "B"] := by decide +kernel

/-! ### The hypotheses of the obligations can be met -/

/-- StepAdvancesPcByAtMostOneAndOnlyAppendsOutput: steps that answer a next state, a command, a frame, and a wait. -/
theorem test_witness_step_next : (∃ t, step (port [.word 0x00000000]) = .next t) ∧
    (∃ t, step { port [] with eng := { e0 with fr := 2 } } = .next t) ∧ ∃ t, step (port []) = .next t :=
  ⟨⟨_, rfl⟩, ⟨_, rfl⟩, ⟨_, rfl⟩⟩

/-- HelperFunctionsMeetTheirDefinitions: below, above, and at both ends. -/
theorem test_witness_clamp : (0 : Scalar) ≤ 1 ∧ (-1 / 5 : Scalar) < 0 ∧ (1 : Scalar) < 17 / 10 ∧ ((0 : Scalar) ≤ 0 ∧ (0 : Scalar) ≤ 1) ∧
    ((0 : Scalar) ≤ 1 ∧ (1 : Scalar) ≤ 1) := by decide +kernel

/-- RenderRightAfterResetIsSilent, and the bound of BlocksMaySplitWithoutChangingTheSound. -/
theorem test_witness_frame_counts : (0 : Nat) ≤ 16777215 ∧ (16777215 : Nat) ≤ 16777215 ∧ (port []).eng.fr = 0 ∧
    1 + 16777214 ≤ 16777215 := by
  exact ⟨by decide, by decide, rfl, by decide⟩

/-- StepRunsTheDecodedCommand, RenderRunsItsFramesToTheEnd. -/
theorem test_witness_decoded_command : (port [.word 0x03000002]).eng.fr = 0 ∧
    decode (port [.word 0x03000002]).cmdIn = .ok (.render 2, []) := ⟨rfl, rfl⟩

/-- StepRendersAFrameWhileFramesRemain, FrameLeavesEveryParameterAsItIs: the last frame and one before it. -/
theorem test_witness_frames_remain : ({ e0 with fr := 1 } : Engine Scalar).fr ≠ 0 ∧ ({ e0 with fr := 2 } : Engine Scalar).fr ≠ 0 :=
  ⟨by decide, by decide⟩

/-- StepHoldsTheStateWithoutACommand: an empty port, and a command that is not complete. -/
theorem test_witness_incomplete : (port []).eng.fr = 0 ∧ decode (port []).cmdIn = .error .incomplete ∧
    decode (port [.word 0x01450000]).cmdIn = .error .incomplete ∧
    decode (port [.word 0x40000000, .word 0, .num 0]).cmdIn = .error .incomplete := ⟨rfl, rfl, rfl, rfl⟩

/-- StepNeverFaultsAndRefusesOnlyThreeThings: each of the three. -/
theorem test_witness_refusals : decode [.word 0x7F000000] = .error (.reserved 0x7F) ∧
    decode [.word 0x01450000, .word 0] = .error .itemKind ∧ decode [.num 1] = .error .itemKind ∧
    ¬ (⟨0, Quad.const (.silent 0), 0, 0⟩ : Preset Scalar).Valid Config.chip.tMin :=
  ⟨rfl, rfl, rfl, fun h => absurd Config.chip.tMin_pos (not_lt.mpr h.1.2.2.2.2.1)⟩

/-- A sounding operator within the chip's bounds, its phase and level above 0. -/
def soundingBank : OpBank Scalar :=
  { ratio := 1, level := 1, wave := .square, phase := 0, lfoPhase := 0, lfoRate := 5, lfoAmount := 1, velSens := -1
    env := { attack := Config.chip.tMin, decay := Config.chip.tMin, sustain := 1 / 2, release := Config.chip.tMin
             state := .decay, level := 1 } }

/-- A state in the middle of a note and of a `RENDER`, with a sample emitted. -/
def sounding : State :=
  { port [.word 0x00000000] with
    eng := { Engine.selectAlg Config.chip (-1) e0 with
             op := Quad.const soundingBank, f0 := 440, fbReg := 1, prevOut := Quad.const 1, isNoteOn := true, curNote := 127
             curVel := 1, outs := [.sample (-1)] } }

theorem soundingBank_valid : soundingBank.capture.Valid Config.chip.tMin :=
  ⟨by decide +kernel, ⟨by decide +kernel, by decide +kernel⟩, by decide, ⟨by decide +kernel, by decide +kernel⟩, le_refl _, le_refl _,
    le_refl _, by decide +kernel, by decide +kernel⟩

/-- EveryStepKeepsTheStateLegal, ReloadingACaptureOnlyUndoesAMorph. -/
theorem test_witness_legal : sounding.Legal ∧ ∃ t, step sounding = .next t := by
  refine ⟨⟨fun i => ?_, ?_, Config.chip.algDefault_ok.1, Config.chip.algDefault_ok.2, rfl, rfl, ?_, by decide, ?_⟩, _, rfl⟩
  · have hp := Config.chip.pi_pos
    have h : sounding.eng.op.get i = soundingBank := Quad.get_const _ i
    rw [h]
    exact ⟨⟨le_refl _, by simpa [soundingBank] using hp⟩, ⟨le_refl _, by simpa [soundingBank] using hp⟩,
      by decide +kernel, by decide +kernel⟩
  · exact ⟨soundingBank_valid, soundingBank_valid, soundingBank_valid, soundingBank_valid⟩
  · exact ⟨by decide +kernel, by decide +kernel⟩
  · intro ev h
    rw [List.mem_singleton.mp h]
    exact ⟨le_refl _, by decide +kernel⟩

/-- NoCommandWritesAFrameRegister. -/
theorem test_witness_exec_next : ∃ t, exec (.noteon 69 1) (port []) = .next t := ⟨_, rfl⟩

/-- OnlyNoteCommandsWriteTheNoteRegisters, IdleAndSustainAreLeftOnlyByNoteCommands: a step of each kind. -/
theorem test_witness_note_steps : (∃ t, step (port [.word 0x02000000]) = .next t ∧ (t.eng.op.get 0).env.state = .release) ∧
    (∃ t, step (port [.word 0x01450000, .num 1]) = .next t ∧ (t.eng.op.get 0).env.state = .attack) ∧
    ((port []).eng.op.get 0).env.state = .idle ∧
    ∃ e : Engine Scalar, (e.op.get 0).env.state = .sustain ∧ ∃ t, step { port [] with eng := e } = .next t :=
  ⟨⟨_, rfl, rfl⟩, ⟨_, rfl, rfl⟩, rfl,
    { e0 with op := Quad.const { soundingBank with env := { soundingBank.env with state := .sustain } } }, rfl, _, rfl⟩

/-- NoteNumberAndFlagInfluenceNothing. -/
theorem test_witness_same_but_note :
    SameButNote (port [.word 0x03000002]) { port [.word 0x03000002] with eng := { e0 with isNoteOn := true, curNote := 127 } } ∧
    ∃ t, step (port [.word 0x03000002]) = .next t := ⟨rfl, _, rfl⟩

/-- InstancesDoNotInfluenceEachOther: two containers that agree on track 1 alone. -/
theorem test_witness_container : (∃ c, Container.stepTrack 1 [port [], port [.word 0]] = .next c) ∧
    ([port [.word 0], port [.word 0]] : Container)[1]? = ([port [], port [.word 0]] : Container)[1]? ∧ 0 ≠ 1 :=
  ⟨⟨_, rfl⟩, rfl, by decide⟩

/-- ReferenceNoteFrequencyRisesAndDoublesPerOctave, WaveformStaysBetweenMinusOneAndOne, WaveformRepeatsEveryTurn. -/
theorem test_witness_note_and_wave : (0 : Nat) < 127 ∧ (-1 : Scalar) ≤ -1 ∧ (-1 : Scalar) ≤ 1 ∧ (1 : Scalar) ≤ 1 ∧ Wave.saw ≠ .sine := by
  decide +kernel

/-- SawSquareAndTriangleHaveTheirShapes: each clause, at the ends of its range (π stands for 3). -/
theorem test_witness_shapes :
    (∀ θ ∈ ([0, 29 / 10, 3, 7 / 5, 3 / 2, 9 / 2, 59 / 10] : List Scalar), 0 ≤ θ ∧ θ < 2 * cfg.pi) ∧ (29 / 10 < cfg.pi ∧ cfg.pi ≤ 3) ∧
    7 / 5 < cfg.pi / 2 ∧ (cfg.pi / 2 ≤ 3 / 2 ∧ 3 / 2 < 3 * cfg.pi / 2) ∧ 3 * cfg.pi / 2 ≤ 9 / 2 := by decide +kernel

/-- An envelope in the given state and at the given level. -/
def envAt (sustain : Scalar) (state : EnvState) (level : Scalar) : Env Scalar := { env4 sustain with state, level }

/-- EnvelopeFollowsItsAttackDecayReleaseAndIdleRows: every state, at levels where each branch is taken. -/
theorem test_witness_envelope_table :
    ∀ e ∈ [envAt 0 .attack 0, envAt 1 .attack 1, envAt (1 / 2) .decay (5 / 8), envAt (1 / 2) .decay 1, envAt 0 .sustain 0,
        envAt 1 .release (1 / 4), envAt 0 .release 1, envAt 1 .idle 0],
      0 < e.attack ∧ 0 < e.decay ∧ 0 < e.release ∧ 0 ≤ e.sustain ∧ e.sustain ≤ 1 ∧ 0 ≤ e.level ∧ e.level ≤ 1 := by decide +kernel

/-- AttackFromZeroTakesCeilingOfItsTime, EnvelopeReachesSustainAndThenIdle (sustain 0, inside, and 1),
ReleaseTimeIsProportionalToItsStartingLevel, ReleaseWithZeroSustainNeverEnds. -/
theorem test_witness_envelope_runs :
    (0 < (envAt 1 .attack 0).attack ∧ (envAt 1 .attack 0).state = .attack ∧ (envAt 1 .attack 0).level = 0) ∧
    (∀ s ∈ ([0, 1 / 2, 1] : List Scalar), 0 < (env4 s).attack ∧ 0 < (env4 s).decay ∧ 0 < (env4 s).release ∧ 0 ≤ (env4 s).sustain ∧
      (env4 s).sustain ≤ 1 ∧ (env4 s).state = .idle ∧ (env4 s).level = 0) ∧
    (∀ e ∈ [envAt 1 .release (1 / 4), envAt (1 / 2) .release 1], 0 < e.release ∧ 0 < e.sustain ∧ e.state = .release ∧ 0 < e.level ∧
      e.level ≤ 1) ∧
    (0 < (envAt 0 .release 1).release ∧ (envAt 0 .release 1).sustain = 0 ∧ 0 < (envAt 0 .release 1).level ∧
      (envAt 0 .release 1).level ≤ 1) := by decide +kernel

/-- FrameComputesEachOperatorFromThePreviousFrame: the value of `modIn` for operator 0, whose feedback path adds. -/
theorem test_witness_frame_modIn :
    let e : Engine Scalar := { e0 with matrix := denseEntry.matrix, prevOut := ⟨1, 1 / 2, 0, 0⟩, fmDepth := 1, fbReg := 1, feedback := 1 }
    (7 / 4 : Scalar) = (∑ m : Fin 4, (e.matrix.get m).get 0 * e.prevOut.get m * e.fmDepth) +
      (if (0 : Fin 4) = 0 then e.fbReg * e.feedback else 0) := by decide +kernel

/-- IdleEnvelopesOrZeroVelocityRenderSilence, AnyZeroFactorSilencesItsOperator: each of their alternatives. -/
theorem test_witness_silence : (∀ i : Fin 4, (e0.op.get i).env.state = .idle) ∧ e0.curVel = 0 ∧ (e0.op.get 0).level = 0 ∧
    ((fx (.setopVsens 0 0) e0).op.get 0).velSens = 0 ∧ ({ e0 with fr := 1 } : Engine Scalar).fr ≠ 0 := by decide +kernel

/-- ParallelCarriersReproduceOneGenerator. -/
theorem test_witness_parallel :
    let e := fx (.setopLvl 0 1) e0
    e.matrix = AlgEntry.parallel.matrix ∧ e.mask = (AlgEntry.parallel : AlgEntry Scalar).mask ∧ e.feedback = 0 ∧
    (e.op.get 0).lfoAmount = 0 ∧ ∀ i : Fin 4, i ≠ 0 → (e.op.get i).level = 0 := by decide +kernel

/-- FrameTakesOneDrawPerNoiseOperatorInOrder: draws that agree where a noise operator reads them. -/
theorem test_witness_noise_draws : ∀ i : Fin 4, ((fx (.setopWave 2 4) e0).op.get i).wave = .noise →
    (⟨0, 0, 1, 0⟩ : Quad Scalar).get i = (⟨1, 1, 1, 1⟩ : Quad Scalar).get i := by decide +kernel

/-- AlgorithmReadFallsBackToTheDefault, MorphEndsCompoundsAndKeepsWeightsNonNegative, GlobalLocksMapTheirInputToTheNativeRange. -/
theorem test_witness_algorithm : ((-1 : Int) < 0 ∨ 31 < (-1 : Int)) ∧ ((32 : Int) < 0 ∨ 31 < (32 : Int)) ∧ (0 : Scalar) ≤ 0 ∧
    (1 : Scalar) ≤ 1 ∧ ∀ m t : Fin 4, (0 : Scalar) ≤ (e0.matrix.get m).get t := by decide +kernel

/-- The index and code clauses of OscillatorSettersWriteOneBank, EnvelopeSettersWriteOneBank, SetopWaveWritesOnlyWaveforms. -/
theorem test_witness_indices : 3 < 4 ∧ (4 : Nat) ≤ 4 ∧ (3 < 4 ∨ 4 < 0) ∧ (3 < 0 ∨ 4 < 5) := by decide

/-- UnknownKeysAndSelectorsConsumeTheirPayload. -/
theorem test_witness_unknown : (port [.word 0x20007F00, .num 1]).eng.fr = 0 ∧
    (bits 0x20007F00 31 24 = 0x20 ∧ bits 0x20007F00 15 8 ∉ [0x00, 0x01, 0x02, 0x10, 0x11]) ∧
    (bits 0x30000600 31 24 = 0x30 ∧
      bits 0x30000600 15 8 ∉ [0x00, 0x01, 0x02, 0x03, 0x04, 0x05, 0x08, 0x09, 0x0A, 0x0B]) := by
  exact ⟨rfl, by decide, by decide⟩

/-- LoadpReplacesTheParametersAndNothingDynamic, LoadThenCaptureReturnsThePreset. -/
theorem test_witness_preset :
    let p : Preset Scalar := ⟨40, Quad.const soundingBank.capture, 1, 2⟩
    WellFormed (.loadp p) = true ∧ p.Valid Config.chip.tMin ∧
    (port (encode (.loadp p) ++ (encode .capp ++ []))).eng.fr = 0 :=
  ⟨rfl, ⟨soundingBank_valid, soundingBank_valid, soundingBank_valid, soundingBank_valid⟩, rfl⟩

/-- DecodeOfEncodeIsTheCommand, DecodeTakesTheLengthOfItsOpcode, DecodeFollowsTheOpcodeMap. -/
theorem test_witness_decoding : WellFormed (.morph (-32768) 1) = true ∧ opcodeRows.head? = some ⟨"NOP", 0x00000000, 0xFF000000⟩ ∧
    (0x00ABCDEF : BitVec 32) &&& 0xFF000000 = 0x00000000 ∧ decode [.word 0x00ABCDEF] = .ok (.nop, []) :=
  ⟨rfl, rfl, by decide, rfl⟩

/-- ReservedOpcodesAreRefused: the first and the last reserved opcode. -/
theorem test_witness_reserved :
    (port [.word 0x04000000]).eng.fr = 0 ∧
    bits 0x04000000 31 24 ∉ [0x00, 0x01, 0x02, 0x03, 0x10, 0x11, 0x20, 0x30, 0x40, 0x41] ∧
    bits 0xFF000000 31 24 ∉ [0x00, 0x01, 0x02, 0x03, 0x10, 0x11, 0x20, 0x30, 0x40, 0x41] := by
  exact ⟨rfl, by decide, by decide⟩

end Sys2Proof.Tests
end

section
/-! Memory (20_memory.md): the algorithm ROM with its default entry, and the separate instances of the container. -/

namespace Sys2Proof.Machine

open Sys2Proof

/-! ### The algorithm read -/

section AlgorithmRead

variable {N : Type} [Zero N] [One N] [Add N] [Sub N] [Mul N] [Div N] [Neg N] [NatCast N] [IntCast N] [RatCast N]
  [LE N] [LT N] [DecidableLE N] [DecidableLT N] [DecidableEq N] (C : Config N)

/-- 20_memory.md R62, ids of the ROM. -/
theorem memReadAlg_of_romId (k : Fin 32) : memReadAlg C k.val = C.algRom k := by
  have hid : 0 ≤ (k.val : Int) ∧ (k.val : Int) ≤ 31 := by omega
  exact dif_pos hid

/-- 20_memory.md R62, every other id. -/
theorem memReadAlg_of_not_romId {id : Int} (h : id < 0 ∨ 31 < id) : memReadAlg C id = C.algDefault := by
  have hid : ¬(0 ≤ id ∧ id ≤ 31) := by omega
  exact dif_neg hid

end AlgorithmRead

/-- Settles O42: one lemma for the ids of the ROM and one for all others. -/
theorem algorithmReadFallsBackToTheDefault : Obligations.AlgorithmReadFallsBackToTheDefault := by
  intro N _ _ _ _ _ _ _ _ _ _ _ _ _ _ _ C
  exact ⟨memReadAlg_of_romId C, fun _ => memReadAlg_of_not_romId C⟩

/-! ### The container -/

namespace Container

variable {k : Nat} {tracks tracks' other : Container}

/-- All that a step of track `k` can do when it answers: nothing where there is no such track, else the step of that one instance. -/
theorem stepTrack_eq_next_iff : stepTrack k tracks = .next tracks' ↔
    (tracks[k]? = none ∧ tracks' = tracks) ∨
    ∃ s s', tracks[k]? = some s ∧ step s = .next s' ∧ tracks' = tracks.set k s' := by
  unfold stepTrack
  cases htrack : tracks[k]? with
  | none => simp [eq_comm]
  | some s => cases hstep : step s <;> simp [hstep, eq_comm]

theorem stepTrack_length (h : stepTrack k tracks = .next tracks') : tracks'.length = tracks.length := by
  obtain ⟨-, rfl⟩ | ⟨s, s', -, -, rfl⟩ := stepTrack_eq_next_iff.mp h
  · rfl
  · exact List.length_set

/-- The write half of 20_memory.md R74. -/
theorem stepTrack_getElem?_of_ne (h : stepTrack k tracks = .next tracks') {j : Nat} (hj : j ≠ k) : tracks'[j]? = tracks[j]? := by
  obtain ⟨-, rfl⟩ | ⟨s, s', -, -, rfl⟩ := stepTrack_eq_next_iff.mp h
  · rfl
  · exact List.getElem?_set_ne hj.symm

/-- What a write to a track leaves there is fixed by the old content of that track alone. -/
theorem set_getElem?_congr (hk : other[k]? = tracks[k]?) (s' : State) : (other.set k s')[k]? = (tracks.set k s')[k]? := by
  rw [List.getElem?_set_self', List.getElem?_set_self', hk]

/-- The read half of 20_memory.md R74: a container that agrees on track `k` steps there too, and to the same instance. -/
theorem stepTrack_congr (h : stepTrack k tracks = .next tracks') (hk : other[k]? = tracks[k]?) :
    ∃ other', stepTrack k other = .next other' ∧ other'[k]? = tracks'[k]? := by
  obtain ⟨hnone, rfl⟩ | ⟨s, s', hsome, hstep, rfl⟩ := stepTrack_eq_next_iff.mp h
  · exact ⟨other, stepTrack_eq_next_iff.mpr (.inl ⟨hk.trans hnone, rfl⟩), hk⟩
  · exact ⟨other.set k s', stepTrack_eq_next_iff.mpr (.inr ⟨s, s', hk.trans hsome, hstep, rfl⟩), set_getElem?_congr hk s'⟩

end Container

/-- Settles O15: the number of tracks and the other tracks stay, and agreement on track `k` is enough for the same step there. -/
theorem instancesDoNotInfluenceEachOther : Obligations.InstancesDoNotInfluenceEachOther := by
  intro k tracks tracks' h
  exact ⟨Container.stepTrack_length h, fun _ => Container.stepTrack_getElem?_of_ne h, fun _ => Container.stepTrack_congr h⟩

end Sys2Proof.Machine
end

section
/-! The envelope (41_envelope.md): each row of the transition table over an ordered field, where the final clamp does not act. -/

namespace Sys2Proof.Machine

open Sys2Proof

section EnvelopeRows

variable {N : Type} [Field N] [LinearOrder N] [IsStrictOrderedRing N] (C : Config N) {e : Env N}

/-- The calls a time of `t` seconds takes are more than none, so the rules divide by no zero. -/
theorem time_mul_fs_pos {t : N} (ht : 0 < t) : 0 < t * C.fs := mul_pos ht C.fs_pos

omit [IsStrictOrderedRing N] in
/-- The final clamp (41_envelope.md R128) does not act on a level within its bounds. -/
theorem Env.advance_eq_of_rule_eq {e' : Env N} (hrule : e.rule C = e') (hlevel : 0 ≤ e'.level ∧ e'.level ≤ 1) :
    e.advance C = e' := by
  unfold Env.advance
  rw [hrule, clamp01_of_mem hlevel.1 hlevel.2]

/-- 41_envelope.md R123. -/
theorem Env.advance_of_attack (hs : e.state = .attack) (hA : 0 < e.attack) (h0 : 0 ≤ e.level) :
    e.advance C = if 1 ≤ e.level + 1 / (e.attack * C.fs) then { e with level := 1, state := .decay }
      else { e with level := e.level + 1 / (e.attack * C.fs) } := by
  have hT := time_mul_fs_pos C hA
  have hrule := e.rule_of_attack C hs
  simp only [Env.attackRule, C.div_of_ne hT.ne'] at hrule
  refine Env.advance_eq_of_rule_eq C hrule ?_
  split_ifs with hend
  · exact ⟨zero_le_one, le_rfl⟩
  · exact ⟨add_nonneg h0 (one_div_pos.mpr hT).le, (not_le.mp hend).le⟩

/-- 41_envelope.md R124. -/
theorem Env.advance_of_decay (hs : e.state = .decay) (hD : 0 < e.decay) (hS0 : 0 ≤ e.sustain) (hS1 : e.sustain ≤ 1)
    (h1 : e.level ≤ 1) :
    e.advance C = if e.level - (1 - e.sustain) / (e.decay * C.fs) ≤ e.sustain then { e with level := e.sustain, state := .sustain }
      else { e with level := e.level - (1 - e.sustain) / (e.decay * C.fs) } := by
  have hT := time_mul_fs_pos C hD
  have hrule := e.rule_of_decay C hs
  simp only [Env.decayRule, C.div_of_ne hT.ne'] at hrule
  refine Env.advance_eq_of_rule_eq C hrule ?_
  split_ifs with hend
  · exact ⟨hS0, hS1⟩
  · have hstep : 0 ≤ (1 - e.sustain) / (e.decay * C.fs) := div_nonneg (sub_nonneg.mpr hS1) hT.le
    exact ⟨hS0.trans (not_le.mp hend).le, (sub_le_self _ hstep).trans h1⟩

/-- 41_envelope.md R126. -/
theorem Env.advance_of_release (hs : e.state = .release) (hR : 0 < e.release) (hS0 : 0 ≤ e.sustain) (h1 : e.level ≤ 1) :
    e.advance C = if e.level - e.sustain / (e.release * C.fs) ≤ 0 then { e with level := 0, state := .idle }
      else { e with level := e.level - e.sustain / (e.release * C.fs) } := by
  have hT := time_mul_fs_pos C hR
  have hrule := e.rule_of_release C hs
  simp only [Env.releaseRule, C.div_of_ne hT.ne'] at hrule
  refine Env.advance_eq_of_rule_eq C hrule ?_
  split_ifs with hend
  · exact ⟨le_rfl, zero_le_one⟩
  · exact ⟨(not_le.mp hend).le, (sub_le_self _ (div_nonneg hS0 hT.le)).trans h1⟩

/-- 41_envelope.md R127. -/
theorem Env.advance_of_idle (hs : e.state = .idle) : e.advance C = { e with level := 0 } :=
  Env.advance_eq_of_rule_eq C (e.rule_of_idle C hs) ⟨le_rfl, zero_le_one⟩

end EnvelopeRows

/-- Settles O25: the two note events by definition, then one lemma for each row of the table. -/
theorem envelopeFollowsItsAttackDecayReleaseAndIdleRows : Obligations.EnvelopeFollowsItsAttackDecayReleaseAndIdleRows := by
  intro N _ _ _ C e hA hD hR hS0 hS1 h0 h1
  exact ⟨rfl, rfl, fun hs => Env.advance_of_attack C hs hA h0, fun hs => Env.advance_of_decay C hs hD hS0 hS1 h1,
    fun hs => Env.advance_of_release C hs hR hS0 h1, Env.advance_of_idle C⟩

end Sys2Proof.Machine
end

section
/-! The frame (44_render.md): what it leaves in each operator's registers in any number system, and the router, the mixer and the
soft clipper as they read over an ordered field. -/

namespace Sys2Proof.Machine

open Sys2Proof

section FrameRegisters

variable {N : Type} [Zero N] [One N] [Add N] [Sub N] [Mul N] [Div N] [Neg N] [NatCast N] [IntCast N] [RatCast N]
  [LE N] [LT N] [DecidableLE N] [DecidableLT N] [DecidableEq N] (C : Config N) (nz : Quad N) (e : Engine N)

/-- 44_render.md R166. -/
@[simp] theorem OpBank.next_phase (f0 : N) (b : OpBank N) :
    (b.next C f0).phase = C.wrap (b.phase + 2 * C.pi * b.ratio * f0 / C.fs) := rfl

/-- 44_render.md R164. -/
@[simp] theorem OpBank.next_env (f0 : N) (b : OpBank N) : (b.next C f0).env = b.env.advance C := rfl

/-- 44_render.md R162 to R165. -/
theorem Engine.opOut_eq (i : Fin 4) :
    e.opOut C nz i =
      waveGen C.toNumerics (e.op.get i).wave ((e.op.get i).phase + e.modIn i + (e.op.get i).lfoVal C * C.pi) (nz.get i) *
        ((e.op.get i).level * ((e.op.get i).env.advance C).level * e.curVel * (e.op.get i).velSens) := rfl

/-- 44_render.md R160 to R166: a frame advances each bank by the same rule. -/
theorem Engine.frame_op_get (i : Fin 4) : (e.frame C nz).op.get i = (e.op.get i).next C e.f0 := by
  rw [Engine.frame_op, Quad.get_map]

/-- 44_render.md R167: what a frame leaves in `prevOut[i]` is the output it computes for operator `i`. -/
theorem Engine.frame_prevOut_get (i : Fin 4) : (e.frame C nz).prevOut.get i = e.opOut C nz i := by
  rw [Engine.frame_prevOut, Quad.get_ofFn]

end FrameRegisters

section FrameSums

variable {N : Type} [Field N] [LinearOrder N] (C : Config N) (nz : Quad N) (e : Engine N)

omit [LinearOrder N] in
/-- 44_render.md R158. -/
theorem Engine.routed_eq_sum (t : Fin 4) :
    e.routed t = ∑ m : Fin 4, (e.matrix.get m).get t * e.prevOut.get m * e.fmDepth := by
  rw [Fin.sum_univ_four]
  rfl

/-- 44_render.md R158, R159: the feedback path ends at operator 0 alone. -/
theorem Engine.modIn_eq_sum (t : Fin 4) :
    e.modIn t = (∑ m : Fin 4, (e.matrix.get m).get t * e.prevOut.get m * e.fmDepth) +
      (if t = 0 then e.fbReg * e.feedback else 0) := by
  rw [← Engine.routed_eq_sum]
  unfold Engine.modIn
  split_ifs
  · rfl
  · exact (add_zero _).symm

/-- 44_render.md R169. -/
theorem Engine.mix_eq_sum : e.mix C nz = ∑ i : Fin 4, if e.mask.get i = true then e.opOut C nz i else 0 := by
  rw [Fin.sum_univ_four]
  rfl

/-- 44_render.md R170, with `CLIP_IN` and `CLIP_OUT` as decimals of the carrier. -/
theorem softClip_eq_clamp [IsStrictOrderedRing N] (K : Numerics N) (s : N) :
    softClip K s = clamp (K.tanh (s * 0.7) * 0.8) (-1) 1 := by
  have hin : ((7 / 10 : ℚ) : N) = 0.7 := by norm_num
  have hout : ((8 / 10 : ℚ) : N) = 0.8 := by norm_num
  unfold softClip
  rw [hin, hout]

end FrameSums

/-- Settles O30: `modIn` is the router's own value for operator `i`, so each clause is the frame's rule for that register. -/
theorem frameComputesEachOperatorFromThePreviousFrame : Obligations.FrameComputesEachOperatorFromThePreviousFrame := by
  intro N _ _ _ C nz e i modIn hmodIn
  obtain rfl : modIn = e.modIn i := hmodIn.trans (e.modIn_eq_sum i).symm
  rw [Engine.frame_op_get, Engine.frame_prevOut_get, Engine.frame_prevOut_get]
  exact ⟨OpBank.next_phase C _ _, OpBank.next_env C _ _, Engine.opOut_eq C nz e i, Engine.frame_fbReg C nz e⟩

/-- Settles O31: the one sample is the clipped mix, and the mix is the sum over the carriers of what `prevOut` then holds. -/
theorem frameEmitsTheSoftClippedSumOfItsCarriers : Obligations.FrameEmitsTheSoftClippedSumOfItsCarriers := by
  intro N _ _ _ C nz e
  simp only [Engine.frame_outs, Engine.frame_prevOut_get, softClip_eq_clamp, Engine.mix_eq_sum]

end Sys2Proof.Machine
end

section
/-! Parameters (45_parameters.md): a command that writes a register of operator 0, 1, 2 or 3 completes with that bank replaced and
the other three kept, said once for all of them. -/

namespace Sys2Proof.Quad

/-- `update` applies `f` at the index it tests; this is the form with the new entry written out. -/
theorem update_eq_ofFn {α : Type} (q : Quad α) (i : Fin 4) (f : α → α) :
    q.update i f = ofFn fun j => if j = i then f (q.get i) else q.get j := by
  refine ext_get fun j => ?_
  rw [get_update, get_ofFn]
  split_ifs with hj
  · rw [hj]
  · rfl

end Sys2Proof.Quad

namespace Sys2Proof.Machine

open Sys2Proof

/-- 20_memory.md R64, R67: an index in range writes its own bank and nothing else. -/
theorem Engine.writeOp_eq {N : Type} (e : Engine N) (i : Fin 4) (f : OpBank N → OpBank N) :
    e.writeOp i f = { e with op := Quad.ofFn fun j => if j = i then f (e.op.get i) else e.op.get j } := by
  rw [← Quad.update_eq_ofFn]
  exact dif_pos i.isLt

/-- `State.bankWritten` is what completing a register write answers. -/
theorem State.retire_writeOp (s : State) (i : Fin 4) (f : OpBank Scalar → OpBank Scalar) :
    s.retire (s.eng.writeOp i f) = .next (s.bankWritten i (f (s.eng.op.get i))) := by
  rw [State.retire_eq, Engine.writeOp_eq]
  rfl

/-- 45_parameters.md R189. -/
theorem exec_lockRatio (k : Nat) (v : Scalar) (s : State) :
    exec (.lockRatio k v) s = s.retire (s.eng.writeOp k fun b => { b with ratio := clamp01 v * 8 }) := rfl

/-- 45_parameters.md R190. -/
theorem exec_lockLvl (k : Nat) (v : Scalar) (s : State) :
    exec (.lockLvl k v) s = s.retire (s.eng.writeOp k fun b => { b with level := clamp01 v }) := rfl

/-- Settles O47: each lock is a write of one register, and the index is in range. -/
theorem operatorLocksScaleTheirInputIntoOneRegister : Obligations.OperatorLocksScaleTheirInputIntoOneRegister := by
  intro i v s
  rw [exec_lockRatio, exec_lockLvl]
  exact ⟨s.retire_writeOp i _, s.retire_writeOp i _⟩

end Sys2Proof.Machine
end

section
/-! Presets (46_preset.md): what `LOADP` loads into a bank and what `CAPP` reads out of it, first for one operator, then for the
whole register set. -/

namespace Sys2Proof

/-- 10_state.md R47: each waveform field of a valid Preset is the code of a waveform. -/
theorem Preset.Valid.wave_le {N : Type} [Zero N] [One N] [LE N] {p : Preset N} {tMin : N} (h : p.Valid tMin) (i : Fin 4) :
    (p.op.get i).wave ≤ 4#3 := by
  have hbanks : ∀ j, (p.op.get j).Valid tMin := (Quad.forall_get (P := (OpPreset.Valid · tMin))).mpr h
  obtain ⟨-, -, hwave, -⟩ := hbanks i
  exact hwave

end Sys2Proof

namespace Sys2Proof.Machine

open Sys2Proof

/-- 10_state.md R23: the codes 0 to 4 are the waveforms, each read back as its own code. -/
theorem Wave.exists_ofCode_eq_some {c : Nat} (h : c ≤ 4) : ∃ w, Wave.ofCode c = some w ∧ w.code = c := by
  interval_cases c
  · exact ⟨.sine, rfl, rfl⟩
  · exact ⟨.saw, rfl, rfl⟩
  · exact ⟨.square, rfl, rfl⟩
  · exact ⟨.triangle, rfl, rfl⟩
  · exact ⟨.noise, rfl, rfl⟩

/-! ### One operator -/

section OneOperator

variable {N : Type} (o : OpPreset N) (b : OpBank N)

/-! 46_preset.md R211: the dynamic registers of a bank. -/

@[simp] theorem OpBank.load_phase : (b.load o).phase = b.phase := rfl
@[simp] theorem OpBank.load_lfoPhase : (b.load o).lfoPhase = b.lfoPhase := rfl
@[simp] theorem OpBank.load_env_state : (b.load o).env.state = b.env.state := rfl
@[simp] theorem OpBank.load_env_level : (b.load o).env.level = b.env.level := rfl

variable {o}

/-- The waveform a bank holds after loading a field that is a code of a waveform. -/
theorem OpBank.ofNat_load_wave_code (h : o.wave ≤ 4#3) : BitVec.ofNat 3 (b.load o).wave.code = o.wave := by
  obtain ⟨w, hw, hcode⟩ := Wave.exists_ofCode_eq_some (BitVec.le_def.mp h)
  have hload : (b.load o).wave = w := by simp only [OpBank.load, hw, Option.getD_some]
  rw [hload, hcode, BitVec.ofNat_toNat, BitVec.setWidth_eq]

/-- 46_preset.md R210, R213: a bank gives back the ten parameters loaded into it. Only the waveform is stored in another form. -/
theorem OpBank.capture_load (h : o.wave ≤ 4#3) : (b.load o).capture = o :=
  calc (b.load o).capture = { o with wave := BitVec.ofNat 3 (b.load o).wave.code } := rfl
    _ = o := by rw [b.ofNat_load_wave_code h]

end OneOperator

/-! ### The register set -/

section RegisterSet

variable {N : Type} [Zero N] [One N] [Add N] [Sub N] [Mul N] [Div N] [Neg N] [NatCast N] [IntCast N] [RatCast N]
  [LE N] [LT N] [DecidableLE N] [DecidableLT N] [DecidableEq N] (C : Config N) (e : Engine N) {p : Preset N} {tMin : N}

/-- 46_preset.md R210, R213: loading a valid Preset makes the capture that Preset. -/
theorem Engine.capture_loadPreset (h : p.Valid tMin) : (e.loadPreset C p).capture = p := by
  have hbanks : (e.loadPreset C p).op.map OpBank.capture = p.op := Quad.ext_get fun i => by
    rw [Quad.get_map, Engine.loadPreset_op, Quad.get_ofFn, OpBank.capture_load _ (h.wave_le i)]
  calc (e.loadPreset C p).capture = { p with op := (e.loadPreset C p).op.map OpBank.capture } := rfl
    _ = p := by rw [hbanks]

end RegisterSet

/-- 46_preset.md R210: the end of `LOADP` that completes. -/
theorem exec_loadp_of_valid {p : Preset Scalar} (s : State) (h : p.Valid Config.chip.tMin) :
    exec (.loadp p) s = .next { s with eng := (s.eng.loadPreset Config.chip p).retire } := by
  rw [exec_loadp, if_pos h]
  rfl

/-- Settles O52: the next state is that of `exec_loadp_of_valid`, its capture is the Preset, and loading a bank keeps its dynamic
registers. -/
theorem loadpReplacesTheParametersAndNothingDynamic : Obligations.LoadpReplacesTheParametersAndNothingDynamic := by
  intro p s hvalid
  refine ⟨_, exec_loadp_of_valid s hvalid, Engine.capture_loadPreset Config.chip s.eng hvalid, rfl, fun i => ?_⟩
  rw [Engine.retire_op, Engine.loadPreset_op, Quad.get_ofFn]
  exact ⟨OpBank.load_phase _ _, OpBank.load_lfoPhase _ _, OpBank.load_env_state _ _, OpBank.load_env_level _ _⟩

end Sys2Proof.Machine
end

section
/-! The command stream (30_encoding.md sections 2 to 4): what a header decodes to, said once as a relation, and from it the operands
that fit their fields, the length taken and the row of the opcode map; and the way back from an encoded command. -/

namespace Sys2Proof

open Sys2Proof.Machine

variable {N : Type}

/-- Header `h` before the items of the first list decodes to the command and leaves the items of the second (30_encoding.md R84 to
R92). -/
inductive HeaderReads (h : BitVec 32) : List (ItemOf N) → Command N → List (ItemOf N) → Prop where
  | nop (r) : opcode h = 0x00 → HeaderReads h r .nop r
  | noteon (v r) : opcode h = 0x01 → HeaderReads h (.num v :: r) (.noteon (bits h 22 16) v) r
  | noteoff (r) : opcode h = 0x02 → HeaderReads h r .noteoff r
  | render (r) : opcode h = 0x03 → HeaderReads h r (.render (bits h 23 0)) r
  | setalg (r) : opcode h = 0x10 → HeaderReads h r (.setalg (sext16 (bits h 15 0))) r
  | morph (v r) : opcode h = 0x11 → HeaderReads h (.num v :: r) (.morph (sext16 (bits h 15 0)) v) r
  | lock (v r) : opcode h = 0x20 → HeaderReads h (.num v :: r) (lockCommand (bits h 15 8) (bits h 23 16) v) r
  | setop (v r) : opcode h = 0x30 →
      HeaderReads h (.num v :: r) (setopCommand (bits h 15 8) (bits h 23 16) (bits h 7 0) v) r
  | loadp (pw) (p : Preset N) (r) : opcode h = 0x40 → p.HasWord pw →
      HeaderReads h (.word pw :: ((presetItems p).tail ++ r)) (.loadp p) r
  | capp (r) : opcode h = 0x41 → HeaderReads h r .capp r

/-- Everything the reading of a Preset can do, if it succeeds: a payload word and the 38 numeric items (30_encoding.md R91). -/
theorem takePreset_eq_ok {xs rest : List (ItemOf N)} {c : Command N} (h : takePreset xs = .ok (c, rest)) :
    ∃ pw p, xs = .word pw :: ((presetItems p).tail ++ rest) ∧ p.HasWord pw ∧ c = .loadp p := by
  obtain ⟨pw, p, rfl, hw, rfl⟩ := takePreset_ok h
  refine ⟨pw, p, ?_, hw, rfl⟩
  simp only [presetItems, List.tail_cons, List.append_assoc, List.cons_append, List.nil_append]

/-- Everything the decoder can do on a header, if it succeeds. -/
theorem headerReads_of_decodeHeader {h : BitVec 32} {r rest : List (ItemOf N)} {c : Command N}
    (hd : decodeHeader h r = .ok (c, rest)) : HeaderReads h r c rest := by
  unfold decodeHeader at hd
  split at hd
  case h_1 ho => cases hd; exact .nop _ ho
  case h_2 ho => obtain ⟨v, r', rfl, hd'⟩ := takeNum_ok hd; cases hd'; exact .noteon v _ ho
  case h_3 ho => cases hd; exact .noteoff _ ho
  case h_4 ho => cases hd; exact .render _ ho
  case h_5 ho => cases hd; exact .setalg _ ho
  case h_6 ho => obtain ⟨v, r', rfl, hd'⟩ := takeNum_ok hd; cases hd'; exact .morph v _ ho
  case h_7 ho => obtain ⟨v, r', rfl, hd'⟩ := takeNum_ok hd; cases hd'; exact .lock v _ ho
  case h_8 ho => obtain ⟨v, r', rfl, hd'⟩ := takeNum_ok hd; cases hd'; exact .setop v _ ho
  case h_9 ho => obtain ⟨pw, p, rfl, hw, rfl⟩ := takePreset_eq_ok hd; exact .loadp pw p _ ho hw
  case h_10 ho => cases hd; exact .capp _ ho
  case h_11 => cases hd

/-- Everything the decoder of the opcode table can do, if it succeeds: the first item is a header, and the command is one that the
header reads. -/
theorem headerReads_of_decode {xs rest : List Item} {i : Instr} (hd : decode xs = .ok (i, rest)) :
    ∃ h r c, xs = .word h :: r ∧ HeaderReads h r c rest ∧ c.instr = i := by
  obtain ⟨c, hc, hi⟩ := (decode_ok_iff _ _ _).mp hd
  obtain ⟨h, r, rfl, hr⟩ := takeWord_ok hc
  exact ⟨h, r, c, rfl, headerReads_of_decodeHeader hr, hi⟩

/-! ### Operands that fit their fields -/

theorem fitsByte_bits (h : BitVec 32) {hi lo : Nat} (hw : hi + 1 - lo = 8) : fitsByte (bits h hi lo) = true := by
  have hlt := bits_lt h hi lo
  rw [hw] at hlt
  simpa [fitsByte] using Nat.le_of_lt_succ hlt

theorem wellFormed_lockCommand {i : Nat} (key : Nat) (v : Scalar) (hi : fitsByte i = true) :
    WellFormed (lockCommand key i v).instr = true := by
  unfold lockCommand
  split
  case h_4 | h_5 => exact hi
  all_goals rfl

theorem wellFormed_setopCommand {i wc : Nat} (sel : Nat) (v : Scalar) (hi : fitsByte i = true) (hwc : fitsByte wc = true) :
    WellFormed (setopCommand sel i wc v).instr = true := by
  unfold setopCommand
  split
  case h_3 => simp only [Command.instr, WellFormed, hi, hwc, Bool.and_self]
  case h_11 => rfl
  all_goals exact hi

/-- A header gives every integer operand a value its field can hold. -/
theorem HeaderReads.wellFormed {h : BitVec 32} {r rest : List Item} {c : Command Scalar} (hr : HeaderReads h r c rest) :
    WellFormed c.instr = true := by
  cases hr with
  | nop | noteoff | capp => rfl
  | noteon => exact decide_eq_true (Nat.le_of_lt_succ (bits_lt h 22 16))
  | render => exact decide_eq_true (Nat.le_of_lt_succ (bits_lt h 23 0))
  | setalg | morph => exact fitsSigned16_sext16 (bits_lt h 15 0)
  | lock => exact wellFormed_lockCommand _ _ (fitsByte_bits h rfl)
  | setop => exact wellFormed_setopCommand _ _ (fitsByte_bits h rfl) (fitsByte_bits h rfl)
  | loadp pw p _ _ hw =>
    have hid : fitsSigned16 p.algId = true := hw.algId ▸ fitsSigned16_sext16 (bits_lt pw 15 0)
    exact hid

/-- A decoded command is well-formed. -/
theorem wellFormed_of_decode {xs rest : List Item} {i : Instr} (hd : decode xs = .ok (i, rest)) : WellFormed i = true := by
  obtain ⟨h, r, c, -, hr, rfl⟩ := headerReads_of_decode hd
  exact hr.wellFormed

/-! ### The way back from an encoded command -/

section Encode

variable {r : List Item}

/-- The decoder on a header that `header` lays out, its opcode and fields given. -/
theorem decode_header {opc f : Nat} {c : Command Scalar} {rest : List Item}
    (hd : decodeHeader (BitVec.ofNat 32 (opc * 2 ^ 24 + f)) r = .ok (c, rest)) :
    decode (header opc f :: r) = .ok (c.instr, rest) :=
  decode_of_command ((decodeCommand_header opc f r).trans hd)

/-- The three fields of formats L and S in a header that `selected` lays out (30_encoding.md R89, R90). -/
theorem bits_selected {opc i code low : Nat} (ho : opc < 256) (hi : i ≤ 255) (hc : code ≤ 255) (hl : low ≤ 255) :
    bits (BitVec.ofNat 32 (opc * 2 ^ 24 + (i * 2 ^ 16 + code * 2 ^ 8 + low))) 15 8 = code ∧
      bits (BitVec.ofNat 32 (opc * 2 ^ 24 + (i * 2 ^ 16 + code * 2 ^ 8 + low))) 23 16 = i ∧
      bits (BitVec.ofNat 32 (opc * 2 ^ 24 + (i * 2 ^ 16 + code * 2 ^ 8 + low))) 7 0 = low := by
  have hf : i * 2 ^ 16 + code * 2 ^ 8 + low < 2 ^ 24 := by omega
  rw [bits_headerWord ho hf (by omega), bits_headerWord ho hf (by omega), bits_headerWord ho hf (by omega)]
  refine ⟨?_, ?_, ?_⟩ <;> omega

/-- 30_encoding.md R89. -/
theorem decode_selected_lock {i code : Nat} (v : Scalar) (hi : i ≤ 255) (hc : code ≤ 255) :
    decode (selected 0x20 i code 0 v ++ r) = .ok ((lockCommand code i v).instr, r) := by
  obtain ⟨hkey, hidx, -⟩ := bits_selected (opc := 0x20) (low := 0) (by omega) hi hc (by omega)
  refine decode_header (r := .num v :: r) ?_
  rw [decodeHeader_lock (opcode_headerWord (by omega) (by omega)), takeNum_num, hkey, hidx]

/-- 30_encoding.md R90. -/
theorem decode_selected_setop {i code low : Nat} (v : Scalar) (hi : i ≤ 255) (hc : code ≤ 255) (hl : low ≤ 255) :
    decode (selected 0x30 i code low v ++ r) = .ok ((setopCommand code i low v).instr, r) := by
  obtain ⟨hsel, hidx, hlow⟩ := bits_selected (opc := 0x30) (by omega) hi hc hl
  refine decode_header (r := .num v :: r) ?_
  rw [decodeHeader_setop (opcode_headerWord (by omega) (by omega)), takeNum_num, hsel, hidx, hlow]

/-- The low 16 bits of a header that carries an algorithm id (30_encoding.md R88). -/
theorem sext16_bits_header {opc : Nat} {id : Int} (ho : opc < 256) (hid : fitsSigned16 id = true) :
    sext16 (bits (BitVec.ofNat 32 (opc * 2 ^ 24 + unsext16 id)) 15 0) = id := by
  have hu := unsext16_lt id
  rw [bits_headerWord ho (hu.trans (by omega)) (by omega), show unsext16 id / 2 ^ 0 % 2 ^ (15 + 1 - 0) = unsext16 id by omega,
    sext16_unsext16 hid]

/-- 30_encoding.md R91: the 39 payload items of a Preset whose id fits its field. -/
theorem takePreset_presetItems {p : Preset N} (hid : fitsSigned16 p.algId = true) (r : List (ItemOf N)) :
    takePreset (presetItems p ++ r) = .ok (.loadp p, r) := by
  obtain ⟨hb, h0, h1, h2, h3⟩ := bits_presetWord p
  simp only [presetItems, List.cons_append, List.append_assoc, List.nil_append]
  rw [takePreset_word, hb, h0, h1, h2, h3, takeOp_opItems, takeOp_opItems, takeOp_opItems, takeOp_opItems, takeNum_num, takeNum_num,
    sext16_unsext16 hid]

/-- Decoding an encoded command gives it back, one case for each format of 30_encoding.md section 3. -/
theorem decode_encode (i : Instr) (rest : List Item) (hw : WellFormed i = true) : decode (encode i ++ rest) = .ok (i, rest) := by
  have byte : ∀ {k : Nat}, fitsByte k = true → k ≤ 255 := fun h => of_decide_eq_true h
  cases i with
  | nop => exact decode_header (decodeHeader_nop (opcode_headerWord (by omega) (by omega)))
  | noteoff => exact decode_header (decodeHeader_noteoff (opcode_headerWord (by omega) (by omega)))
  | capp => exact decode_header (decodeHeader_capp (opcode_headerWord (by omega) (by omega)))
  | noteon note vel =>
    have hn : note ≤ 127 := of_decide_eq_true hw
    have hf : note * 2 ^ 16 < 2 ^ 24 := by omega
    refine decode_header (c := .noteon note vel) (r := .num vel :: rest) ?_
    rw [decodeHeader_noteon (opcode_headerWord (by omega) hf), takeNum_num,
      bits_headerWord (by omega) hf (by omega), show note * 2 ^ 16 / 2 ^ 16 % 2 ^ (22 + 1 - 16) = note by omega]
  | render n =>
    have hn : n ≤ 16777215 := of_decide_eq_true hw
    refine decode_header (c := .render n) ?_
    rw [decodeHeader_render (opcode_headerWord (by omega) (by omega)), bits_headerWord (by omega) (by omega) (by omega),
      show n / 2 ^ 0 % 2 ^ (23 + 1 - 0) = n by omega]
    rfl
  | setalg id =>
    refine decode_header (c := .setalg id) ?_
    rw [decodeHeader_setalg (opcode_headerWord (by omega) ((unsext16_lt id).trans (by omega))), sext16_bits_header (by omega) hw]
    rfl
  | morph id amount =>
    refine decode_header (c := .morph id amount) (r := .num amount :: rest) ?_
    rw [decodeHeader_morph (opcode_headerWord (by omega) ((unsext16_lt id).trans (by omega))), takeNum_num,
      sext16_bits_header (by omega) hw]
  | lockAlg | lockDepth | lockFb => exact decode_selected_lock _ (by omega) (by omega)
  | lockRatio | lockLvl => exact decode_selected_lock _ (byte hw) (by omega)
  | setopWave i wc =>
    obtain ⟨hi, hwc⟩ := Bool.and_eq_true_iff.mp hw
    exact decode_selected_setop _ (byte hi) (by omega) (byte hwc)
  | setopRatio | setopLvl | setopLforate | setopLfoamt | setopVsens | setopAtk | setopDec | setopSus | setopRel =>
    exact decode_selected_setop _ (byte hw) (by omega) (by omega)
  | loadp p =>
    refine decode_header (c := .loadp p) ?_
    rw [decodeHeader_loadp (opcode_headerWord (by omega) (by omega))]
    exact takePreset_presetItems hw rest

end Encode

/-- Settles O56: `decode_encode`. -/
theorem decodeOfEncodeIsTheCommand : Obligations.DecodeOfEncodeIsTheCommand := decode_encode

/-! ### The length taken, and the opcode map -/

/-- 30_encoding.md R84: the items a header's command takes, itself included. -/
theorem HeaderReads.exists_taken {h : BitVec 32} {r rest : List (ItemOf N)} {c : Command N} (hr : HeaderReads h r c rest) :
    ∃ taken, .word h :: r = taken ++ rest ∧ taken.length = commandLength (opcode h) := by
  cases hr with
  | nop _ ho | noteoff _ ho | render _ ho | setalg _ ho | capp _ ho => exact ⟨[.word h], rfl, by rw [ho]; rfl⟩
  | noteon v _ ho | morph v _ ho | lock v _ ho | setop v _ ho => exact ⟨[.word h, .num v], rfl, by rw [ho]; rfl⟩
  | loadp pw p _ ho => exact ⟨.word h :: .word pw :: (presetItems p).tail, rfl, by rw [ho]; rfl⟩

/-- Settles O57: `HeaderReads.exists_taken`. -/
theorem decodeTakesTheLengthOfItsOpcode : Obligations.DecodeTakesTheLengthOfItsOpcode := by
  intro h r rest i hd
  obtain ⟨h', r', c, heq, hr, -⟩ := headerReads_of_decode hd
  cases heq
  exact hr.exists_taken

/-- A field is the number that its bits are. -/
theorem bits_eq_extractLsb' (h : BitVec 32) (hi lo : Nat) : bits h hi lo = (h.extractLsb' lo (hi + 1 - lo)).toNat := by
  rw [BitVec.extractLsb'_toNat, Nat.shiftRight_eq_div_pow]
  rfl

/-- A header that a row of the opcode map selects has the row's value in each field that the row's mask covers. -/
theorem bits_eq_of_masked {h mask pattern : BitVec 32} {hi lo : Nat} (hm : h &&& mask = pattern)
    (hcover : mask.extractLsb' lo (hi + 1 - lo) = BitVec.allOnes _) : bits h hi lo = bits pattern hi lo := by
  rw [bits_eq_extractLsb', bits_eq_extractLsb', ← hm, BitVec.extractLsb'_and, hcover, BitVec.and_allOnes]

/-- No header selects both of two rows whose patterns differ where both masks look. -/
theorem not_masked_of_ne {a b : OpcodeRow} (hne : a.pattern &&& b.mask ≠ b.pattern &&& a.mask) (h : BitVec 32) :
    ¬(h &&& a.mask = a.pattern ∧ h &&& b.mask = b.pattern) := by
  rintro ⟨ha, hb⟩
  apply hne
  rw [← ha, ← hb, BitVec.and_assoc, BitVec.and_assoc, BitVec.and_comm a.mask]

/-- The mnemonic of a lock does not depend on its operands. -/
theorem mnemonic_lockCommand (key i : Nat) (v : Scalar) :
    mnemonic (lockCommand key i v).instr = mnemonic (lockCommand key 0 0 : Command Scalar).instr := by
  unfold lockCommand
  split <;> rfl

/-- The mnemonic of a setter does not depend on its operands. -/
theorem mnemonic_setopCommand (sel i wc : Nat) (v : Scalar) :
    mnemonic (setopCommand sel i wc v).instr = mnemonic (setopCommand sel 0 0 0 : Command Scalar).instr := by
  unfold setopCommand
  split <;> rfl

/-- The rows of the opcode map whose opcode alone names the command (30_encoding.md R92). -/
theorem mnemonic_of_plainRow : ∀ row ∈ opcodeRows, ∀ p ∈ [(0x00, "NOP"), (0x01, "NOTEON"), (0x02, "NOTEOFF"), (0x03, "RENDER"),
    (0x10, "SETALG"), (0x11, "MORPH"), (0x40, "LOADP"), (0x41, "CAPP")], bits row.pattern 31 24 = p.1 → p.2 = row.mnemonic := by
  decide

/-- A command has the mnemonic of the row that its header selects: the row's pattern fixes the opcode, and for `LOCK` and `SETOP` the
key. -/
theorem HeaderReads.mnemonic_eq {h : BitVec 32} {r rest : List Item} {c : Command Scalar} (hr : HeaderReads h r c rest)
    {row : OpcodeRow} (hrow : row ∈ opcodeRows) (hm : h &&& row.mask = row.pattern) : mnemonic c.instr = row.mnemonic := by
  have hopc : opcode h = bits row.pattern 31 24 := by
    have hcover : ∀ row ∈ opcodeRows, row.mask.extractLsb' 24 8 = BitVec.allOnes 8 := by decide
    exact bits_eq_of_masked hm (hcover row hrow)
  have hkey : row.mask = 0xFF00FF00 → bits h 15 8 = bits row.pattern 15 8 := fun hmask =>
    bits_eq_of_masked hm (by rw [hmask]; rfl)
  cases hr with
  | nop _ ho => exact mnemonic_of_plainRow row hrow (0x00, "NOP") (by decide) (hopc.symm.trans ho)
  | noteon _ _ ho => exact mnemonic_of_plainRow row hrow (0x01, "NOTEON") (by decide) (hopc.symm.trans ho)
  | noteoff _ ho => exact mnemonic_of_plainRow row hrow (0x02, "NOTEOFF") (by decide) (hopc.symm.trans ho)
  | render _ ho => exact mnemonic_of_plainRow row hrow (0x03, "RENDER") (by decide) (hopc.symm.trans ho)
  | setalg _ ho => exact mnemonic_of_plainRow row hrow (0x10, "SETALG") (by decide) (hopc.symm.trans ho)
  | morph _ _ ho => exact mnemonic_of_plainRow row hrow (0x11, "MORPH") (by decide) (hopc.symm.trans ho)
  | loadp _ _ _ ho => exact mnemonic_of_plainRow row hrow (0x40, "LOADP") (by decide) (hopc.symm.trans ho)
  | capp _ ho => exact mnemonic_of_plainRow row hrow (0x41, "CAPP") (by decide) (hopc.symm.trans ho)
  | lock v _ ho =>
    have hrows : ∀ row ∈ opcodeRows, bits row.pattern 31 24 = 0x20 → row.mask = 0xFF00FF00 ∧
        mnemonic (lockCommand (bits row.pattern 15 8) 0 0 : Command Scalar).instr = row.mnemonic := by decide
    obtain ⟨hmask, hname⟩ := hrows row hrow (hopc.symm.trans ho)
    rw [mnemonic_lockCommand, hkey hmask, hname]
  | setop v _ ho =>
    have hrows : ∀ row ∈ opcodeRows, bits row.pattern 31 24 = 0x30 → row.mask = 0xFF00FF00 ∧
        mnemonic (setopCommand (bits row.pattern 15 8) 0 0 0 : Command Scalar).instr = row.mnemonic := by decide
    obtain ⟨hmask, hname⟩ := hrows row hrow (hopc.symm.trans ho)
    rw [mnemonic_setopCommand, hkey hmask, hname]

/-- Settles O58: the rows differ where both masks look, and the decoder follows the row by `HeaderReads.mnemonic_eq`. -/
theorem decodeFollowsTheOpcodeMap : Obligations.DecodeFollowsTheOpcodeMap := by
  have hne : opcodeRows.Pairwise fun a b => a.pattern &&& b.mask ≠ b.pattern &&& a.mask := by decide
  refine ⟨hne.imp not_masked_of_ne, rfl, fun row hrow h r rest i hm hd => ?_⟩
  obtain ⟨h', r', c, heq, hr, rfl⟩ := headerReads_of_decode hd
  cases heq
  exact hr.mnemonic_eq hrow hm

/-! ### The step on the head of the port -/

/-- 30_encoding.md R94. -/
theorem decodeHeader_reserved {h : BitVec 32} (ho : opcode h ∉ [0x00, 0x01, 0x02, 0x03, 0x10, 0x11, 0x20, 0x30, 0x40, 0x41])
    (r : List (ItemOf N)) : decodeHeader h r = .error (.reserved (BitVec.ofNat 8 (opcode h))) := by
  unfold decodeHeader
  split
  case h_11 => rfl
  all_goals simp_all

/-- Unknown `LOCK` keys (45_parameters.md R183, 30_encoding.md R96). -/
theorem lockCommand_unknown {key : Nat} (hk : key ∉ [0x00, 0x01, 0x02, 0x10, 0x11]) (i : Nat) (v : N) :
    lockCommand key i v = .nop := by
  unfold lockCommand
  split
  case h_6 => rfl
  all_goals simp at hk

/-- Unassigned `SETOP` selectors (45_parameters.md R203, 30_encoding.md R96). -/
theorem setopCommand_unassigned {sel : Nat} (hs : sel ∉ [0x00, 0x01, 0x02, 0x03, 0x04, 0x05, 0x08, 0x09, 0x0A, 0x0B]) (i wc : Nat)
    (v : N) : setopCommand sel i wc v = .nop := by
  unfold setopCommand
  split
  case h_11 => rfl
  all_goals simp at hs

/-- 10_state.md R40 (a), (b): with no frames left the step runs the command at the head of the port. -/
theorem step_of_decode {s : State} {i : Instr} {rest : List Item} (hf : s.eng.fr = 0) (hd : decode s.cmdIn = .ok (i, rest)) :
    step s = exec i { s with cmdIn := rest } := by
  have hfetch := (s.fetch_ok_iff _ i).mpr ⟨rest, hd, rfl⟩
  simp only [step, if_pos hf, hfetch]

/-- With no frames left and no command that can be read, the step is what `State.noCommand` says. -/
theorem step_of_decode_error {s : State} {r : DecodeError} (hf : s.eng.fr = 0) (hd : decode s.cmdIn = .error r) :
    step s = s.noCommand r := by
  have hfetch := (s.fetch_error_iff r).mpr hd
  simp only [step, if_pos hf, hfetch]

/-- Settles O5: `wellFormed_of_decode` and `step_of_decode`. -/
theorem stepRunsTheDecodedCommand : Obligations.StepRunsTheDecodedCommand :=
  fun _ _ _ hf hd => ⟨wellFormed_of_decode hd, step_of_decode hf hd⟩

/-- Settles O7: `State.noCommand` holds the state where the items are incomplete. -/
theorem stepHoldsTheStateWithoutACommand : Obligations.StepHoldsTheStateWithoutACommand :=
  fun _ hf hd => step_of_decode_error hf hd

/-- Settles O59: the header is rejected whatever follows, on the item stream and through `dec` on the words of a bit-level port. -/
theorem reservedOpcodesAreRefused : Obligations.ReservedOpcodesAreRefused := by
  refine fun h ho => ⟨fun r s hf hs => ?_, ?_⟩
  · have hd : decode s.cmdIn = .error (.reserved (BitVec.ofNat 8 (opcode h))) := by
      rw [hs, decode_error_iff, decodeCommand_word, decodeHeader_reserved ho]
    exact step_of_decode_error hf hd
  · intro N _ _ _ _ _ _ _ _ _ _ _ _ _ _ _ C W r nz e hW hf hpc
    have hat : commandAt e.pc (.word h :: r.map W.read) = .error (.reserved (BitVec.ofNat 8 (opcode h))) := by
      rw [hpc, commandAt_zero_error_iff, decodeCommand_word, decodeHeader_reserved ho]
    have hstep : e.itemStep C (.word h :: r.map W.read) nz = .refused (.reservedOpcode (BitVec.ofNat 8 (opcode h))) := by
      unfold Engine.itemStep Engine.stepOn
      rw [if_pos hf, hat]
      rfl
    rw [Engine.wireStep, hW]
    exact congrArg some hstep

/-- Settles O60: the decoder evaluated on each of the ten words. -/
theorem specWordsDecodeToTheirCommands : Obligations.SpecWordsDecodeToTheirCommands :=
  ⟨rfl, rfl, rfl, rfl, rfl, rfl, rfl, rfl, rfl, rfl⟩

/-- Settles O51: both headers decode to `NOP` with their payload item taken, and `NOP` moves `pc` alone. -/
theorem unknownKeysAndSelectorsConsumeTheirPayload : Obligations.UnknownKeysAndSelectorsConsumeTheirPayload := by
  intro h v rest s hf hs hkey
  have hd : decodeCommand s.cmdIn = .ok (.nop, rest) := by
    rw [hs, decodeCommand_word]
    rcases hkey with ⟨ho, hk⟩ | ⟨ho, hsel⟩
    · rw [decodeHeader_lock ho, takeNum_num, lockCommand_unknown hk]
    · rw [decodeHeader_setop ho, takeNum_num, setopCommand_unassigned hsel]
  rw [step_of_decode hf (decode_of_command hd)]
  rfl

end Sys2Proof
end

section
/-! What a step leaves and writes: one lemma per group of registers over all commands, and from each the statement about every
step. -/

namespace Sys2Proof.Machine

open Sys2Proof

/-! ### Completing commands -/

/-- Every command but a `RENDER` with frames and a `LOADP` of an invalid Preset completes with the registers of `Engine.after`. -/
theorem exec_of_completes {i : Instr} (hrender : ∀ n, i = .render n → n = 0)
    (hloadp : ∀ p, i = .loadp p → p.Valid Config.chip.tMin) (s : State) : exec i s = s.retire (s.eng.after Config.chip i) := by
  cases i with
  | render n =>
    obtain rfl := hrender n rfl
    rfl
  | loadp p => rw [exec_loadp, if_pos (hloadp p rfl)]; rfl
  | _ => rfl

section Banks

variable {N : Type} (e : Engine N)

/-- A register write reads back in the bank of its index alone. -/
theorem Engine.writeOp_op_get (i : Nat) (f : OpBank N → OpBank N) (k : Fin 4) :
    (e.writeOp i f).op.get k = if k.val = i then f (e.op.get k) else e.op.get k := by
  unfold Engine.writeOp
  split_ifs with hi hk hk
  · subst hk
    rw [Quad.get_update_self]
  · exact Quad.get_update_ne _ _ fun h => hk (congrArg Fin.val h)
  · exact absurd (hk ▸ k.isLt) hi
  · rfl

/-- What a register write leaves in the bank it writes, it leaves in every bank. -/
theorem Engine.writeOp_op_proj {α : Type} {g : OpBank N → α} {f : OpBank N → OpBank N} (hf : ∀ b, g (f b) = g b) (i : Nat)
    (k : Fin 4) : g ((e.writeOp i f).op.get k) = g (e.op.get k) := by
  rw [Engine.writeOp_op_get]
  split_ifs
  · exact hf _
  · rfl

/-- 20_memory.md R67: an index above 3 writes nothing. -/
theorem Engine.writeOp_of_lt {i : Nat} (hi : 3 < i) (f : OpBank N → OpBank N) : e.writeOp i f = e := dif_neg (by omega)

/-- The dynamic registers of a bank: phases and envelope state and level (10_state.md R24, R25, R31, R32). -/
def OpBank.dyn (b : OpBank N) : N × N × EnvState × N := (b.phase, b.lfoPhase, b.env.state, b.env.level)

end Banks

section Commands

variable {N : Type}

/-- `e'` is `e` with nothing written but parameter and algorithm registers (10_state.md R22 to R35, R38): the result of every command
but the note commands and `CAPP`. -/
structure Engine.ParamsWritten (e e' : Engine N) : Prop where
  dyn : ∀ k : Fin 4, (e'.op.get k).dyn = (e.op.get k).dyn
  f0 : e'.f0 = e.f0
  fbReg : e'.fbReg = e.fbReg
  isNoteOn : e'.isNoteOn = e.isNoteOn
  curNote : e'.curNote = e.curNote
  curVel : e'.curVel = e.curVel
  prevOut : e'.prevOut = e.prevOut
  pc : e'.pc = e.pc
  outs : e'.outs = e.outs

/-- A register write that keeps the dynamic registers of a bank writes parameters alone. -/
theorem Engine.paramsWritten_writeOp (e : Engine N) {f : OpBank N → OpBank N} (hf : ∀ b, (f b).dyn = b.dyn) (i : Nat) :
    e.ParamsWritten (e.writeOp i f) :=
  ⟨e.writeOp_op_proj hf i, e.writeOp_f0 i f, e.writeOp_fbReg i f, e.writeOp_isNoteOn i f, e.writeOp_curNote i f,
    e.writeOp_curVel i f, e.writeOp_prevOut i f, e.writeOp_pc i f, e.writeOp_outs i f⟩

variable (i : Instr) (e : Engine Scalar)

/-- Everything a command that completes can do to the registers, but for `pc`. -/
theorem Engine.after_cases :
    e.ParamsWritten (e.after Config.chip i) ∨
      (∃ note vel, i = .noteon note vel ∧ e.after Config.chip i = e.noteOn Config.chip.toNumerics note vel) ∨
      (i = .noteoff ∧ e.after Config.chip i = e.noteOff) ∨
      (i = .capp ∧ e.after Config.chip i = e.emit (.presetOut e.capture)) := by
  cases i with
  | noteon note vel => exact .inr (.inl ⟨note, vel, rfl, rfl⟩)
  | noteoff => exact .inr (.inr (.inl ⟨rfl, rfl⟩))
  | capp => exact .inr (.inr (.inr ⟨rfl, rfl⟩))
  | loadp p =>
    refine .inl ⟨fun k => ?_, rfl, rfl, rfl, rfl, rfl, rfl, rfl, rfl⟩
    rw [Engine.after, Engine.loadPreset_op, Quad.get_ofFn]
    rfl
  | nop | render | setalg | morph | lockAlg | lockDepth | lockFb =>
    exact .inl ⟨fun _ => rfl, rfl, rfl, rfl, rfl, rfl, rfl, rfl, rfl⟩
  | lockRatio | lockLvl | setopRatio | setopLvl | setopWave | setopLforate | setopLfoamt | setopVsens | setopAtk | setopDec
  | setopSus | setopRel => exact .inl (e.paramsWritten_writeOp (by exact fun _ => rfl) _)

/-- What a command does to the dynamic registers of a bank: the two note commands write the envelope state, and no other command
writes any of them (10_state.md R24, R25, R31, R32). -/
theorem Engine.after_op_get_cases (k : Fin 4) :
    ((e.after Config.chip i).op.get k).dyn = (e.op.get k).dyn ∨
      ((∃ note vel, i = .noteon note vel) ∧
        (e.after Config.chip i).op.get k = { e.op.get k with env := (e.op.get k).env.noteOn }) ∨
      (i = .noteoff ∧ (e.after Config.chip i).op.get k = { e.op.get k with env := (e.op.get k).env.noteOff }) := by
  rcases e.after_cases i with hparams | ⟨note, vel, hi, hafter⟩ | ⟨hi, hafter⟩ | ⟨-, hafter⟩
  · exact .inl (hparams.dyn k)
  · refine .inr (.inl ⟨⟨note, vel, hi⟩, ?_⟩)
    rw [hafter, Engine.noteOn_op, Quad.get_map]
  · refine .inr (.inr ⟨hi, ?_⟩)
    rw [hafter, Engine.noteOff_op, Quad.get_map]
  · rw [hafter]
    exact .inl rfl

/-- 10_state.md R37, R40, R41: no command writes the delay registers, and none moves `pc` before it retires. -/
theorem Engine.after_delay_pc :
    (e.after Config.chip i).fbReg = e.fbReg ∧ (e.after Config.chip i).prevOut = e.prevOut ∧
      (e.after Config.chip i).pc = e.pc := by
  rcases e.after_cases i with hparams | ⟨_, _, -, hafter⟩ | ⟨-, hafter⟩ | ⟨-, hafter⟩
  · exact ⟨hparams.fbReg, hparams.prevOut, hparams.pc⟩
  all_goals
    rw [hafter]
    exact ⟨rfl, rfl, rfl⟩

/-- 10_state.md R36, R39: the note registers after a command. -/
theorem Engine.after_noteRegs :
    ((e.after Config.chip i).f0 = e.f0 ∧ (e.after Config.chip i).curNote = e.curNote ∧
        (e.after Config.chip i).curVel = e.curVel ∧ ((e.after Config.chip i).isNoteOn = e.isNoteOn ∨
          i = .noteoff ∧ (e.after Config.chip i).isNoteOn = false)) ∨
      ∃ note vel, i = .noteon note vel ∧ (e.after Config.chip i).curNote = note ∧ (e.after Config.chip i).isNoteOn = true := by
  rcases e.after_cases i with hparams | ⟨note, vel, hi, hafter⟩ | ⟨hi, hafter⟩ | ⟨-, hafter⟩
  · exact .inl ⟨hparams.f0, hparams.curNote, hparams.curVel,
      .inl hparams.isNoteOn⟩
  · rw [hafter]
    exact .inr ⟨note, vel, hi, rfl, rfl⟩
  · rw [hafter]
    exact .inl ⟨rfl, rfl, rfl, .inr ⟨hi, rfl⟩⟩
  · rw [hafter]
    exact .inl ⟨rfl, rfl, rfl, .inl rfl⟩

/-- 10_state.md R42: a command only appends to the output stream. -/
theorem Engine.outs_isPrefix_after : e.outs <+: (e.after Config.chip i).outs := by
  rcases e.after_cases i with hparams | ⟨_, _, -, hafter⟩ | ⟨-, hafter⟩ | ⟨-, hafter⟩
  · exact ⟨[], (List.append_nil _).trans hparams.outs.symm⟩
  · exact ⟨[], (List.append_nil _).trans (congrArg Engine.outs hafter).symm⟩
  · exact ⟨[], (List.append_nil _).trans (congrArg Engine.outs hafter).symm⟩
  · exact ⟨_, (congrArg Engine.outs hafter).symm⟩

end Commands

/-- Settles O11: `RENDER` writes `fr` alone, every other command completes with registers of which the frame's are untouched. -/
theorem noCommandWritesAFrameRegister : Obligations.NoCommandWritesAFrameRegister := by
  intro i s t h
  rcases exec_cases h with ⟨n, rfl, -, rfl⟩ | ⟨-, -, hdone⟩
  · exact ⟨fun _ => ⟨rfl, rfl, rfl⟩, rfl, rfl, rfl, rfl, rfl⟩
  · obtain rfl := (s.retire_next_iff t _).mp hdone
    obtain ⟨hfb, hprev, -⟩ := s.eng.after_delay_pc i
    refine ⟨fun k => ?_, hfb, hprev, rfl, rfl, rfl⟩
    change ((s.eng.after Config.chip i).op.get k).phase = _ ∧ ((s.eng.after Config.chip i).op.get k).lfoPhase = _ ∧
      ((s.eng.after Config.chip i).op.get k).env.level = _
    rcases s.eng.after_op_get_cases i k with hdyn | ⟨-, hbank⟩ | ⟨-, hbank⟩
    · simp only [OpBank.dyn, Prod.mk.injEq] at hdyn
      obtain ⟨hphase, hlfo, -, hlevel⟩ := hdyn
      exact ⟨hphase, hlfo, hlevel⟩
    · rw [hbank]
      exact ⟨rfl, rfl, rfl⟩
    · rw [hbank]
      exact ⟨rfl, rfl, rfl⟩

/-- The registers after a frame, as a step answers them. -/
theorem execFrame_next_iff (s t : State) : execFrame s = .next t ↔
    t = { s with
          eng := s.eng.frameStep Config.chip (s.eng.drawNoise Config.chip s.noisePort s.noiseIdx)
          noiseIdx := s.noiseIdx + s.eng.drawCount } := by
  simp [execFrame, eq_comm]

/-- Settles O9: a frame and a command each move `pc` by at most one and append; a waiting port changes nothing. -/
theorem stepAdvancesPcByAtMostOneAndOnlyAppendsOutput : Obligations.StepAdvancesPcByAtMostOneAndOnlyAppendsOutput := by
  intro s t h
  rcases step_cases h with ⟨-, hframe⟩ | ⟨-, i, rest, -, hexec⟩ | ⟨-, -, rfl⟩
  · obtain rfl := (execFrame_next_iff s t).mp hframe
    refine ⟨?_, _, rfl⟩
    rw [Engine.frameStep_pc]
    split_ifs
    · exact .inr rfl
    · exact .inl rfl
  · rcases exec_cases hexec with ⟨n, -, -, rfl⟩ | ⟨-, -, hdone⟩
    · exact ⟨.inl rfl, [], List.append_nil _⟩
    · obtain rfl := (State.retire_next_iff _ t _).mp hdone
      obtain ⟨-, -, hpc⟩ := s.eng.after_delay_pc i
      exact ⟨.inr (congrArg (· + 1) hpc), s.eng.outs_isPrefix_after i⟩
  · exact ⟨.inl rfl, [], List.append_nil _⟩

/-- Settles O12: a frame writes no note register, and a command as `Engine.after_noteRegs` says. -/
theorem onlyNoteCommandsWriteTheNoteRegisters : Obligations.OnlyNoteCommandsWriteTheNoteRegisters := by
  intro s t h
  rcases step_cases h with ⟨-, hframe⟩ | ⟨hf, i, rest, hd, hexec⟩ | ⟨-, -, rfl⟩
  · obtain rfl := (execFrame_next_iff s t).mp hframe
    exact .inl ⟨rfl, rfl, rfl, rfl⟩
  · rcases exec_cases hexec with ⟨n, -, -, rfl⟩ | ⟨-, -, hdone⟩
    · exact .inl ⟨rfl, rfl, rfl, rfl⟩
    · obtain rfl := (State.retire_next_iff _ t _).mp hdone
      rcases s.eng.after_noteRegs i with ⟨hf0, hnote, hvel, hon | ⟨rfl, hon⟩⟩ | ⟨note, vel, rfl, hnote, hon⟩
      · exact .inl ⟨hf0, hnote, hvel, hon⟩
      · exact .inr (.inl ⟨hf, rest, hd, hf0, hnote, hvel, hon⟩)
      · exact .inr (.inr ⟨hf, note, vel, rest, hd, hnote, hon⟩)
  · exact .inl ⟨rfl, rfl, rfl, rfl⟩

/-- 41_envelope.md R125, R127: an advance leaves idle and sustain as they are. -/
theorem Env.advance_state_of_idle_or_sustain (C : Config Scalar) {b : Env Scalar} (hs : b.state = .idle ∨ b.state = .sustain) :
    (b.advance C).state = b.state := by
  rw [Env.advance_state]
  rcases hs with hs | hs
  · rw [b.rule_of_idle C hs]
  · rw [b.rule_of_sustain C hs]

/-- Settles O13: a frame advances the envelope, a command writes its state as `Engine.after_op_get_cases` says. -/
theorem idleAndSustainAreLeftOnlyByNoteCommands : Obligations.IdleAndSustainAreLeftOnlyByNoteCommands := by
  intro s t k h hs
  rcases step_cases h with ⟨-, hframe⟩ | ⟨hf, i, rest, hd, hexec⟩ | ⟨-, -, rfl⟩
  · obtain rfl := (execFrame_next_iff s t).mp hframe
    rw [Engine.frameStep_op, Quad.get_map, OpBank.next_env]
    exact .inl (Env.advance_state_of_idle_or_sustain _ hs)
  · rcases exec_cases hexec with ⟨n, -, -, rfl⟩ | ⟨-, -, hdone⟩
    · exact .inl rfl
    · obtain rfl := (State.retire_next_iff _ t _).mp hdone
      rcases s.eng.after_op_get_cases i k with hdyn | ⟨⟨note, vel, rfl⟩, hbank⟩ | ⟨rfl, hbank⟩
      · exact .inl (congrArg (fun d => d.2.2.1) hdyn)
      · exact .inr (.inr ⟨hf, note, vel, rest, hd, congrArg (fun b => b.env.state) hbank⟩)
      · exact .inr (.inl ⟨hf, rest, hd, congrArg (fun b => b.env.state) hbank⟩)
  · exact .inl rfl

/-! ### The two registers that nothing reads -/

/-- The registers with another note number and note flag. -/
def Engine.withNote (on : Bool) (note : Nat) (e : Engine Scalar) : Engine Scalar := { e with isNoteOn := on, curNote := note }

/-- The state with another note number and note flag. -/
def State.withNote (on : Bool) (note : Nat) (s : State) : State := { s with eng := s.eng.withNote on note }

theorem sameButNote_iff {s s' : State} : SameButNote s s' ↔ ∃ on note, s' = s.withNote on note := by
  constructor
  · exact fun h => ⟨_, _, h⟩
  · rintro ⟨on, note, rfl⟩
    rfl

theorem Engine.writeOp_withNote (e : Engine Scalar) (on : Bool) (note k : Nat) (f : OpBank Scalar → OpBank Scalar) :
    (e.withNote on note).writeOp k f = (e.writeOp k f).withNote on note := by
  unfold Engine.writeOp
  split_ifs <;> rfl

/-- A command reads neither register. -/
theorem Engine.after_withNote (i : Instr) (e : Engine Scalar) (on : Bool) (note : Nat) :
    ∃ on' note', (e.withNote on note).after Config.chip i = (e.after Config.chip i).withNote on' note' := by
  cases i with
  | noteon n vel => exact ⟨true, n, rfl⟩
  | noteoff => exact ⟨false, note, rfl⟩
  | nop | render | setalg | morph | lockAlg | lockDepth | lockFb | loadp | capp => exact ⟨on, note, rfl⟩
  | lockRatio | lockLvl | setopRatio | setopLvl | setopWave | setopLforate | setopLfoamt | setopVsens | setopAtk | setopDec
  | setopSus | setopRel => exact ⟨on, note, e.writeOp_withNote on note _ _⟩

/-- A command that answers a next state answers one from the other note number and flag too, and the two differ in these alone. -/
theorem exec_withNote {i : Instr} {s t : State} (h : exec i s = .next t) (on : Bool) (note : Nat) :
    ∃ on' note', exec i (s.withNote on note) = .next (t.withNote on' note') := by
  rcases exec_cases h with ⟨n, rfl, hn, rfl⟩ | ⟨hrender, hloadp, hdone⟩
  · refine ⟨on, note, ?_⟩
    simp only [exec, execRender, Engine.startRender_of_ne _ hn]
    rfl
  · obtain rfl := (s.retire_next_iff t _).mp hdone
    obtain ⟨on', note', hafter⟩ := s.eng.after_withNote i on note
    refine ⟨on', note', ?_⟩
    rw [exec_of_completes hrender hloadp, State.retire_eq, State.withNote, hafter]
    rfl

/-- Settles O14: a frame reads neither register, and a command as `exec_withNote` says. -/
theorem noteNumberAndFlagInfluenceNothing : Obligations.NoteNumberAndFlagInfluenceNothing := by
  intro s s' t hsame h
  obtain ⟨on, note, rfl⟩ := sameButNote_iff.mp hsame
  suffices ∃ on' note', step (s.withNote on note) = .next (t.withNote on' note') by
    obtain ⟨on', note', hstep⟩ := this
    exact ⟨_, hstep, sameButNote_iff.mpr ⟨on', note', rfl⟩⟩
  rcases step_cases h with ⟨hf, hframe⟩ | ⟨hf, i, rest, hd, hexec⟩ | ⟨hf, hd, rfl⟩
  · obtain rfl := (execFrame_next_iff s t).mp hframe
    exact ⟨on, note, if_neg hf⟩
  · obtain ⟨on', note', hexec'⟩ := exec_withNote hexec on note
    exact ⟨on', note', (step_of_decode (s := s.withNote on note) hf hd).trans hexec'⟩
  · exact ⟨on, note, step_of_decode_error (s := t.withNote on note) hf hd⟩

/-! ### What is refused -/

/-- Logs 5 and 6: the two reasons for which no command can be read and the step is refused. -/
theorem Engine.noCommand_refused_iff {N : Type} (e : Engine N) (r : Refusal) (d : DecodeError) :
    e.noCommand d = .refused r ↔ (∃ opc, d = .reserved opc ∧ r = .reservedOpcode opc) ∨ (d = .itemKind ∧ r = .itemKind) := by
  cases d <;> simp [Engine.noCommand, eq_comm]

section Refusal

variable {N : Type} [Zero N] [One N] [Add N] [Sub N] [Mul N] [Div N] [Neg N] [NatCast N] [IntCast N] [RatCast N]
  [LE N] [LT N] [DecidableLE N] [DecidableLT N] [DecidableEq N] (C : Config N) (e : Engine N) (r : Refusal)

/-- 46_preset.md R212, log 7: the one command that is refused. -/
theorem Engine.perform_refused_iff (c : Command N) :
    e.perform C c = .refused r ↔ ∃ p, c = .loadp p ∧ ¬p.Valid C.tMin ∧ r = .invalidPreset := by
  cases c with
  | loadp p =>
    change e.loadp C p = _ ↔ _
    unfold Engine.loadp
    by_cases hp : p.Valid C.tMin
    · rw [if_pos hp]
      exact ⟨nofun, fun ⟨q, hq, hinvalid, _⟩ => absurd hp (Command.loadp.inj hq ▸ hinvalid)⟩
    · rw [if_neg hp]
      exact ⟨fun h => ⟨p, rfl, hp, (Host.Outcome.refused.inj h).symm⟩, fun ⟨_, _, _, hr⟩ => congrArg _ hr.symm⟩
  | _ => exact ⟨nofun, fun ⟨_, hc, _⟩ => nomatch hc⟩

/-- Everything a step can refuse, in any number system. -/
theorem Engine.stepOn_refused_iff (c : Except DecodeError (Command N)) (nz : Quad N) :
    e.stepOn C c nz = .refused r ↔ e.fr = 0 ∧
      ((∃ opc, c = .error (.reserved opc) ∧ r = .reservedOpcode opc) ∨ (c = .error .itemKind ∧ r = .itemKind) ∨
        ∃ p, c = .ok (.loadp p) ∧ ¬p.Valid C.tMin ∧ r = .invalidPreset) := by
  unfold Engine.stepOn
  by_cases hf : e.fr = 0
  · rw [if_pos hf]
    cases c with
    | ok c =>
      refine (e.perform_refused_iff C r c).trans ⟨fun ⟨p, hc, hp⟩ => ⟨hf, .inr (.inr ⟨p, congrArg _ hc, hp⟩)⟩, ?_⟩
      rintro ⟨-, ⟨_, hc, -⟩ | ⟨hc, -⟩ | ⟨p, hc, hp⟩⟩
      · cases hc
      · cases hc
      · exact ⟨p, Except.ok.inj hc, hp⟩
    | error d =>
      refine (e.noCommand_refused_iff r d).trans ⟨?_, ?_⟩
      · rintro (⟨opc, hd, hr⟩ | ⟨hd, hr⟩)
        · exact ⟨hf, .inl ⟨opc, congrArg _ hd, hr⟩⟩
        · exact ⟨hf, .inr (.inl ⟨congrArg _ hd, hr⟩)⟩
      · rintro ⟨-, ⟨opc, hd, hr⟩ | ⟨hd, hr⟩ | ⟨_, hd, -⟩⟩
        · exact .inl ⟨opc, Except.error.inj hd, hr⟩
        · exact .inr ⟨Except.error.inj hd, hr⟩
        · cases hd
  · rw [if_neg hf]
    exact ⟨nofun, fun h => absurd h.1 hf⟩

end Refusal

/-- The `LOADP` commands of the port, on the two levels at which a command is read. -/
theorem commandAt_zero_loadp_iff (xs : List Item) (p : Preset Scalar) :
    commandAt 0 xs = .ok (.loadp p) ↔ ∃ rest, decode xs = .ok (.loadp p, rest) := by
  rw [commandAt_zero_iff]
  refine exists_congr fun rest => ?_
  rw [decode_ok_iff]
  constructor
  · exact fun h => ⟨_, h, rfl⟩
  · rintro ⟨c, h, hc⟩
    obtain rfl : c = .loadp p := Command.instr_bijective.1 hc
    exact h

/-- Settles O8: there is no fault to answer, and `Engine.stepOn_refused_iff` lists the refusals. -/
theorem stepNeverFaultsAndRefusesOnlyThreeThings : Obligations.StepNeverFaultsAndRefusesOnlyThreeThings := by
  unfold Obligations.StepNeverFaultsAndRefusesOnlyThreeThings
  refine ⟨fun s => ⟨(fun r => nomatch r), fun r => ?_⟩, ?_⟩
  · rw [(step_stepOn s).2 r, Engine.stepOn_refused_iff]
    simp only [commandAt_zero_error_iff, decode_error_iff, commandAt_zero_loadp_iff, exists_and_right]
  · intro N _ _ _ _ _ _ _ _ _ _ _ _ _ _ _ C nz e
    refine ⟨fun xs => ⟨(fun r => nomatch r), fun r => e.stepOn_refused_iff C r _ nz⟩, fun W xs hW => ?_⟩
    rw [Engine.wireStep, hW]
    rfl

end Sys2Proof.Machine
end

section
/-! The invariant of 10_state.md R47, R48: what keeps one bank legal, then each update of the registers, then every step. -/

namespace Sys2Proof.Machine

open Sys2Proof

/-- A captured Preset is valid when each bank's part of it is (10_state.md R47). -/
theorem Engine.capture_valid_iff {N : Type} [Zero N] [One N] [LE N] {e : Engine N} {tMin : N} :
    e.capture.Valid tMin ↔ ∀ i, (e.op.get i).capture.Valid tMin :=
  (Quad.forall_get (P := fun b : OpBank N => b.capture.Valid tMin)).symm

/-- A waveform code fits the three bits of a Preset and is that of a waveform (10_state.md R47). -/
theorem Wave.ofNat_code_le (w : Wave) : BitVec.ofNat 3 w.code ≤ 4#3 := by
  cases w <;> decide

section AnyNumbers

variable {N : Type} [Zero N] [One N] [Add N] [Sub N] [Mul N] [Div N] [Neg N] [NatCast N] [IntCast N] [RatCast N]
  [LE N] [LT N] [DecidableLE N] [DecidableLT N] [DecidableEq N] {C : Config N}

/-- What `Engine.Legal` says of one operator bank. -/
structure OpBank.Legal (C : Config N) (b : OpBank N) : Prop where
  dyn : b.DynOk C.toNumerics
  params : b.capture.Valid C.tMin

/-! One parameter of a legal bank may be replaced by any value within its bounds (10_state.md R47). -/

section OneParameter

variable {b : OpBank N} {v : N}

theorem OpBank.Legal.withRatio (h : b.Legal C) (hv : 0 ≤ v) : OpBank.Legal C { b with ratio := v } :=
  have ⟨_, hrest⟩ := h.params
  ⟨{ h.dyn with }, hv, hrest⟩

theorem OpBank.Legal.withLevel (h : b.Legal C) (hv : 0 ≤ v ∧ v ≤ 1) : OpBank.Legal C { b with level := v } :=
  have ⟨hratio, _, hrest⟩ := h.params
  ⟨{ h.dyn with }, hratio, hv, hrest⟩

theorem OpBank.Legal.withWave (h : b.Legal C) (w : Wave) : OpBank.Legal C { b with wave := w } :=
  have ⟨hratio, hlevel, _, hrest⟩ := h.params
  ⟨{ h.dyn with }, hratio, hlevel, w.ofNat_code_le, hrest⟩

theorem OpBank.Legal.withLfoRate (h : b.Legal C) : OpBank.Legal C { b with lfoRate := v } := ⟨{ h.dyn with }, h.params⟩

theorem OpBank.Legal.withLfoAmount (h : b.Legal C) (hv : 0 ≤ v ∧ v ≤ 1) : OpBank.Legal C { b with lfoAmount := v } :=
  have ⟨hratio, hlevel, hwave, _, hrest⟩ := h.params
  ⟨{ h.dyn with }, hratio, hlevel, hwave, hv, hrest⟩

theorem OpBank.Legal.withVelSens (h : b.Legal C) : OpBank.Legal C { b with velSens := v } := ⟨{ h.dyn with }, h.params⟩

theorem OpBank.Legal.withAttack (h : b.Legal C) (hv : C.tMin ≤ v) :
    OpBank.Legal C { b with env := { b.env with attack := v } } :=
  have ⟨hratio, hlevel, hwave, hamount, _, hrest⟩ := h.params
  ⟨{ h.dyn with }, hratio, hlevel, hwave, hamount, hv, hrest⟩

theorem OpBank.Legal.withDecay (h : b.Legal C) (hv : C.tMin ≤ v) :
    OpBank.Legal C { b with env := { b.env with decay := v } } :=
  have ⟨hratio, hlevel, hwave, hamount, hattack, _, hrest⟩ := h.params
  ⟨{ h.dyn with }, hratio, hlevel, hwave, hamount, hattack, hv, hrest⟩

theorem OpBank.Legal.withRelease (h : b.Legal C) (hv : C.tMin ≤ v) :
    OpBank.Legal C { b with env := { b.env with release := v } } :=
  have ⟨hratio, hlevel, hwave, hamount, hattack, hdecay, _, hsustain⟩ := h.params
  ⟨{ h.dyn with }, hratio, hlevel, hwave, hamount, hattack, hdecay, hv, hsustain⟩

theorem OpBank.Legal.withSustain (h : b.Legal C) (hv : 0 ≤ v ∧ v ≤ 1) :
    OpBank.Legal C { b with env := { b.env with sustain := v } } :=
  have ⟨hratio, hlevel, hwave, hamount, hattack, hdecay, hrelease, _⟩ := h.params
  ⟨{ h.dyn with }, hratio, hlevel, hwave, hamount, hattack, hdecay, hrelease, hv⟩

end OneParameter

/-- 10_state.md R45: a frame writes no parameter of a bank. -/
theorem OpBank.next_capture (C : Config N) (f0 : N) (b : OpBank N) : (b.next C f0).capture = b.capture := by
  simp [OpBank.capture, OpBank.next]

variable {e : Engine N}

theorem Engine.Legal.bank (h : e.Legal C) (i : Fin 4) : (e.op.get i).Legal C :=
  ⟨h.dyn i, Engine.capture_valid_iff.mp h.params i⟩

/-- The banks of a legal state may be replaced by legal banks. -/
theorem Engine.Legal.withBanks (h : e.Legal C) {q : Quad (OpBank N)} (hq : ∀ i, (q.get i).Legal C) :
    Engine.Legal C { e with op := q } :=
  { h with dyn := fun i => (hq i).dyn, params := Engine.capture_valid_iff.mpr fun i => (hq i).params }

/-- A register write that keeps a bank legal keeps the state legal. -/
theorem Engine.Legal.writeOp (h : e.Legal C) (i : Nat) {f : OpBank N → OpBank N} (hf : ∀ b, b.Legal C → (f b).Legal C) :
    (e.writeOp i f).Legal C := by
  unfold Engine.writeOp
  split_ifs with hi
  · refine h.withBanks fun k => ?_
    rw [Quad.get_update]
    split_ifs
    · exact hf _ (h.bank k)
    · exact h.bank k
  · exact h

/-- Every entry that can be read keeps the constraint on entries (20_memory.md R61, R62). -/
theorem memReadAlg_ok (C : Config N) (id : Int) : (memReadAlg C id).Ok := by
  unfold memReadAlg
  split_ifs
  · exact C.algRom_ok _
  · exact C.algDefault_ok

/-- The algorithm registers of a legal state may be replaced by those of an entry that keeps R48 (c), (d). -/
theorem Engine.Legal.withAlgorithm (h : e.Legal C) {matrix : Quad (Quad N)} {id : Int}
    (hweights : ∀ m t, 0 ≤ (matrix.get m).get t) :
    Engine.Legal C { e with matrix := matrix, mask := (memReadAlg C id).mask, algId := id } := by
  exact { h with weights := hweights, carrier := (memReadAlg_ok C id).2, selected := rfl }

theorem Engine.Legal.selectAlg (h : e.Legal C) (id : Int) : (e.selectAlg C id).Legal C :=
  h.withAlgorithm (memReadAlg_ok C id).1

/-- Loading a Preset writes each bank's parameters and nothing dynamic (46_preset.md R210, R211). -/
theorem Engine.Legal.loadPreset (h : e.Legal C) {p : Preset N} (hp : p.Valid C.tMin) : (e.loadPreset C p).Legal C :=
  { h.selectAlg p.algId with
    dyn := fun i => by
      rw [Engine.loadPreset_op, Quad.get_ofFn]
      exact ⟨(h.dyn i).phase, (h.dyn i).lfoPhase, (h.dyn i).level⟩
    params := by rwa [Engine.capture_loadPreset C e hp] }

theorem Engine.Legal.emit (h : e.Legal C) {ev : Event N} (hev : ev.Ok C) : (e.emit ev).Legal C :=
  { h with events := fun ev' hmem => (List.mem_append.mp hmem).elim (h.events ev') fun hnew => List.mem_singleton.mp hnew ▸ hev }

theorem Engine.Legal.mapEnvState (h : e.Legal C) (st : EnvState) : (e.mapEnv fun v => { v with state := st }).Legal C :=
  h.withBanks fun i => by
    rw [Quad.get_map]
    exact ⟨⟨(h.dyn i).phase, (h.dyn i).lfoPhase, (h.dyn i).level⟩, (h.bank i).params⟩

theorem Engine.Legal.retire (h : e.Legal C) : e.retire.Legal C := { h with }

end AnyNumbers

/-! ### Commands -/

section OrderedField

variable {N : Type} [Field N] [LinearOrder N] [IsStrictOrderedRing N] {C : Config N} {e : Engine N}

theorem Engine.Legal.morph (h : e.Legal C) (id : Int) (amount : N) : (e.morph C id amount).Legal C :=
  { h with
    weights := fun m t => by
      rw [Engine.morph_matrix, Quad.get_ofFn, Quad.get_ofFn]
      exact morphCell_nonneg (h.weights m t) ((memReadAlg_ok C id).1 m t) (clamp01_mem amount).1 (clamp01_mem amount).2 }

theorem Engine.Legal.noteOn (h : e.Legal C) {note : Nat} (hnote : note ≤ 127) (vel : N) :
    (e.noteOn C.toNumerics note vel).Legal C :=
  { h.mapEnvState .attack with velocity := clamp01_mem vel, note := hnote }

omit [IsStrictOrderedRing N] in
theorem Engine.Legal.noteOff (h : e.Legal C) : e.noteOff.Legal C := { h.mapEnvState .release with }

/-- 44_render.md R161, R164, R166: a frame leaves every bank legal, whatever its dynamic registers held. -/
theorem OpBank.Legal.next {b : OpBank N} (h : b.Legal C) (f0 : N) : (b.next C f0).Legal C := by
  refine ⟨⟨C.wrap_mem _, C.wrap_mem _, Env.advance_level_mem C b.env⟩, ?_⟩
  rw [OpBank.next_capture]
  exact h.params

theorem Engine.Legal.frame (h : e.Legal C) (nz : Quad N) : (e.frame C nz).Legal C := by
  have hbanks : Engine.Legal C { e with op := e.op.map (OpBank.next C e.f0) } := h.withBanks fun i => by
    rw [Quad.get_map]
    exact (h.bank i).next e.f0
  have hdelay : Engine.Legal C { e with
      op := e.op.map (OpBank.next C e.f0)
      fbReg := e.opOut C nz 0
      prevOut := Quad.ofFn (e.opOut C nz) } := { hbanks with delay := rfl }
  exact hdelay.emit (softClip_mem C.toNumerics _)

end OrderedField

/-! ### Steps -/

/-- Every command that completes leaves a legal state legal. -/
theorem Engine.Legal.after {i : Instr} {e : Engine Scalar} (h : e.Legal Config.chip) (hw : WellFormed i = true)
    (hloadp : ∀ p, i = .loadp p → p.Valid Config.chip.tMin) : (e.after Config.chip i).Legal Config.chip := by
  cases i with
  | nop | render => exact h
  | noteon note vel => exact h.noteOn (of_decide_eq_true hw) vel
  | noteoff => exact h.noteOff
  | setalg id => exact h.selectAlg id
  | morph id amount => exact h.morph id amount
  | lockAlg v => exact h.selectAlg _
  | lockDepth | lockFb => exact { h with }
  | loadp p => exact h.loadPreset (hloadp p rfl)
  | capp => exact h.emit h.params
  | lockRatio i v => exact h.writeOp i fun b hb => hb.withRatio (lockRatioValue_mem v).1
  | setopRatio i v => exact h.writeOp i fun b hb => hb.withRatio (setRatioValue_nonneg v)
  | lockLvl i v | setopLvl i v => exact h.writeOp i fun b hb => hb.withLevel (clamp01_mem v)
  | setopWave i wc => exact h.writeOp i fun b hb => hb.withWave _
  | setopLforate i v => exact h.writeOp i fun b hb => hb.withLfoRate
  | setopLfoamt i v => exact h.writeOp i fun b hb => hb.withLfoAmount (clamp01_mem v)
  | setopVsens i v => exact h.writeOp i fun b hb => hb.withVelSens
  | setopAtk i v => exact h.writeOp i fun b hb => hb.withAttack (tMin_le_setTimeValue _ v)
  | setopDec i v => exact h.writeOp i fun b hb => hb.withDecay (tMin_le_setTimeValue _ v)
  | setopSus i v => exact h.writeOp i fun b hb => hb.withSustain (clamp01_mem v)
  | setopRel i v => exact h.writeOp i fun b hb => hb.withRelease (tMin_le_setTimeValue _ v)

/-- Settles O10: a frame keeps the invariant (`Engine.Legal.frame`), and so does every command, whose operands the decoder leaves
within their fields (`Engine.Legal.after`, `wellFormed_of_decode`). -/
theorem everyStepKeepsTheStateLegal : Obligations.EveryStepKeepsTheStateLegal := by
  intro s t hs h
  rcases step_cases h with ⟨-, hframe⟩ | ⟨-, i, rest, hd, hexec⟩ | ⟨-, -, rfl⟩
  · obtain rfl := (execFrame_next_iff s t).mp hframe
    exact { hs.frame _ with }
  · rcases exec_cases hexec with ⟨n, -, -, rfl⟩ | ⟨-, hloadp, hdone⟩
    · exact { hs with }
    · obtain rfl := (State.retire_next_iff _ t _).mp hdone
      exact (hs.after (wellFormed_of_decode hd) hloadp).retire
  · exact hs

/-! ### Reset, and loading back a capture -/

section Reset

variable {N : Type} [Zero N] [One N] [Add N] [Sub N] [Mul N] [Div N] [Neg N] [NatCast N] [IntCast N] [RatCast N]
  [LE N] [LT N] [DecidableLE N] [DecidableLT N] [DecidableEq N] (C : Config N)

/-- 10_state.md R49: the banks right after reset are blank ones with the parameters of `RESET_PRESET`. -/
theorem Engine.reset_op_get (i : Fin 4) : (Engine.reset C).op.get i = OpBank.blank.load (C.resetPreset.op.get i) := by
  rw [Engine.reset, Engine.loadPreset_op, Quad.get_ofFn, Quad.get_const]

/-- 10_state.md R49: the parameter registers read back as `RESET_PRESET`. -/
theorem Engine.reset_capture : (Engine.reset C).capture = C.resetPreset := by
  unfold Engine.reset
  exact Engine.capture_loadPreset C _ C.resetPreset_valid

end Reset

/-- Settles O2: reset loads `RESET_PRESET` into blank registers, and `rst` assigns the same registers whatever they held. -/
theorem resetRegistersHoldTheirTableValues : Obligations.ResetRegistersHoldTheirTableValues := by
  refine ⟨fun i => ?_, rfl, fun m => Quad.get_const 0 m, rfl, rfl, rfl, rfl, ?_, rfl, rfl, rfl, rfl, rfl, fun _ => rfl⟩
  · rw [State.reset, Engine.reset_op_get]
    exact ⟨rfl, rfl, rfl, rfl⟩
  · exact Engine.reset_capture Config.chip

/-- 10_state.md R48, R49, over every ordered field: the dynamic registers are 0, and the rest is `RESET_PRESET` and the entry of its
algorithm. -/
theorem Engine.reset_legal {N : Type} [Field N] [LinearOrder N] [IsStrictOrderedRing N] (C : Config N) :
    (Engine.reset C).Legal C := by
  have hphase : PhaseOk C.toNumerics 0 := ⟨le_rfl, C.two_pi_pos⟩
  have hok := memReadAlg_ok C C.resetPreset.algId
  exact {
    dyn := fun i => by
      rw [Engine.reset_op_get]
      exact ⟨hphase, hphase, le_rfl, zero_le_one⟩
    params := by
      rw [Engine.reset_capture]
      exact C.resetPreset_valid
    weights := hok.1
    carrier := hok.2
    selected := rfl
    delay := rfl
    velocity := ⟨le_rfl, zero_le_one⟩
    note := Nat.zero_le _
    events := fun _ hmem => nomatch hmem }

/-- Settles O3: `Engine.reset_legal` at the machine's own configuration. -/
theorem resetStateIsLegal : Obligations.ResetStateIsLegal := Engine.reset_legal Config.chip

/-- 46_preset.md R210, R213: a bank loaded with its own capture is unchanged. -/
theorem OpBank.load_capture {N : Type} (b : OpBank N) : b.load b.capture = b := by
  have hwave : ∀ w : Wave, Wave.ofCode (BitVec.ofNat 3 w.code).toNat = some w := by
    intro w
    cases w <;> rfl
  calc b.load b.capture = { b with wave := (Wave.ofCode (BitVec.ofNat 3 b.wave.code).toNat).getD b.wave } := rfl
    _ = b := by rw [hwave, Option.getD_some]

/-- Settles O55: the banks load back what they hold, and the mask of a legal state is that of its algorithm. -/
theorem reloadingACaptureOnlyUndoesAMorph : Obligations.ReloadingACaptureOnlyUndoesAMorph := by
  intro s hs
  have hop : (s.eng.loadPreset Config.chip s.eng.capture).op = s.eng.op := Quad.ext_get fun i => by
    rw [Engine.loadPreset_op, Quad.get_ofFn, Engine.capture, Quad.get_map, OpBank.load_capture]
  have hload : s.eng.loadPreset Config.chip s.eng.capture =
      { s.eng with matrix := (memReadAlg Config.chip s.eng.algId).matrix } :=
    calc s.eng.loadPreset Config.chip s.eng.capture =
        { s.eng with
          op := (s.eng.loadPreset Config.chip s.eng.capture).op
          matrix := (memReadAlg Config.chip s.eng.algId).matrix
          mask := (memReadAlg Config.chip s.eng.algId).mask } := rfl
      _ = _ := by rw [hop, ← hs.selected]
  rw [exec_loadp_of_valid s hs.params, hload]
  rfl

end Sys2Proof.Machine
end

section
/-! What each command answers: the registers it writes, with its clamp, and nothing else (42_algorithm.md to 46_preset.md). -/

namespace Sys2Proof.Machine

open Sys2Proof

/-! ### Note, algorithm and frame-counter commands -/

/-- Settles O16: `NOP` completes with the registers as they are. -/
theorem nopAdvancesThePcAlone : Obligations.NopAdvancesThePcAlone := fun _ => rfl

/-- 43_note.md R146, R148, over every ordered field. -/
theorem noteFreq_eq {N : Type} [Field N] [LinearOrder N] (K : Numerics N) (note : Nat) :
    noteFreq K note = 440 * K.exp2 (((note : N) - 69) / 12) := by
  unfold noteFreq
  push_cast
  rfl

/-- Settles O17: the frequency is `noteFreq_eq`, and the note event reaches each bank. -/
theorem noteonStartsTheNote : Obligations.NoteonStartsTheNote := by
  intro note vel s
  refine ⟨_, rfl, ?_, fun i => Quad.get_map _ s.eng.op i⟩
  rw [← noteFreq_eq]
  rfl

/-- Settles O18: the note event reaches each bank. -/
theorem noteoffReleasesEveryEnvelope : Obligations.NoteoffReleasesEveryEnvelope :=
  fun s => ⟨_, rfl, rfl, fun i => Quad.get_map _ s.eng.op i⟩

/-- Settles O19: `2^0` is 1 by R8 (e). -/
theorem noteSixtyNineSoundsAtFourHundredFortyHertz : Obligations.NoteSixtyNineSoundsAtFourHundredFortyHertz := by
  intro N _ _ _ K
  rw [noteFreq_eq, Nat.cast_ofNat, sub_self, zero_div, K.exp2_zero, mul_one]

/-- Settles O39: `Engine.startRender` at 0 and elsewhere. -/
theorem renderLoadsTheFrameCounter : Obligations.RenderLoadsTheFrameCounter := by
  intro n s
  change Host.Outcome.next { s with eng := s.eng.startRender n } = _
  split_ifs with hn
  · rw [hn, Engine.startRender_zero]
    rfl
  · rw [Engine.startRender_of_ne _ hn]

/-- Settles O43: `Engine.selectAlg` writes these three registers. -/
theorem setalgReplacesMatrixMaskAndId : Obligations.SetalgReplacesMatrixMaskAndId := fun _ _ => rfl

section Morph

variable {N : Type} [Field N] [LinearOrder N] (C : Config N) (id : Int) (e : Engine N)

/-- The cells after a morph. -/
theorem Engine.morph_cell (amount : N) (m t : Fin 4) : ((e.morph C id amount).matrix.get m).get t =
    morphCell ((e.matrix.get m).get t) (((memReadAlg C id).matrix.get m).get t) (clamp01 amount) := by
  rw [Engine.morph_matrix, Quad.get_ofFn, Quad.get_ofFn]

/-- A morph is determined by its cells: it writes nothing else (42_algorithm.md R139). -/
theorem Engine.morph_eq_of_cells {amount : N} {matrix : Quad (Quad N)}
    (h : ∀ m t, morphCell ((e.matrix.get m).get t) (((memReadAlg C id).matrix.get m).get t) (clamp01 amount) = (matrix.get m).get t) :
    e.morph C id amount = { e with matrix := matrix } := by
  have hmatrix : (e.morph C id amount).matrix = matrix :=
    Quad.ext_get fun m => Quad.ext_get fun t => (e.morph_cell C id amount m t).trans (h m t)
  calc e.morph C id amount = { e with matrix := (e.morph C id amount).matrix } := rfl
    _ = { e with matrix := matrix } := by rw [hmatrix]

omit [LinearOrder N] in
/-- Two morphs of a cell towards one target compound (42_algorithm.md R140 (c)). -/
theorem morphCell_morphCell (cur target a b : N) :
    morphCell (morphCell cur target a) target b = morphCell cur target (a + b - a * b) := by
  unfold morphCell
  ring

end Morph

/-- Settles O44: `Engine.morph_cell`. -/
theorem morphInterpolatesTheMatrixAlone : Obligations.MorphInterpolatesTheMatrixAlone :=
  fun id amount s => ⟨_, rfl, rfl, s.eng.morph_cell Config.chip id amount⟩

/-- Settles O45: cell by cell, with the clamped amount 0, 1, 1/2 or 3/4; non-negative weights by `morphCell_nonneg`. -/
theorem morphEndsCompoundsAndKeepsWeightsNonNegative : Obligations.MorphEndsCompoundsAndKeepsWeightsNonNegative := by
  intro N _ _ _ C id amount e
  refine ⟨fun h => ?_, fun h => ?_, ?_, fun h m t => ?_⟩
  · refine e.morph_eq_of_cells C id (matrix := e.matrix) fun m t => ?_
    rw [clamp01_of_nonpos h, morphCell, mul_zero, add_zero]
  · refine e.morph_eq_of_cells C id fun m t => ?_
    rw [clamp01_of_one_le h, morphCell, mul_one, add_sub_cancel, Engine.selectAlg_matrix]
  · have hhalf : clamp01 (1 / 2 : N) = 1 / 2 := clamp01_of_mem (by norm_num) (by norm_num)
    have hquarters : clamp01 (3 / 4 : N) = 3 / 4 := clamp01_of_mem (by norm_num) (by norm_num)
    refine Engine.morph_eq_of_cells C id (e.morph C id (1 / 2)) (matrix := (e.morph C id (3 / 4)).matrix) fun m t => ?_
    rw [Engine.morph_cell, Engine.morph_cell, hhalf, hquarters, morphCell_morphCell]
    norm_num
  · rw [Engine.morph_cell]
    exact morphCell_nonneg (h m t) ((memReadAlg_ok C id).1 m t) (clamp01_mem amount).1 (clamp01_mem amount).2

/-! ### Locks and setters -/

/-- 45_parameters.md R186: the id that `LOCK.ALG` selects is the clamped input times 31, rounded half up. -/
theorem lockAlgId_chip (v : Scalar) : lockAlgId Config.chip.toNumerics v = ⌊clamp01 v * 31 + 1 / 2⌋ :=
  Config.chip_exact.rhu_eq _

/-- Settles O46: `LOCK.ALG` is `SETALG` of `lockAlgId` by definition, and that id by its rounding lies in 0..31. -/
theorem globalLocksMapTheirInputToTheNativeRange : Obligations.GlobalLocksMapTheirInputToTheNativeRange := by
  intro v s
  have hid := lockAlgId_chip v
  obtain ⟨h0, h1⟩ := clamp01_mem v
  refine ⟨rfl, rfl, lockAlgId Config.chip.toNumerics v, ?_, ?_, ?_, fun hv => ?_, fun hv => ?_, rfl, _, rfl, rfl, rfl⟩
  · rw [hid, Int.floor_nonneg]
    linarith
  · rw [hid, ← Int.lt_add_one_iff, Int.floor_lt]
    norm_num
    linarith
  · rw [hid]
    exact ⟨Int.floor_le _, Int.lt_floor_add_one _⟩
  · rw [hid, clamp01_of_nonpos hv]
    norm_num
  · rw [hid, clamp01_of_one_le hv]
    norm_num

/-- 20_memory.md R67: completing a register write whose index is above 3 moves `pc` alone. -/
theorem State.retire_writeOp_of_lt (s : State) {k : Nat} (hk : 3 < k) (f : OpBank Scalar → OpBank Scalar) :
    s.retire (s.eng.writeOp k f) = .next s.onlyPc := by
  rw [Engine.writeOp_of_lt _ hk]
  rfl

/-- Settles O48: each command is one register write; `SETOP.RATIO` clamps by `setRatioValue_eq`. -/
theorem oscillatorSettersWriteOneBank : Obligations.OscillatorSettersWriteOneBank := by
  refine ⟨fun i v s => ⟨?_, s.retire_writeOp i _, s.retire_writeOp i _, s.retire_writeOp i _, s.retire_writeOp i _⟩,
    fun k v s hk => ⟨s.retire_writeOp_of_lt hk _, s.retire_writeOp_of_lt hk _, s.retire_writeOp_of_lt hk _,
      s.retire_writeOp_of_lt hk _, s.retire_writeOp_of_lt hk _, s.retire_writeOp_of_lt hk _, s.retire_writeOp_of_lt hk _⟩⟩
  rw [← setRatioValue_eq]
  exact s.retire_writeOp i _

/-- Settles O50: each command is one register write; the times clamp by `setTimeValue_eq`. -/
theorem envelopeSettersWriteOneBank : Obligations.EnvelopeSettersWriteOneBank := by
  refine ⟨fun i v s => ?_, fun k v s hk => ⟨s.retire_writeOp_of_lt hk _, s.retire_writeOp_of_lt hk _,
    s.retire_writeOp_of_lt hk _, s.retire_writeOp_of_lt hk _⟩⟩
  rw [← setTimeValue_eq]
  exact ⟨s.retire_writeOp i _, s.retire_writeOp i _, s.retire_writeOp i _, s.retire_writeOp i _⟩

theorem Wave.ofCode_code (w : Wave) : Wave.ofCode w.code = some w := by
  cases w <;> rfl

/-- 10_state.md R23: codes above 4 are no waveforms. -/
theorem Wave.ofCode_of_lt {c : Nat} (hc : 4 < c) : Wave.ofCode c = none := by
  unfold Wave.ofCode
  split
  case h_6 => rfl
  all_goals omega

/-- A register write that changes no bank moves `pc` alone. -/
theorem State.retire_writeOp_id (s : State) (k : Nat) : s.retire (s.eng.writeOp k fun b => b) = .next s.onlyPc := by
  have hsame : s.eng.writeOp k (fun b => b) = s.eng := by
    unfold Engine.writeOp
    split_ifs with hk
    · have hop : s.eng.op.update ⟨k, hk⟩ (fun b => b) = s.eng.op := Quad.ext_get fun j => by
        rw [Quad.get_update, ite_self]
      rw [hop]
    · rfl
  rw [hsame]
  rfl

/-- Settles O49: a code up to 4 is that of a waveform; above 4 the write keeps each bank. -/
theorem setopWaveWritesOnlyWaveforms : Obligations.SetopWaveWritesOnlyWaveforms := by
  have hexec : ∀ (k wc : Nat) (s : State), exec (.setopWave k wc) s =
      s.retire (s.eng.writeOp k fun b => { b with wave := (Wave.ofCode wc).getD b.wave }) := fun _ _ _ => rfl
  refine ⟨fun i w s => ?_, fun wc hwc => ?_, fun k wc s h => ?_⟩
  · rw [hexec, Wave.ofCode_code]
    exact s.retire_writeOp i _
  · obtain ⟨w, -, hw⟩ := Wave.exists_ofCode_eq_some hwc
    exact ⟨w, hw⟩
  · rw [hexec]
    rcases h with hk | hwc
    · exact s.retire_writeOp_of_lt hk _
    · rw [Wave.ofCode_of_lt hwc]
      exact s.retire_writeOp_id k

/-! ### Presets through the command stream -/

/-- Settles O53: the capture holds each parameter register. -/
theorem cappEmitsEveryParameterRegister : Obligations.CappEmitsEveryParameterRegister :=
  fun s => ⟨s.eng.capture, rfl, rfl, rfl, rfl, fun i => Quad.get_map _ s.eng.op i⟩

/-- A run whose first step answers a next state goes on from there. -/
theorem run_succ_of_next {M : Host.Core} {s u : M.State} (h : M.step s = .next u) (n : Nat) : M.run (n + 1) s = M.run n u := by
  rw [Host.Core.run, h]

/-- One step and then `n` more. -/
theorem StepsTo.cons {s u t : State} {n : Nat} (h : step s = .next u) (ht : StepsTo n u t) : StepsTo (n + 1) s t :=
  (run_succ_of_next (M := core) h n).trans ht

theorem StepsTo.zero (s : State) : StepsTo 0 s s := rfl

/-- 46_preset.md R214 on the item stream: what `LOADP` leaves is what `CAPP` captures. -/
theorem loadp_capp_steps {p : Preset Scalar} {s : State} {rest : List Item} (hf : s.eng.fr = 0)
    (hw : WellFormed (.loadp p) = true) (hp : p.Valid Config.chip.tMin)
    (hs : s.cmdIn = encode (.loadp p) ++ (encode .capp ++ rest)) :
    StepsTo 2 s { s with eng := ((s.eng.loadPreset Config.chip p).retire.emit (.presetOut p)).retire, cmdIn := rest } := by
  have hload := step_of_decode hf (hs ▸ decode_encode (.loadp p) _ hw)
  rw [exec_loadp_of_valid _ hp] at hload
  have hcapture : (s.eng.loadPreset Config.chip p).retire.capture = p := Engine.capture_loadPreset Config.chip s.eng hp
  have hcapp : step { s with eng := (s.eng.loadPreset Config.chip p).retire, cmdIn := encode .capp ++ rest } =
      .next { s with eng := (s.eng.loadPreset Config.chip p).retire.capp.retire, cmdIn := rest } :=
    step_of_decode (s := { s with eng := (s.eng.loadPreset Config.chip p).retire, cmdIn := encode .capp ++ rest }) hf
      (decode_encode .capp rest rfl)
  rw [Engine.capp_eq, hcapture] at hcapp
  exact .cons hload (.cons hcapp (.zero _))

section WireWords

variable {N : Type} {w : Nat} {W : Wire N w} {h h' pw : BitVec 32} {vs : List (BitVec w)} {rest : List (WireWord w)} {p : Preset N}

/-- The items of a `LOADP` and a `CAPP` header on a bit-level port, as the decoder reads them. -/
theorem commandAt_loadp_capp (ho : opcode h = 0x40) (ho' : opcode h' = 0x41) (hlen : vs.length = 38)
    (hp : W.commands (.word h :: .word pw :: (vs.map .num ++ .word h' :: rest)) 0 = .ok (.loadp p)) :
    p.HasWord pw ∧ (presetItems p).tail = vs.map (fun v => .num (W.dec v)) ∧
      W.commands (.word h :: .word pw :: (vs.map .num ++ .word h' :: rest)) 1 = .ok .capp := by
  obtain ⟨r, hr⟩ := commandAt_zero_iff.mp hp
  have hread : (.word h :: .word pw :: (vs.map .num ++ .word h' :: rest) : List (WireWord w)).map W.read =
      .word h :: .word pw :: (vs.map (fun v => .num (W.dec v)) ++ .word h' :: rest.map W.read) := by
    simp [Wire.read]
  have htake := hr
  rw [hread, decodeCommand_word, decodeHeader_loadp ho] at htake
  obtain ⟨pw', p', hitems, hword, hpp⟩ := takePreset_eq_ok htake
  obtain rfl : p = p' := Command.loadp.inj hpp
  obtain ⟨hpw, hrest⟩ := List.cons.inj hitems
  obtain rfl : pw = pw' := ItemOf.word.inj hpw
  obtain ⟨hnums, htail⟩ := List.append_inj hrest (by rw [List.length_map, hlen]; rfl)
  refine ⟨hword, hnums.symm, ?_⟩
  rw [Wire.commands, commandAt_succ hr, ← htail]
  exact commandAt_zero_iff.mpr ⟨_, (decodeCommand_word _ _).trans (decodeHeader_capp ho')⟩

/-- The words of a captured Preset are those it was read from (46_preset.md R214). -/
theorem event_presetOut_eq (hword : p.HasWord pw)
    (hnums : (presetItems p).tail = vs.map (fun v => .num (W.dec v))) (hvs : ∀ v ∈ vs, W.Returns v)
    (hpw : pw &&& 0x88880000#32 = 0#32) : W.event (.presetOut p) = .word pw :: vs.map .num := by
  calc W.event (.presetOut p) = .word (presetWord p) :: (presetItems p).tail.map W.write := rfl
    _ = .word pw :: vs.map .num := by
      rw [hword.presetWord_eq hpw, hnums, List.map_map]
      exact congrArg _ (List.map_congr_left fun v hv => congrArg WireWord.num (hvs v hv))

end WireWords

section WirePort

variable {N : Type} [Zero N] [One N] [Add N] [Sub N] [Mul N] [Div N] [Neg N] [NatCast N] [IntCast N] [RatCast N]
  [LE N] [LT N] [DecidableLE N] [DecidableLT N] [DecidableEq N] {C : Config N}

/-- A step on a bit-level port, by the command at `pc`. -/
theorem Engine.wireStep_of_command {W : Wire N C.wNum} (hW : C.wire = some W) {xs : List (WireWord C.wNum)} {e : Engine N}
    {c : Command N} (hf : e.fr = 0) (hc : W.commands xs e.pc = .ok c) (nz : Quad N) :
    e.wireStep C xs nz = some (e.perform C c) := by
  rw [Engine.wireStep, hW]
  change some (e.stepOn C (W.commands xs e.pc) nz) = _
  rw [hc, Engine.stepOn, if_pos hf]

end WirePort

/-- Settles O54: on the item stream `loadp_capp_steps`; on the words, the two commands stand at 0 and 1 of the stream, and the captured
Preset is sent as the words it was read from. -/
theorem loadThenCaptureReturnsThePreset : Obligations.LoadThenCaptureReturnsThePreset := by
  refine ⟨fun p s rest hf hw hp hs => ⟨_, loadp_capp_steps hf hw hp hs, rfl, rfl, rfl⟩, ?_⟩
  intro N _ _ _ _ _ _ _ _ _ _ _ _ _ _ _ C W h h' pw vs xs rest p nz e hW ho ho' hlen hxs hp hvalid hpc hf
  subst hxs
  obtain ⟨hword, hnums, hcapp⟩ := commandAt_loadp_capp ho ho' hlen hp
  have hload : e.perform C (.loadp p) = .next (e.loadPreset C p).retire := if_pos hvalid
  refine ⟨(e.loadPreset C p).retire, (e.loadPreset C p).retire.capp.retire, ?_, ?_, ?_, ?_, event_presetOut_eq hword hnums⟩
  · rw [Engine.wireStep_of_command hW hf (hpc ▸ hp), hload]
  · refine Engine.wireStep_of_command (e := (e.loadPreset C p).retire) hW (c := .capp) hf ?_ nz
    rw [Engine.retire_pc, Engine.loadPreset_pc, hpc]
    exact hcapp
  · have hcapture : (e.loadPreset C p).retire.capture = p := Engine.capture_loadPreset C e hvalid
    rw [Engine.retire_outs, Engine.capp_eq, hcapture]
    rfl
  · simp [hpc]

end Sys2Proof.Machine
end

section
/-! Numbers (00_scope.md R12, 43_note.md R148), the waveform generator (40_waveform.md) and the soft clipper (44_render.md R170). -/

namespace Sys2Proof.Machine

open Sys2Proof

/-- Settles O1: the branches of `clamp`, the law and the definition of `wrap`, the floor under `rhu`. -/
theorem helperFunctionsMeetTheirDefinitions : Obligations.HelperFunctionsMeetTheirDefinitions := by
  intro N _ _ _ _ K x a b hab
  refine ⟨fun h => if_pos h, fun h => ?_, clamp_of_mem, rfl, ?_, fun hK => ?_⟩
  · rw [clamp, if_neg (hab.trans h.le).not_gt, if_pos h]
  · obtain ⟨k, hk⟩ := K.wrap_turns x
    exact ⟨(K.wrap_mem x).1, (K.wrap_mem x).2, k, by rw [hk, sub_add_cancel]⟩
  · rw [hK.rhu_eq]
    exact ⟨Int.floor_le _, Int.lt_floor_add_one _⟩

/-! ### Note frequencies under `NUM_REAL` -/

/-- 43_note.md R146, R148 under `NUM_REAL`. -/
theorem noteFreq_real (note : Nat) : noteFreq Numerics.real note = 440 * (2 : ℝ) ^ (((note : ℝ) - 69) / 12) := noteFreq_eq _ _

/-- An octave is twelve notes. -/
theorem noteFreq_real_add_twelve (note : Nat) : noteFreq Numerics.real (note + 12) = 2 * noteFreq Numerics.real note := by
  have hexp : (((note + 12 : ℕ) : ℝ) - 69) / 12 = ((note : ℝ) - 69) / 12 + 1 := by
    push_cast
    ring
  rw [noteFreq_real, noteFreq_real, hexp, Real.rpow_add_one two_ne_zero]
  ring

/-- Settles O20: `2^x` is strictly increasing, an octave adds 1 to the exponent, and note 69 is 440. -/
theorem referenceNoteFrequencyRisesAndDoublesPerOctave : Obligations.ReferenceNoteFrequencyRisesAndDoublesPerOctave := by
  have h69 : noteFreq Numerics.real 69 = 440 := noteSixtyNineSoundsAtFourHundredFortyHertz ℝ _
  have h57 := noteFreq_real_add_twelve 57
  have h81 := noteFreq_real_add_twelve 69
  refine ⟨fun m n hmn => ?_, noteFreq_real_add_twelve, by linarith, h69, by linarith⟩
  rw [noteFreq_real, noteFreq_real]
  have hexp : ((m : ℝ) - 69) / 12 < ((n : ℝ) - 69) / 12 := by
    have hcast : (m : ℝ) < n := Nat.cast_lt.mpr hmn
    linarith
  exact mul_lt_mul_of_pos_left (Real.rpow_lt_rpow_of_exponent_lt one_lt_two hexp) (by norm_num)

/-! ### The waveform generator over every ordered field -/

section Shapes

variable {N : Type} [Field N] [LinearOrder N] [IsStrictOrderedRing N] (K : Numerics N) {θ : N}

/-- 40_waveform.md R112: the ramp runs from -1 up to, not including, 1. -/
theorem sawShape_mem (h0 : 0 ≤ θ) (h1 : θ < 2 * K.pi) : -1 ≤ sawShape K θ ∧ sawShape K θ < 1 := by
  have hpi := K.pi_pos
  have hlow : 0 ≤ θ / K.pi := div_nonneg h0 hpi.le
  have hhigh : θ / K.pi < 2 := (div_lt_iff₀ hpi).mpr h1
  unfold sawShape
  constructor <;> linarith

theorem squareShape_mem (θ : N) : -1 ≤ squareShape K θ ∧ squareShape K θ ≤ 1 := by
  have hneg : (-1 : N) ≤ 1 := by linarith [zero_lt_one (α := N)]
  unfold squareShape
  split_ifs
  · exact ⟨hneg, le_rfl⟩
  · exact ⟨le_rfl, hneg⟩

/-- 40_waveform.md R114: each of the three pieces stays in [-1,1] on its range. -/
theorem triangleShape_mem (h0 : 0 ≤ θ) (h1 : θ < 2 * K.pi) : -1 ≤ triangleShape K θ ∧ triangleShape K θ ≤ 1 := by
  have hpi := K.pi_pos
  obtain ⟨r, hr⟩ : ∃ r, θ = r * K.pi := ⟨θ / K.pi, (div_mul_cancel₀ θ hpi.ne').symm⟩
  have hturn : 2 * θ / K.pi = 2 * r := by rw [hr, ← mul_assoc, mul_div_cancel_right₀ _ hpi.ne']
  have hquarter : θ < K.pi / 2 ↔ r < 1 / 2 := by
    rw [hr, div_eq_mul_one_div, mul_comm K.pi, mul_lt_mul_iff_left₀ hpi]
  have hthree : θ < 3 * K.pi / 2 ↔ r < 3 / 2 := by
    rw [hr, mul_div_right_comm, mul_lt_mul_iff_left₀ hpi]
  have hr0 : 0 ≤ r := nonneg_of_mul_nonneg_left (hr ▸ h0) hpi
  have hr2 : r < 2 := (mul_lt_mul_iff_left₀ hpi).mp (hr ▸ h1)
  unfold triangleShape
  rw [hturn]
  split_ifs with hq ht
  · have := hquarter.mp hq
    constructor <;> linarith
  · have := not_lt.mp (hquarter.not.mp hq)
    have := hthree.mp ht
    constructor <;> linarith
  · have := not_lt.mp (hthree.not.mp ht)
    constructor <;> linarith

end Shapes

/-- Settles O21: the sine by law R8 (a), the three shapes on the reduced phase, the noise by its draw. -/
theorem waveformStaysBetweenMinusOneAndOne : Obligations.WaveformStaysBetweenMinusOneAndOne := by
  intro N _ _ _ K w mp nz hlow hhigh
  obtain ⟨h0, h1⟩ := K.wrap_mem mp
  cases w with
  | sine => exact ⟨K.neg_one_le_sin mp, K.sin_le_one mp⟩
  | saw => exact ⟨(sawShape_mem K h0 h1).1, (sawShape_mem K h0 h1).2.le⟩
  | square => exact squareShape_mem K _
  | triangle => exact triangleShape_mem K h0 h1
  | noise => exact ⟨hlow, hhigh⟩

/-- 40_waveform.md R110: but for the sine, the generator reads the phase through `wrap`. -/
theorem waveGen_congr_wrap {N : Type} [Field N] [LinearOrder N] (K : Numerics N) {w : Wave} (hw : w ≠ .sine) {mp mp' : N}
    (h : K.wrap mp = K.wrap mp') (nz : N) : waveGen K w mp nz = waveGen K w mp' nz := by
  cases w with
  | sine => exact absurd rfl hw
  | saw => exact congrArg (sawShape K) h
  | square => exact congrArg (squareShape K) h
  | triangle => exact congrArg (triangleShape K) h
  | noise => rfl

/-- Settles O22: `wrap` is idempotent and has period 2π, and so has the sine under `NUM_REAL`. -/
theorem waveformRepeatsEveryTurn : Obligations.WaveformRepeatsEveryTurn := by
  refine ⟨?_, fun mp nz k => ?_⟩
  · intro N _ _ _ K w mp nz k hw
    have hidem : K.wrap (K.wrap mp) = K.wrap mp := K.wrap_of_mem (K.wrap_mem mp).1 (K.wrap_mem mp).2
    exact ⟨waveGen_congr_wrap K hw hidem.symm nz, waveGen_congr_wrap K hw (K.wrap_add_turns mp k) nz⟩
  · change Real.sin (mp + 2 * Real.pi * k) = Real.sin mp
    rw [mul_comm (2 * Real.pi)]
    exact Real.sin_add_int_mul_two_pi mp k

/-- Settles O23: the reduced phase of `θ + 2πk` is `θ`, and the guards of each shape are those of the statement. -/
theorem sawSquareAndTriangleHaveTheirShapes : Obligations.SawSquareAndTriangleHaveTheirShapes := by
  intro N _ _ _ K θ nz k h0 h1
  have hθ : K.wrap (θ + 2 * K.pi * k) = θ := K.wrap_unique rfl h0 h1
  have hquarters : K.pi / 2 < 3 * K.pi / 2 := by linarith [K.pi_pos]
  simp only [waveGen, hθ]
  refine ⟨⟨rfl, (sawShape_mem K h0 h1).2⟩, fun h => if_pos h, fun h => if_neg h.not_gt, fun h => if_pos h, fun h h' => ?_,
    fun h => ?_⟩
  · rw [triangleShape, if_neg h.not_gt, if_pos h']
  · rw [triangleShape, if_neg (hquarters.le.trans h).not_gt, if_neg h.not_gt]

/-! ### The table at eighths of a turn, and the soft clipper, under `NUM_REAL` -/

section Eighths

variable (m : ℤ)

/-- An eighth of a turn above 7 or below 0 is one of the first eight and some whole turns. -/
theorem eighth_eq_add_turns : (m : ℝ) * Real.pi / 4 = ((m % 8 : ℤ) : ℝ) * Real.pi / 4 + 2 * Real.pi * ((m / 8 : ℤ) : ℝ) := by
  have hm : (m : ℝ) = ((m % 8 : ℤ) : ℝ) + 8 * ((m / 8 : ℤ) : ℝ) := by exact_mod_cast (Int.emod_add_mul_ediv m 8).symm
  rw [hm]
  ring

/-- The sine at eighths of a turn (40_waveform.md R111). -/
theorem waveGen_sine_eighth (nz : ℝ) :
    waveGen Numerics.real .sine (m * Real.pi / 4) nz = Real.sin (((m % 8 : ℤ) : ℝ) * Real.pi / 4) := by
  obtain ⟨-, hperiod⟩ := waveformRepeatsEveryTurn
  rw [eighth_eq_add_turns, hperiod]
  rfl

/-- Eighths of a turn are ordered as their numbers. -/
theorem eighth_lt_iff {j c : ℤ} {x : ℝ} (hx : x = c * Real.pi / 4) : (j : ℝ) * Real.pi / 4 < x ↔ j < c := by
  rw [hx, div_lt_div_iff_of_pos_right four_pos, mul_lt_mul_iff_left₀ Real.pi_pos, Int.cast_lt]

/-- The three shapes at eighths of a turn (40_waveform.md R112 to R114). -/
theorem waveGen_shapes_eighth (nz : ℝ) :
    waveGen Numerics.real .saw (m * Real.pi / 4) nz = ((m % 8 : ℤ) : ℝ) / 4 - 1 ∧
      waveGen Numerics.real .square (m * Real.pi / 4) nz = (if m % 8 < 4 then 1 else -1) ∧
      waveGen Numerics.real .triangle (m * Real.pi / 4) nz =
        (if m % 8 < 2 then ((m % 8 : ℤ) : ℝ) / 2 else if m % 8 < 6 then 2 - ((m % 8 : ℤ) : ℝ) / 2
          else ((m % 8 : ℤ) : ℝ) / 2 - 4) := by
  have hpi := Real.pi_pos
  have h0 : 0 ≤ ((m % 8 : ℤ) : ℝ) * Real.pi / 4 :=
    div_nonneg (mul_nonneg (Int.cast_nonneg (Int.emod_nonneg m (by norm_num))) hpi.le) four_pos.le
  have h1 : ((m % 8 : ℤ) : ℝ) * Real.pi / 4 < 2 * Real.pi :=
    (eighth_lt_iff (c := 8) (by push_cast; ring)).mpr (Int.emod_lt_of_pos m (by norm_num))
  have hhalf := eighth_lt_iff (j := m % 8) (c := 4) (x := Real.pi) (by push_cast; ring)
  have hquarter := eighth_lt_iff (j := m % 8) (c := 2) (x := Real.pi / 2) (by push_cast; ring)
  have hthree := eighth_lt_iff (j := m % 8) (c := 6) (x := 3 * Real.pi / 2) (by push_cast; ring)
  have hratio : ∀ j : ℝ, j * Real.pi / 4 / Real.pi = j / 4 ∧ 2 * (j * Real.pi / 4) / Real.pi = j / 2 := fun j => by
    constructor
    · field_simp
    · field_simp
      ring
  obtain ⟨⟨hsaw, -⟩, hhigh, hlow, hrise, hfall, hreturn⟩ :=
    sawSquareAndTriangleHaveTheirShapes ℝ Numerics.real _ nz (m / 8) h0 h1
  rw [eighth_eq_add_turns]
  refine ⟨hsaw.trans (congrArg (· - 1) (hratio _).1), ?_, ?_⟩
  · split_ifs with h
    · exact hhigh (hhalf.mpr h)
    · exact hlow (not_lt.mp (hhalf.not.mpr h))
  · rw [← (hratio _).2]
    split_ifs with h h'
    · exact hrise (hquarter.mpr h)
    · exact hfall (not_lt.mp (hquarter.not.mpr h)) (hthree.mpr h')
    · exact hreturn (not_lt.mp (hthree.not.mpr h'))

/-- The sine at the first eight eighths of a turn. -/
theorem sin_eighths :
    Real.sin (0 * Real.pi / 4) = 0 ∧ Real.sin (1 * Real.pi / 4) = √2 / 2 ∧ Real.sin (2 * Real.pi / 4) = 1 ∧
      Real.sin (3 * Real.pi / 4) = √2 / 2 ∧ Real.sin (4 * Real.pi / 4) = 0 ∧ Real.sin (5 * Real.pi / 4) = -(√2 / 2) ∧
      Real.sin (6 * Real.pi / 4) = -1 ∧ Real.sin (7 * Real.pi / 4) = -(√2 / 2) := by
  have h1 : Real.sin (1 * Real.pi / 4) = √2 / 2 := by rw [one_mul, Real.sin_pi_div_four]
  have h2 : Real.sin (2 * Real.pi / 4) = 1 := by
    rw [show 2 * Real.pi / 4 = Real.pi / 2 by ring, Real.sin_pi_div_two]
  have h3 : Real.sin (3 * Real.pi / 4) = √2 / 2 := by
    rw [show 3 * Real.pi / 4 = Real.pi - 1 * Real.pi / 4 by ring, Real.sin_pi_sub, h1]
  have h0 : Real.sin (0 * Real.pi / 4) = 0 := by rw [zero_mul, zero_div, Real.sin_zero]
  have hturn : ∀ {x y : ℝ}, y = x + 4 → Real.sin (y * Real.pi / 4) = -Real.sin (x * Real.pi / 4) := fun {x y} hy => by
    rw [show y * Real.pi / 4 = x * Real.pi / 4 + Real.pi by rw [hy]; ring, Real.sin_add_pi]
  refine ⟨h0, h1, h2, h3, ?_, ?_, ?_, ?_⟩
  · rw [hturn (x := 0) (by norm_num), h0, neg_zero]
  · rw [hturn (x := 1) (by norm_num), h1]
  · rw [hturn (x := 2) (by norm_num), h2]
  · rw [hturn (x := 3) (by norm_num), h3]

end Eighths

/-- Settles O24: each phase of the table is one of the first eight eighths and some whole turns; there the shapes are those of
`waveGen_shapes_eighth` and the sines those of `sin_eighths`. -/
theorem referenceWaveformTableAtEighthsOfATurn : Obligations.ReferenceWaveformTableAtEighthsOfATurn := by
  intro nz
  obtain ⟨s0, s1, s2, s3, s4, s5, s6, s7⟩ := sin_eighths
  refine ⟨fun row hrow => ?_, fun row hrow => ?_, fun row hrow => ?_, fun row hrow => ?_⟩
  · rw [waveGen_sine_eighth]
    fin_cases hrow <;> norm_num [s0, s1, s2, s3, s4, s5, s6, s7]
  · rw [(waveGen_shapes_eighth row.1 nz).1]
    fin_cases hrow <;> norm_num
  · rw [(waveGen_shapes_eighth row.1 nz).2.1]
    fin_cases hrow <;> norm_num
  · rw [(waveGen_shapes_eighth row.1 nz).2.2]
    fin_cases hrow <;> norm_num

/-- The real `tanh` is strictly increasing. -/
theorem tanh_lt_tanh {x y : ℝ} (h : x < y) : Real.tanh x < Real.tanh y :=
  (tanh_le_tanh x y h.le).lt_of_ne fun heq => h.ne (by rw [← Real.artanh_tanh x, heq, Real.artanh_tanh])

/-- Settles O34: the clamp never acts (`softClip_eq`), and the real `tanh` is odd, strictly increasing and inside (-1, 1). -/
theorem referenceSoftClipperIsOddIncreasingAndBelowFourFifths :
    Obligations.ReferenceSoftClipperIsOddIncreasingAndBelowFourFifths := by
  have hclip : ∀ s : ℝ, softClip Numerics.real s = Real.tanh (s * (7 / 10)) * (8 / 10) := softClip_eq Numerics.real
  refine ⟨fun s => ?_, fun s => ?_, fun s t hst => ?_, ?_⟩
  · rw [hclip, abs_lt]
    constructor <;> linarith [Real.neg_one_lt_tanh (s * (7 / 10)), Real.tanh_lt_one (s * (7 / 10))]
  · rw [hclip, hclip, neg_mul, Real.tanh_neg, neg_mul]
  · rw [hclip, hclip]
    have := tanh_lt_tanh (show s * (7 / 10) < t * (7 / 10) by linarith)
    linarith
  · rw [hclip, zero_mul, Real.tanh_zero, zero_mul]

end Sys2Proof.Machine
end

section
/-! The envelope over many calls (41_envelope.md R123 to R130): a level that moves by equal steps until its rule ends it. -/

namespace Sys2Proof.Machine

open Sys2Proof

section Advances

variable {N : Type} [Zero N] [One N] [Add N] [Sub N] [Mul N] [Div N] [Neg N] [NatCast N] [IntCast N] [RatCast N]
  [LE N] [LT N] [DecidableLE N] [DecidableLT N] [DecidableEq N] (C : Config N) {e : Env N}

theorem Env.advances_add (m n : Nat) : ∀ e : Env N, e.advances C (m + n) = (e.advances C m).advances C n := by
  induction m with
  | zero => exact fun e => by rw [Nat.zero_add]; rfl
  | succ m ih => exact fun e => by rw [Nat.succ_add]; exact ih (e.advance C)

theorem Env.advances_succ (n : Nat) (e : Env N) : e.advances C (n + 1) = (e.advances C n).advance C :=
  e.advances_add C n 1

variable {C} {level : Nat → N} {n : Nat}

/-- Calls that move the level along `level` and change nothing else. -/
theorem Env.advances_ramp (hstart : e.level = level 0)
    (hstep : ∀ k, k + 1 < n → ({ e with level := level k } : Env N).advance C = { e with level := level (k + 1) }) :
    ∀ k, k < n → e.advances C k = { e with level := level k } := by
  intro k
  induction k with
  | zero =>
    intro _
    rw [← hstart]
    rfl
  | succ k ih =>
    intro hk
    rw [Env.advances_succ, ih (by omega), hstep k hk]

/-- Such calls, and one more that ends the ramp at `e'`. -/
theorem Env.advances_ramp_end {e' : Env N} (hn : 0 < n) (hstart : e.level = level 0)
    (hstep : ∀ k, k + 1 < n → ({ e with level := level k } : Env N).advance C = { e with level := level (k + 1) })
    (hend : ∀ k, k + 1 = n → ({ e with level := level k } : Env N).advance C = e') : e.advances C n = e' := by
  obtain ⟨k, rfl⟩ : ∃ k, n = k + 1 := ⟨n - 1, by omega⟩
  rw [Env.advances_succ, Env.advances_ramp hstart hstep k (Nat.lt_succ_self k), hend k rfl]

end Advances

section Ramps

variable {N : Type} [Field N] [LinearOrder N] [IsStrictOrderedRing N] [FloorRing N] {C : Config N} {e : Env N}

/-! ### Attack -/

/-- One call of an attack that stands at call `k` of its climb (41_envelope.md R123). -/
theorem Env.advance_attack_at (hA : 0 < e.attack) (hs : e.state = .attack) (k : Nat) :
    ({ e with level := (k : N) / (e.attack * C.fs) } : Env N).advance C =
      if k + 1 < ⌈e.attack * C.fs⌉₊ then { e with level := ((k + 1 : Nat) : N) / (e.attack * C.fs) }
      else { e with level := 1, state := .decay } := by
  have hT := time_mul_fs_pos C hA
  have hsum : (k : N) / (e.attack * C.fs) + 1 / (e.attack * C.fs) = ((k + 1 : Nat) : N) / (e.attack * C.fs) := by
    push_cast
    ring
  have hend : 1 ≤ ((k + 1 : Nat) : N) / (e.attack * C.fs) ↔ ¬k + 1 < ⌈e.attack * C.fs⌉₊ := by
    rw [le_div_iff₀ hT, one_mul, Nat.lt_ceil, not_lt]
  rw [Env.advance_of_attack C (e := { e with level := (k : N) / (e.attack * C.fs) }) hs hA
    (div_nonneg (Nat.cast_nonneg k) hT.le)]
  simp only [hsum, hend, ite_not]

/-- The climb of an attack from level 0. -/
theorem Env.attack_climbs (hA : 0 < e.attack) (hs : e.state = .attack) (h0 : e.level = 0) :
    (∀ k : Nat, k < ⌈e.attack * C.fs⌉₊ → e.advances C k = { e with level := (k : N) / (e.attack * C.fs) }) ∧
      e.advances C ⌈e.attack * C.fs⌉₊ = { e with level := 1, state := .decay } := by
  have hstart : e.level = ((0 : Nat) : N) / (e.attack * C.fs) := by rw [h0, Nat.cast_zero, zero_div]
  have hstep : ∀ k, k + 1 < ⌈e.attack * C.fs⌉₊ → _ := fun k hk =>
    (Env.advance_attack_at (C := C) hA hs k).trans (if_pos hk)
  refine ⟨Env.advances_ramp (level := fun k => (k : N) / (e.attack * C.fs)) hstart hstep,
    Env.advances_ramp_end (level := fun k => (k : N) / (e.attack * C.fs)) (Nat.ceil_pos.mpr (time_mul_fs_pos C hA)) hstart hstep
      fun k hk => (Env.advance_attack_at hA hs k).trans (if_neg hk.not_lt)⟩

/-! ### Decay and release -/

/-- The level after `k` calls that each take `d` off it. -/
def fallen (l0 d : N) (k : Nat) : N := l0 - k * d

omit [LinearOrder N] [IsStrictOrderedRing N] [FloorRing N] in
theorem fallen_zero (l0 d : N) : fallen l0 d 0 = l0 := by
  rw [fallen, Nat.cast_zero, zero_mul, sub_zero]

omit [LinearOrder N] [IsStrictOrderedRing N] [FloorRing N] in
theorem fallen_succ (l0 d : N) (k : Nat) : fallen l0 d k - d = fallen l0 d (k + 1) := by
  unfold fallen
  push_cast
  ring

omit [FloorRing N] in
theorem fallen_le {l0 d : N} (hd : 0 < d) (k : Nat) : fallen l0 d k ≤ l0 :=
  sub_le_self _ (mul_nonneg (Nat.cast_nonneg k) hd.le)

/-- A level that falls by `d` from `l0` reaches `low` with call `ceil((l0 - low) / d)`, and not before. -/
theorem fallen_succ_le_iff {l0 d low : N} (hd : 0 < d) (k : Nat) : fallen l0 d (k + 1) ≤ low ↔ ¬k + 1 < ⌈(l0 - low) / d⌉₊ := by
  rw [Nat.lt_ceil, not_lt, div_le_iff₀ hd, fallen, sub_le_comm]

/-- An envelope whose rule takes `d` off the level until that would reach `low`, and then ends at `e'`: the fall and its end. -/
theorem Env.advances_fall {e' : Env N} {d low : N} (hd : 0 < d) (hlow : low < e.level) (h1 : e.level ≤ 1)
    (hrule : ∀ l, l ≤ 1 → ({ e with level := l } : Env N).advance C = if l - d ≤ low then e' else { e with level := l - d }) :
    (∀ k : Nat, k < ⌈(e.level - low) / d⌉₊ → e.advances C k = { e with level := fallen e.level d k }) ∧
      e.advances C ⌈(e.level - low) / d⌉₊ = e' := by
  have hcall : ∀ k : Nat, ({ e with level := fallen e.level d k } : Env N).advance C =
      if k + 1 < ⌈(e.level - low) / d⌉₊ then { e with level := fallen e.level d (k + 1) } else e' := fun k => by
    simp only [hrule _ ((fallen_le hd k).trans h1), fallen_succ, fallen_succ_le_iff hd, ite_not]
  have hstart := (fallen_zero e.level d).symm
  exact ⟨Env.advances_ramp hstart fun k hk => (hcall k).trans (if_pos hk),
    Env.advances_ramp_end (Nat.ceil_pos.mpr (div_pos (sub_pos.mpr hlow) hd)) hstart (fun k hk => (hcall k).trans (if_pos hk))
      fun k hk => (hcall k).trans (if_neg hk.not_lt)⟩

/-- The fall of a decay from level 1 to a sustain level below it (41_envelope.md R124). -/
theorem Env.decay_falls (hD : 0 < e.decay) (hs : e.state = .decay) (h1 : e.level = 1) (hS0 : 0 ≤ e.sustain) (hS1 : e.sustain < 1) :
    e.advances C ⌈e.decay * C.fs⌉₊ = { e with level := e.sustain, state := .sustain } := by
  have hT := time_mul_fs_pos C hD
  have hgap := sub_pos.mpr hS1
  have hcalls : (e.level - e.sustain) / ((1 - e.sustain) / (e.decay * C.fs)) = e.decay * C.fs := by
    rw [h1, div_div_cancel₀ hgap.ne']
  rw [← hcalls]
  exact (Env.advances_fall (div_pos hgap hT) (h1 ▸ hS1) h1.le fun l hl =>
    Env.advance_of_decay C (e := { e with level := l }) hs hD hS0 hS1.le hl).2

/-- The fall of a release from a level above 0 (41_envelope.md R126). -/
theorem Env.release_falls (hR : 0 < e.release) (hs : e.state = .release) (hS : 0 < e.sustain) (h0 : 0 < e.level)
    (h1 : e.level ≤ 1) :
    (∀ k : Nat, k < ⌈e.level / e.sustain * (e.release * C.fs)⌉₊ →
      e.advances C k = { e with level := e.level - k * (e.sustain / (e.release * C.fs)) }) ∧
    e.advances C ⌈e.level / e.sustain * (e.release * C.fs)⌉₊ = { e with level := 0, state := .idle } := by
  have hT := time_mul_fs_pos C hR
  have hcalls : (e.level - 0) / (e.sustain / (e.release * C.fs)) = e.level / e.sustain * (e.release * C.fs) := by
    rw [sub_zero, div_div_eq_mul_div, mul_div_right_comm]
  rw [← hcalls]
  exact Env.advances_fall (div_pos hS hT) h0 h1 fun l hl =>
    Env.advance_of_release C (e := { e with level := l }) hs hR hS.le hl

omit [IsStrictOrderedRing N] [FloorRing N] in
/-- 41_envelope.md R125 (the spec's decision D10): in sustain a call sets the level to the parameter. -/
theorem Env.advance_of_sustain (hs : e.state = .sustain) (hS0 : 0 ≤ e.sustain) (hS1 : e.sustain ≤ 1) :
    e.advance C = { e with level := e.sustain } :=
  Env.advance_eq_of_rule_eq C (e.rule_of_sustain C hs) ⟨hS0, hS1⟩

end Ramps

/-- Settles O26: `Env.attack_climbs`. -/
theorem attackFromZeroTakesCeilingOfItsTime : Obligations.AttackFromZeroTakesCeilingOfItsTime := by
  intro N _ _ _ _ C e hA hs h0
  exact Env.attack_climbs hA hs h0

/-- Settles O28: `Env.release_falls`. -/
theorem releaseTimeIsProportionalToItsStartingLevel : Obligations.ReleaseTimeIsProportionalToItsStartingLevel := by
  intro N _ _ _ _ C e hR hS hs h0 h1
  exact Env.release_falls hR hs hS h0 h1

/-- Settles O29: with sustain 0 a call takes nothing off the level. -/
theorem releaseWithZeroSustainNeverEnds : Obligations.ReleaseWithZeroSustainNeverEnds := by
  intro N _ _ _ C e hR hS hs h0 h1 n
  have hcall : e.advance C = e := by
    have hstep : e.sustain / (e.release * C.fs) = 0 := by rw [hS, zero_div]
    rw [Env.advance_of_release C hs hR hS.ge h1, hstep, sub_zero, if_neg h0.not_ge]
  induction n with
  | zero => rfl
  | succ n ih => rw [Env.advances_succ, ih, hcall]

/-- Settles O27: the attack climbs to 1, the decay falls from there, or ends at once where sustain is 1, and the release falls from
the sustain level. -/
theorem envelopeReachesSustainAndThenIdle : Obligations.EnvelopeReachesSustainAndThenIdle := by
  intro N _ _ _ _ C e hA hD hR hS0 hS1 hs h0
  have hattack : e.noteOn.advances C ⌈e.attack * C.fs⌉₊ = { e with level := 1, state := .decay } :=
    (Env.attack_climbs (e := e.noteOn) hA rfl h0).2
  refine ⟨fun hS => ?_, fun hS => ?_, fun l => Env.advance_of_sustain rfl hS0 hS1, fun hS => ?_⟩
  · rw [Env.advances_add, hattack]
    exact Env.decay_falls (e := { e with level := 1, state := .decay }) hD rfl rfl hS0 hS
  · rw [Env.advances_succ, hattack, Env.advance_of_decay C (e := { e with level := 1, state := .decay }) rfl hD hS0 hS1 le_rfl]
    exact if_pos ((sub_le_self _ (div_nonneg (sub_nonneg.mpr hS1) (time_mul_fs_pos C hD).le)).trans hS.ge)
  · have hcalls : e.sustain / e.sustain * (e.release * C.fs) = e.release * C.fs := by rw [div_self hS.ne', one_mul]
    rw [← hcalls]
    exact (Env.release_falls (C := C) (e := ({ e with level := e.sustain, state := .sustain } : Env N).noteOff) hR rfl hS hS hS1).2

end Sys2Proof.Machine
end

section
/-! The frame over its registers (44_render.md, 10_state.md R45): what it keeps, the noise draws it takes, and when it is silent. -/

namespace Sys2Proof.Machine

open Sys2Proof

section AnyNumbers

variable {N : Type} [Zero N] [One N] [Add N] [Sub N] [Mul N] [Div N] [Neg N] [NatCast N] [IntCast N] [RatCast N]
  [LE N] [LT N] [DecidableLE N] [DecidableLT N] [DecidableEq N] (C : Config N) (nz : Quad N) (e : Engine N)

/-- 10_state.md R45: a frame writes no parameter register. -/
theorem Engine.frameStep_capture : (e.frameStep C nz).capture = e.capture := by
  have hop : (e.frameStep C nz).op.map OpBank.capture = e.op.map OpBank.capture := Quad.ext_get fun i => by
    rw [Engine.frameStep_op, Quad.get_map, Quad.get_map, Quad.get_map, OpBank.next_capture]
  calc (e.frameStep C nz).capture = { e.capture with op := (e.frameStep C nz).op.map OpBank.capture } := rfl
    _ = e.capture := by rw [hop]; rfl

omit [Add N] [RatCast N] [DecidableLE N] [DecidableEq N] in
/-- 40_waveform.md R115: only the noise waveform reads the draw. -/
theorem waveGen_congr_draw (K : Numerics N) {w : Wave} {nz nz' : N} (h : w = .noise → nz = nz') (mp : N) :
    waveGen K w mp nz = waveGen K w mp nz' := by
  cases w with
  | noise => exact h rfl
  | _ => rfl

variable {nz} {nz' : Quad N}

/-- Draws that agree for the noise operators give the same outputs. -/
theorem Engine.opOut_congr (h : ∀ i : Fin 4, (e.op.get i).wave = .noise → nz.get i = nz'.get i) :
    e.opOut C nz = e.opOut C nz' := by
  funext i
  rw [Engine.opOut_eq, Engine.opOut_eq, waveGen_congr_draw _ (h i)]

/-- A frame depends on the draws through the outputs alone. -/
theorem Engine.frame_congr (h : e.opOut C nz = e.opOut C nz') : e.frame C nz = e.frame C nz' := by
  unfold Engine.frame Engine.mix
  rw [h]

end AnyNumbers

/-- Settles O33: the law of `wrap` (R8 (c)) at the two phases that a frame writes. -/
theorem frameAdvancesTheLfoAndKeepsPhasesInsideOneTurn : Obligations.FrameAdvancesTheLfoAndKeepsPhasesInsideOneTurn := by
  intro N _ _ _ _ _ _ _ _ _ _ _ _ _ _ _ C nz e i
  rw [Engine.frame_op_get]
  exact ⟨rfl, rfl, C.wrap_mem _, C.wrap_mem _⟩

/-- With frames left a step is a frame (10_state.md R40 (c)). -/
theorem step_of_frames {s : State} (hf : s.eng.fr ≠ 0) : step s =
    .next { s with
            eng := s.eng.frameStep Config.chip (s.eng.drawNoise Config.chip s.noisePort s.noiseIdx)
            noiseIdx := s.noiseIdx + s.eng.drawCount } := if_neg hf

/-- Settles O6: the frame of `step_of_frames` is `State.afterFrame` with the sequencer registers set, and it emits one sample. -/
theorem stepRendersAFrameWhileFramesRemain : Obligations.StepRendersAFrameWhileFramesRemain := by
  intro s hf
  refine ⟨_, step_of_frames hf, rfl, rfl, ?_⟩
  rw [Engine.frameStep_outs, sampleCount, List.filter_append, List.length_append]
  rfl

/-- Settles O32: `Engine.frameStep` keeps each of these registers. -/
theorem frameLeavesEveryParameterAsItIs : Obligations.FrameLeavesEveryParameterAsItIs := by
  intro s t hf h
  obtain rfl := Host.Outcome.next.inj ((step_of_frames hf).symm.trans h)
  exact ⟨Engine.frameStep_capture _ _ _, rfl, rfl, rfl, rfl, rfl, rfl, rfl, rfl⟩

/-! ### Noise draws -/

section Draws

variable {N : Type} (e : Engine N)

/-- The operators that take a draw, counted. -/
theorem Engine.drawCount_eq_card :
    e.drawCount = (Finset.univ.filter fun i : Fin 4 => (e.op.get i).wave = .noise).card := by
  rw [Finset.card_filter, Fin.sum_univ_four]
  rfl

/-- The operators before `i` that take a draw, counted. -/
theorem Engine.drawsBefore_eq_card (i : Fin 4) :
    e.drawsBefore i = (Finset.univ.filter fun j : Fin 4 => j < i ∧ (e.op.get j).wave = .noise).card := by
  have hdraws : ∀ j : Fin 4, (if j < i ∧ (e.op.get j).wave = .noise then 1 else 0) = if j < i then e.draws j else 0 :=
    fun j => ite_and _ _ _ _
  rw [Finset.card_filter, Finset.sum_congr rfl fun j _ => hdraws j, Fin.sum_univ_four]
  fin_cases i <;> rfl

end Draws

/-- Settles O35: the two counts of draws, and `Engine.opOut_congr`. -/
theorem frameTakesOneDrawPerNoiseOperatorInOrder : Obligations.FrameTakesOneDrawPerNoiseOperatorInOrder := by
  refine ⟨fun s => congrArg (s.noiseIdx + ·) s.eng.drawCount_eq_card, fun C port idx e i => ?_,
    fun C nz nz' e h => e.frame_congr C (e.opOut_congr C h)⟩
  rw [← Engine.drawsBefore_eq_card, Engine.drawNoise, Quad.get_ofFn]

/-! ### Silence -/

section Silence

variable {N : Type} [Field N] [LinearOrder N] [IsStrictOrderedRing N] (C : Config N) (nz : Quad N) {e : Engine N}

/-- Any zero factor makes the output 0 (70_reset_and_hazards.md R260). -/
theorem Engine.opOut_eq_zero {i : Fin 4} (h : (e.op.get i).velSens = 0 ∨ e.curVel = 0 ∨ (e.op.get i).level = 0 ∨
    (e.op.get i).env.state = .idle) : e.opOut C nz i = 0 := by
  rw [Engine.opOut_eq]
  rcases h with h | h | h | h
  · rw [h, mul_zero, mul_zero]
  · rw [h, mul_zero, zero_mul, mul_zero]
  · rw [h, zero_mul, zero_mul, zero_mul, mul_zero]
  · rw [Env.advance_of_idle C h, mul_zero, zero_mul, zero_mul, mul_zero]

theorem softClip_zero (K : Numerics N) : softClip K 0 = 0 := by
  rw [softClip_eq, zero_mul, K.tanh_zero, zero_mul]

/-- A frame whose operators are all silent emits 0. -/
theorem Engine.frame_outs_of_silent (h : ∀ i, e.opOut C nz i = 0) : (e.frame C nz).outs = e.outs ++ [.sample 0] := by
  have hmix : e.mix C nz = 0 := by
    rw [Engine.mix_eq_sum]
    exact Finset.sum_eq_zero fun i _ => by rw [h, ite_self]
  rw [Engine.frame_outs, hmix, softClip_zero]

end Silence

/-- Settles O37: `Engine.opOut_eq_zero`. -/
theorem anyZeroFactorSilencesItsOperator : Obligations.AnyZeroFactorSilencesItsOperator := by
  intro N _ _ _ C nz e i h
  rw [Engine.frame_prevOut_get, Engine.opOut_eq_zero C nz h]

/-- Settles O36: every output has a zero factor; phases and envelopes advance as in any frame. -/
theorem idleEnvelopesOrZeroVelocityRenderSilence : Obligations.IdleEnvelopesOrZeroVelocityRenderSilence := by
  intro s hf hsilent
  have hout : ∀ nz i, s.eng.opOut Config.chip nz i = 0 := fun nz i => Engine.opOut_eq_zero Config.chip nz <|
    hsilent.elim (fun hidle => .inr (.inr (.inr (hidle i)))) fun hvel => .inr (.inl hvel)
  refine ⟨_, step_of_frames hf, Engine.frame_outs_of_silent Config.chip _ (hout _), hout _ 0, fun m => ?_, fun i => ?_⟩
  · rw [Engine.frameStep_prevOut, Quad.get_ofFn, hout]
  · rw [Engine.frameStep_op, Quad.get_map]
    refine ⟨rfl, fun hidle => ?_, rfl, rfl⟩
    rw [OpBank.next_env, Env.advance_of_idle _ hidle]
    exact ⟨hidle, rfl⟩

/-- Settles O38: nothing modulates operator 0, and the other three are silent. -/
theorem parallelCarriersReproduceOneGenerator : Obligations.ParallelCarriersReproduceOneGenerator := by
  intro N _ _ _ C nz e hmatrix hmask hfeedback hlfo hlevel
  have hother : ∀ i : Fin 4, i ≠ 0 → e.opOut C nz i = 0 := fun i hi =>
    Engine.opOut_eq_zero C nz (.inr (.inr (.inl (hlevel i hi))))
  have hmodIn : e.modIn 0 = 0 := by
    have hcell : ∀ m : Fin 4, (e.matrix.get m).get 0 = 0 := fun m => by
      rw [hmatrix, AlgEntry.parallel, Quad.get_const, Quad.get_const]
    simp only [Engine.modIn_eq_sum, hcell, zero_mul, Finset.sum_const_zero, if_pos, hfeedback, mul_zero, add_zero]
  have hlfoVal : (e.op.get 0).lfoVal C = 0 := by rw [OpBank.lfoVal, hlfo, mul_zero]
  have hmix : e.mix C nz = e.opOut C nz 0 := by
    rw [Engine.mix_eq_sum, Finset.sum_eq_single 0 (fun i _ hi => by rw [hother i hi, ite_self])
      fun h => absurd (Finset.mem_univ _) h, hmask, AlgEntry.parallel, Quad.get_const, if_pos rfl]
  rw [Engine.frame_outs, hmix, Engine.opOut_eq, hmodIn, hlfoVal, zero_mul, add_zero, add_zero]

end Sys2Proof.Machine
end

section
/-! The steps of a `RENDER` from its loading to its last frame (44_render.md R155, R174, 10_state.md R40). -/

namespace Sys2Proof.Machine

open Sys2Proof

/-! ### Runs -/

/-- A run that answers a state goes on from there. -/
theorem run_add_of_next {M : Host.Core} {u : M.State} {m : Nat} (n : Nat) :
    ∀ {s : M.State}, M.run m s = .next u → M.run (m + n) s = M.run n u := by
  induction m with
  | zero =>
    intro s h
    rw [Nat.zero_add, Host.Outcome.next.inj h]
  | succ m ih =>
    intro s h
    cases hs : M.step s with
    | next s' =>
      rw [run_succ_of_next hs] at h
      rw [Nat.succ_add, run_succ_of_next hs, ih h]
    | fault r => rw [Host.Core.run, hs] at h; cases h
    | refused r => rw [Host.Core.run, hs] at h; cases h

theorem StepsTo.trans {s u t : State} {m n : Nat} (h : StepsTo m s u) (ht : StepsTo n u t) : StepsTo (m + n) s t :=
  (run_add_of_next (M := core) n h).trans ht

/-! ### Frames on end -/

/-- The state with other values in the two sequencer registers. -/
def State.withSeq (pc fr : Nat) (s : State) : State := { s with eng := { s.eng with pc := pc, fr := fr } }

/-- The state with other items on the port. -/
def State.withPort (xs : List Item) (s : State) : State := { s with cmdIn := xs }

/-- A frame reads neither sequencer register. -/
theorem State.afterFrames_withSeq (pc fr n : Nat) : ∀ s : State,
    State.afterFrames n (s.withSeq pc fr) = (State.afterFrames n s).withSeq pc fr := by
  induction n with
  | zero => exact fun _ => rfl
  | succ n ih => exact fun s => ih s.afterFrame

/-- A frame does not look at the port. -/
theorem State.afterFrames_withPort (xs : List Item) (n : Nat) : ∀ s : State,
    State.afterFrames n (s.withPort xs) = (State.afterFrames n s).withPort xs := by
  induction n with
  | zero => exact fun _ => rfl
  | succ n ih => exact fun s => ih s.afterFrame

theorem State.afterFrames_add (m n : Nat) : ∀ s : State,
    State.afterFrames (m + n) s = State.afterFrames n (State.afterFrames m s) := by
  induction m with
  | zero => exact fun s => by rw [Nat.zero_add]; rfl
  | succ m ih => exact fun s => by rw [Nat.succ_add]; exact ih s.afterFrame

/-- Each frame emits one sample (44_render.md R171). -/
theorem sampleCount_afterFrames (n : Nat) : ∀ s : State,
    sampleCount (State.afterFrames n s).eng.outs = sampleCount s.eng.outs + n := by
  induction n with
  | zero => exact fun _ => rfl
  | succ n ih =>
    intro s
    have hone : sampleCount s.afterFrame.eng.outs = sampleCount s.eng.outs + 1 := by
      rw [State.afterFrame, Engine.frame_outs, sampleCount, List.filter_append, List.length_append]
      rfl
    rw [State.afterFrames, ih, hone, Nat.add_right_comm, Nat.add_assoc]

/-! ### A whole `RENDER` -/

/-- The last frame of a `RENDER` moves `pc` (10_state.md R40 (c)). -/
theorem step_of_fr_eq_one {s : State} (hf : s.eng.fr = 1) : step s = .next (s.afterFrame.withSeq (s.eng.pc + 1) 0) := by
  rw [step_of_frames (by omega), Engine.frameStep, hf]
  rfl

/-- Every other frame of a `RENDER` counts `fr` down alone (10_state.md R40 (c)). -/
theorem step_of_fr_eq_add_two {s : State} {n : Nat} (hf : s.eng.fr = n + 2) :
    step s = .next (s.afterFrame.withSeq s.eng.pc (n + 1)) := by
  rw [step_of_frames (by omega), Engine.frameStep, hf, if_neg (by omega)]
  rfl

/-- The frames left run to the end of their `RENDER`. -/
theorem frames_steps (n : Nat) : ∀ {s : State}, s.eng.fr = n + 1 →
    StepsTo (n + 1) s ((State.afterFrames (n + 1) s).withSeq (s.eng.pc + 1) 0) := by
  induction n with
  | zero => exact fun hf => .cons (step_of_fr_eq_one hf) (.zero _)
  | succ n ih =>
    intro s hf
    have hrest := ih (s := s.afterFrame.withSeq s.eng.pc (n + 1)) rfl
    rw [State.afterFrames_withSeq] at hrest
    exact .cons (step_of_fr_eq_add_two hf) hrest

/-- `RENDER n` at the head of the port: one step loads `fr`, or completes the command if `n` is 0, and the `n` frames follow. -/
theorem render_steps {n : Nat} {s : State} {rest : List Item} (hf : s.eng.fr = 0) (hd : decode s.cmdIn = .ok (.render n, rest)) :
    StepsTo (n + 1) s ((State.afterFrames n (s.withPort rest)).withSeq (s.eng.pc + 1) 0) := by
  have hload : step s = .next { s with eng := s.eng.startRender n, cmdIn := rest } := step_of_decode hf hd
  cases n with
  | zero =>
    have hdone : ({ s with eng := s.eng.startRender 0, cmdIn := rest } : State) = (s.withPort rest).withSeq (s.eng.pc + 1) 0 := by
      rw [Engine.startRender_zero, ← hf]
      rfl
    exact .cons (hload.trans (congrArg _ hdone)) (.zero _)
  | succ n =>
    have hframes := frames_steps n (s := (s.withPort rest).withSeq s.eng.pc (n + 1)) rfl
    rw [State.afterFrames_withSeq] at hframes
    rw [Engine.startRender_of_ne _ (by omega)] at hload
    exact .cons hload hframes

/-- Settles O40: `render_steps`, and one sample for each frame. -/
theorem renderRunsItsFramesToTheEnd : Obligations.RenderRunsItsFramesToTheEnd :=
  fun n s rest hf hd => ⟨_, render_steps hf hd, rfl, sampleCount_afterFrames n (s.withPort rest)⟩

/-- 44_render.md R155: an encoded `RENDER` at the head of the port. -/
theorem encoded_render_steps {n : Nat} (hn : n ≤ 16777215) {s : State} (hf : s.eng.fr = 0) (rest : List Item) :
    StepsTo (n + 1) (s.withPort (encode (.render n) ++ rest))
      ((State.afterFrames n (s.withPort rest)).withSeq (s.eng.pc + 1) 0) :=
  render_steps (s := s.withPort (encode (.render n) ++ rest)) hf (decode_encode (.render n) rest (decide_eq_true hn))

/-- Settles O41: the frames of the two blocks on end are those of the one, and the second `RENDER` moves `pc` once more. -/
theorem blocksMaySplitWithoutChangingTheSound : Obligations.BlocksMaySplitWithoutChangingTheSound := by
  intro a b s rest hf hab
  have hfirst := encoded_render_steps (n := a) (by omega) hf (encode (.render b) ++ rest)
  have hsecond := encoded_render_steps (n := b) (by omega)
    (s := (State.afterFrames a s).withSeq (s.eng.pc + 1) 0) rfl rest
  have hone := encoded_render_steps hab hf rest
  rw [State.afterFrames_withPort] at hfirst
  refine ⟨_, _, hfirst.trans hsecond, hone, ?_⟩
  rw [State.afterFrames_add, State.afterFrames_withPort rest a s]
  exact congrArg (State.withSeq (s.eng.pc + 1 + 1) 0)
    (State.afterFrames_withSeq (s.eng.pc + 1) 0 b ((State.afterFrames a s).withPort rest))

/-! ### Right after reset -/

section Untouched

variable {N : Type} [Field N] [LinearOrder N] [IsStrictOrderedRing N] {C : Config N} {e : Engine N}

/-- Nothing has been played: no frequency, phases at 0 and every envelope idle (70_reset_and_hazards.md R241). -/
def Engine.Untouched (e : Engine N) : Prop :=
  e.f0 = 0 ∧ ∀ i : Fin 4, (e.op.get i).phase = 0 ∧ (e.op.get i).env.state = .idle

omit [IsStrictOrderedRing N] in
theorem Engine.reset_untouched : (Engine.reset C).Untouched := by
  refine ⟨rfl, fun i => ?_⟩
  rw [Engine.reset_op_get]
  exact ⟨rfl, rfl⟩

/-- A frame then emits 0 and leaves it so: the phases advance by a frequency of 0. -/
theorem Engine.Untouched.frame (h : e.Untouched) (nz : Quad N) :
    (e.frame C nz).Untouched ∧ (e.frame C nz).outs = e.outs ++ [.sample 0] := by
  obtain ⟨hf0, hbanks⟩ := h
  refine ⟨⟨hf0, fun i => ?_⟩, Engine.frame_outs_of_silent C nz fun i =>
    Engine.opOut_eq_zero C nz (.inr (.inr (.inr (hbanks i).2)))⟩
  obtain ⟨hphase, hidle⟩ := hbanks i
  rw [Engine.frame_op_get]
  constructor
  · rw [OpBank.next_phase, hphase, hf0, mul_zero, zero_div, add_zero]
    exact C.wrap_of_mem le_rfl C.two_pi_pos
  · rw [OpBank.next_env, Env.advance_of_idle C hidle]
    exact hidle

end Untouched

/-- Any number of frames then emit 0 each and leave it so. -/
theorem State.afterFrames_of_untouched (n : Nat) : ∀ {s : State}, s.eng.Untouched →
    (State.afterFrames n s).eng.Untouched ∧
      (State.afterFrames n s).eng.outs = s.eng.outs ++ List.replicate n (.sample 0) := by
  induction n with
  | zero => exact fun h => ⟨h, (List.append_nil _).symm⟩
  | succ n ih =>
    intro s h
    obtain ⟨hnext, houts⟩ := h.frame (C := Config.chip) (s.eng.drawNoise Config.chip s.noisePort s.noiseIdx)
    obtain ⟨hall, hallOuts⟩ := ih (s := s.afterFrame) hnext
    refine ⟨hall, hallOuts.trans ?_⟩
    rw [State.afterFrame, houts, List.append_assoc]
    rfl

/-- Settles O4: reset leaves an engine on which nothing has been played, and `RENDER` runs its frames. -/
theorem renderRightAfterResetIsSilent : Obligations.RenderRightAfterResetIsSilent := by
  intro n rest hn
  obtain ⟨⟨-, hbanks⟩, houts⟩ := State.afterFrames_of_untouched n (s := State.reset.withPort rest)
    (Engine.reset_untouched (C := Config.chip))
  refine ⟨_, encoded_render_steps hn (s := State.reset) rfl rest, houts, rfl, rfl, ?_, hbanks⟩
  rw [State.afterFrames_withPort]
  rfl

end Sys2Proof.Machine
end
